-- ==== Sys2Proof/Word.lean ====
section
/-! DEFINITION. Words, bytes and byte strings (spec/00_scope.md rules R11, R12). -/

namespace Sys2Proof

/-- A byte, bit 7 most significant (R12). -/
abbrev Byte := BitVec 8

/-- A register or command word: 32 bits, bit 0 least significant (R11). -/
abbrev Word := BitVec 32

/-- A byte string, index 0 first (R12). -/
abbrev Bytes := List Byte

/-- `zeros(n)`: `n` bytes of 0x00 (R12). -/
def zeros (n : Nat) : Bytes := List.replicate n 0

/-- `rep(n, v)`: `n` bytes each of value `v` (R12). -/
def rep (n : Nat) (v : Byte) : Bytes := List.replicate n v

end Sys2Proof
end

