-- ==== Sys2Proof/Syntax.lean ====
section
/-! DEFINITION. The fifteen commands of spec/opcode_table.json, one constructor per row (30_encoding.md R71, R73, R74). -/

namespace Sys2Proof

/-- A command, with exactly the fields of the command word its format uses (R74). SLOT is the unsigned integer of R76; the
range of its field is a check of WellFormed. `n0`, `n1` are the null flags, `kx`, `ix` the explicit flags (R77). -/
inductive Instr where
  /-- SETMODE, format FS (R170). -/
  | setmode
  /-- SETPADDING, format FS (R171). -/
  | setpadding
  /-- SETKEYSIZE, format FS (R172). -/
  | setkeysize
  /-- SETBLOCKSIZE, format FS (R173). -/
  | setblocksize
  /-- SETFEEDBACK, format FS (R174). -/
  | setfeedback
  /-- SETKEY, format FB (R175). -/
  | setkey (n0 : Bool)
  /-- SETIV, format FB (R176). -/
  | setiv (n0 : Bool)
  /-- GETKEY, format FB (R177). -/
  | getkey (n0 : Bool)
  /-- GETIV, format FB (R178). -/
  | getiv (n0 : Bool)
  /-- CRENC, format FC (R180). -/
  | crenc (slot : Nat) (n0 n1 kx ix : Bool)
  /-- CRDEC, format FC (R180). -/
  | crdec (slot : Nat) (n0 n1 kx ix : Bool)
  /-- TBLOCK, format FT (R142). -/
  | tblock (slot : Nat) (n0 n1 : Bool)
  /-- TFINAL, format FT (R150). -/
  | tfinal (slot : Nat) (n0 n1 : Bool)
  /-- CLEAR, format FL (R160). -/
  | clear (slot : Nat)
  /-- QUERY, format FL (R162). -/
  | query (slot : Nat)
deriving DecidableEq, Repr

end Sys2Proof
end

