-- ==== Sys2Proof/WellFormed.lean ====
section
/-! DEFINITION. Which commands a command word can hold (30_encoding.md R71): the SLOT field has eight bits. -/

namespace Sys2Proof

/-- A slot number fits the eight bits w[15:8] of the command word (R71). Whether the slot exists is checked at execution
(R84, R141), not here. -/
abbrev slotFits (slot : Nat) : Prop := slot < 256

/-- The command can be written as a command word. -/
abbrev Instr.WellFormed : Instr → Prop
  | .setmode => True
  | .setpadding => True
  | .setkeysize => True
  | .setblocksize => True
  | .setfeedback => True
  | .setkey _ => True
  | .setiv _ => True
  | .getkey _ => True
  | .getiv _ => True
  | .crenc slot _ _ _ _ => slotFits slot
  | .crdec slot _ _ _ _ => slotFits slot
  | .tblock slot _ _ => slotFits slot
  | .tfinal slot _ _ => slotFits slot
  | .clear slot => slotFits slot
  | .query slot => slotFits slot

end Sys2Proof
end

