-- ==== Sys2Proof/Decode.lean ====
section
/-! DEFINITION. The decoder of command words and the encoder (30_encoding.md R71 to R77, R83). -/

namespace Sys2Proof

/-- The five formats of R74. -/
inductive Format where
  /-- Scalar configuration: OP only. -/
  | fs
  /-- Buffer configuration: OP, N0. -/
  | fb
  /-- Create: OP, SLOT, N0, N1, KX, IX. -/
  | fc
  /-- Transform: OP, SLOT, N0, N1. -/
  | ft
  /-- Slot: OP, SLOT. -/
  | fl
deriving DecidableEq, Repr

/-- The `mask` column of R74: the bits a command of the format fixes. -/
def Format.mask : Format → Word
  | .fs => 0xFFFFFFFF#32
  | .fb => 0xFFFEFFFF#32
  | .fc => 0xFFF000FF#32
  | .ft => 0xFFFC00FF#32
  | .fl => 0xFFFF00FF#32

/-- The fields of a command word besides OP (R71). -/
structure Fields where
  /-- SLOT, w[15:8], zero-extended (R76). -/
  slot : Nat
  /-- N0, w[16]. -/
  n0 : Bool
  /-- N1, w[17]. -/
  n1 : Bool
  /-- KX, w[18]. -/
  kx : Bool
  /-- IX, w[19]. -/
  ix : Bool
deriving DecidableEq, Repr

/-- OP, w[7:0] (R71). -/
def opcode (w : Word) : Nat := (w.extractLsb' 0 8).toNat

/-- The other fields of the word (R71). -/
def fieldsOf (w : Word) : Fields :=
  { slot := (w.extractLsb' 8 8).toNat
    n0 := w.getLsbD 16
    n1 := w.getLsbD 17
    kx := w.getLsbD 18
    ix := w.getLsbD 19 }

/-- The assigned opcodes of R73, each with its format and the command its fields make. -/
def assigned : Nat → Option (Format × (Fields → Instr))
  | 0x01 => some (.fs, fun _ => .setmode)
  | 0x02 => some (.fs, fun _ => .setpadding)
  | 0x03 => some (.fs, fun _ => .setkeysize)
  | 0x04 => some (.fs, fun _ => .setblocksize)
  | 0x05 => some (.fs, fun _ => .setfeedback)
  | 0x06 => some (.fb, fun f => .setkey f.n0)
  | 0x07 => some (.fb, fun f => .setiv f.n0)
  | 0x08 => some (.fb, fun f => .getkey f.n0)
  | 0x09 => some (.fb, fun f => .getiv f.n0)
  | 0x10 => some (.fc, fun f => .crenc f.slot f.n0 f.n1 f.kx f.ix)
  | 0x11 => some (.fc, fun f => .crdec f.slot f.n0 f.n1 f.kx f.ix)
  | 0x20 => some (.ft, fun f => .tblock f.slot f.n0 f.n1)
  | 0x21 => some (.ft, fun f => .tfinal f.slot f.n0 f.n1)
  | 0x22 => some (.fl, fun f => .clear f.slot)
  | 0x23 => some (.fl, fun f => .query f.slot)
  | _ => none

/-- Why a word is no command (R72, R83). Executing such a word raises IllegalCommand. -/
inductive DecodeError where
  /-- OP is not a value of R73's table. -/
  | unassignedOpcode (op : Nat)
  /-- A bit that the opcode's format does not use is 1. -/
  | unusedBitSet (op : Nat)
  /-- Fewer than the four byte lanes of a word (only for the byte form of the decoder). -/
  | missingLanes
deriving DecidableEq, Repr

/-- R72: the word's command, selected when `(w AND mask) = OP` for the mask of the opcode's format (R74). Decoding reads
nothing but `w`. -/
def decode (w : Word) : Except DecodeError Instr :=
  match assigned (opcode w) with
  | none => .error (.unassignedOpcode (opcode w))
  | some (fmt, make) =>
    if w &&& fmt.mask = BitVec.ofNat 32 (opcode w) then .ok (make (fieldsOf w))
    else .error (.unusedBitSet (opcode w))

/-- The four byte lanes of a word: lane `k` is bits [8k+7:8k] (R58, the little-endian convention the spec adopts). -/
def lanesOf (w : Word) : Bytes :=
  [w.extractLsb' 0 8, w.extractLsb' 8 8, w.extractLsb' 16 8, w.extractLsb' 24 8]

/-- The word whose byte lanes are given, lane 0 first (R58). -/
def wordOfLanes (b0 b1 b2 b3 : Byte) : Word := b3 ++ b2 ++ b1 ++ b0

/-- The decoder on a list of byte lanes: the command of the first four and the lanes after them. -/
def decodeLanes : Bytes → Except DecodeError (Instr × Bytes)
  | b0 :: b1 :: b2 :: b3 :: rest =>
    match decode (wordOfLanes b0 b1 b2 b3) with
    | .ok i => .ok (i, rest)
    | .error e => .error e
  | _ => .error .missingLanes

/-- The instruction read from a table word of `nbits` bits; bits above `nbits` are 0, and a number that does not fit the one
32-bit word of every command (R71) is none. -/
def decodeTableWord (nbits w : Nat) : Option Instr :=
  if w % 2 ^ nbits < 2 ^ 32 then
    match decodeLanes (lanesOf (BitVec.ofNat 32 (w % 2 ^ nbits))) with
    | .ok (i, _) => some i
    | .error _ => none
  else none

/-- The word with the given OP and fields, every other bit 0 (R71): `OP | SLOT<<8 | N0<<16 | N1<<17 | KX<<18 | IX<<19`. -/
def packWord (op slot : Nat) (n0 n1 kx ix : Bool) : Word :=
  (BitVec.ofNat 8 op).setWidth 32 ||| ((BitVec.ofNat 8 slot).setWidth 32 <<< 8) |||
    ((BitVec.ofBool n0).setWidth 32 <<< 16) ||| ((BitVec.ofBool n1).setWidth 32 <<< 17) |||
    ((BitVec.ofBool kx).setWidth 32 <<< 18) ||| ((BitVec.ofBool ix).setWidth 32 <<< 19)

/-- The opcode of a command (R73). -/
def opOf : Instr → Nat
  | .setmode => 0x01
  | .setpadding => 0x02
  | .setkeysize => 0x03
  | .setblocksize => 0x04
  | .setfeedback => 0x05
  | .setkey _ => 0x06
  | .setiv _ => 0x07
  | .getkey _ => 0x08
  | .getiv _ => 0x09
  | .crenc _ _ _ _ _ => 0x10
  | .crdec _ _ _ _ _ => 0x11
  | .tblock _ _ _ => 0x20
  | .tfinal _ _ _ => 0x21
  | .clear _ => 0x22
  | .query _ => 0x23

/-- The command word of a well-formed command (R71, R73, R74, R85). -/
def encode : Instr → Word
  | .setmode => packWord 0x01 0 false false false false
  | .setpadding => packWord 0x02 0 false false false false
  | .setkeysize => packWord 0x03 0 false false false false
  | .setblocksize => packWord 0x04 0 false false false false
  | .setfeedback => packWord 0x05 0 false false false false
  | .setkey n0 => packWord 0x06 0 n0 false false false
  | .setiv n0 => packWord 0x07 0 n0 false false false
  | .getkey n0 => packWord 0x08 0 n0 false false false
  | .getiv n0 => packWord 0x09 0 n0 false false false
  | .crenc slot n0 n1 kx ix => packWord 0x10 slot n0 n1 kx ix
  | .crdec slot n0 n1 kx ix => packWord 0x11 slot n0 n1 kx ix
  | .tblock slot n0 n1 => packWord 0x20 slot n0 n1 false false
  | .tfinal slot n0 n1 => packWord 0x21 slot n0 n1 false false
  | .clear slot => packWord 0x22 slot false false false false
  | .query slot => packWord 0x23 slot false false false false

end Sys2Proof
end

