-- ==== Sys2Proof/Config.lean ====
section
/-! DEFINITION. The parameters of an instance (00_scope.md R6) as plain data, and the free values: the block primitive (R7), the
weak-key set (R8) and the random source (R9), which are constants that no proof can evaluate. -/

namespace Sys2Proof

/-- `ALG`, the algorithm bound to this instance (R6). -/
inductive Alg where
  | des
  | tripleDes
  | rc2
  | rijndael
  | other
deriving DecidableEq, Repr, Inhabited

/-- An entry {min, max, skip} of a legal-size table, in bits (R6, R10). -/
structure SizeEntry where
  min : Nat
  max : Nat
  skip : Nat
deriving DecidableEq, Repr, Inhabited

/-- One range of host addresses with the access kinds the platform admits there. A list of ranges is how the model writes
down the platform's predicate `MemAdmit` (R55; log entry 9). -/
structure Region where
  base : Nat
  size : Nat
  readable : Bool
  writable : Bool
deriving DecidableEq, Repr, Inhabited

/-- The parameters of R6 that are data. They belong to the instance and no step changes them (log entry 1). -/
structure Params where
  /-- `ALG`. -/
  alg : Alg
  /-- `LEGAL_KEY_SIZES`. -/
  keySizes : List SizeEntry
  /-- `LEGAL_BLOCK_SIZES`. -/
  blockSizes : List SizeEntry
  /-- The block sizes b, in bits, whose `SUPPORTED_CFB(b)` holds b itself beside 8. -/
  cfbFullBlock : List Nat
  /-- `NUM_SLOTS`. -/
  numSlots : Nat
  /-- `DEFAULT_KEY_BITS`. -/
  defaultKeyBits : Nat
  /-- `DEFAULT_BLOCK_BITS`. -/
  defaultBlockBits : Nat
  /-- `DEFAULT_FEEDBACK_BITS`. -/
  defaultFeedbackBits : Nat
  /-- `SME_BASE`. -/
  smeBase : Word
  /-- The ranges `MemAdmit` admits. -/
  memMap : List Region
deriving DecidableEq, Repr

/-- The block primitive of the instance (R7): for a key and a block length, a permutation of the blocks of that length.
FREE VALUE, log entry 7. -/
opaque Config.cipher : Alg → Bytes → (n : Nat) → Equiv.Perm (Vector Byte n)

/-- What the primitive's functions (`true` for Dec) answer for a key or a block of a size that is not legal, of which R7
says nothing. FREE VALUE, log entry 7. -/
opaque Config.offTable : Alg → Bool → Bytes → (n : Nat) → Vector Byte n → Vector Byte n

/-- The algorithm's weak-key set as far as R8 leaves it open. FREE VALUE, log entry 6. -/
opaque Config.weakSet : Alg → Bytes → Bool

/-- A key of each length that is not weak, byte by byte; one exists wherever `draw_key` has a value (R9). FREE VALUE, log
entry 6. -/
opaque Config.strongByte : Alg → Nat → Nat → Byte

/-- The random source (R9): byte number `k` of everything it ever supplies. FREE VALUE, log entry 5. -/
opaque Config.randomByte : Nat → Byte

end Sys2Proof
end

