-- ==== Sys2Proof/Machine/Platform.lean ====
section
/-! DEFINITION. What a command asks of the instance's parameters and of its collaborators: legal sizes (00_scope.md R10), the
block primitive (R7), weak keys (R8), draws (R9), memory admission (20_memory.md R55, R56), and the instance that stands at
reset. -/

namespace Sys2Proof.Machine

/-! ### Legal sizes (R10) -/

/-- One entry of a legal-size table admits the size `v`, over mathematical integers (R10). -/
def entryAdmits (e : SizeEntry) (v : Int) : Bool :=
  (decide (e.skip = 0) && decide (v = e.min) && decide (e.min = e.max)) ||
    (decide (0 < e.skip) && decide ((e.min : Int) ≤ v) && decide (v ≤ e.max) && decide ((v - e.min) % e.skip = 0))

/-- `Legal(T, v)` (R10). -/
def legal (table : List SizeEntry) (v : Int) : Bool :=
  table.any fun e => entryAdmits e v

/-- `Legal(T, 8·n)`: a string of `n` bytes has a legal size. -/
def legalBytes (table : List SizeEntry) (n : Nat) : Bool := legal table (8 * (n : Int))

/-- The largest size an entry admits, 0 where it admits none (R6, derived constants). -/
def entryLargest (e : SizeEntry) : Nat :=
  if e.skip = 0 then (if e.min = e.max then e.min else 0)
  else if e.min ≤ e.max then e.max - (e.max - e.min) % e.skip else 0

/-- The largest legal size of a table, in bits. -/
def largestLegal (table : List SizeEntry) : Nat :=
  table.foldl (fun m e => max m (entryLargest e)) 0

/-- `KEY_MAX_BYTES` (R6). -/
def keyMaxBytes (p : Params) : Nat := largestLegal p.keySizes / 8

/-- `BLOCK_MAX_BYTES` (R6). -/
def blockMaxBytes (p : Params) : Nat := largestLegal p.blockSizes / 8

/-- `s ∈ SUPPORTED_CFB(b)`: 8 always, b where the primitive supports full-block feedback (R6). -/
def supportedCfb (p : Params) (b s : Nat) : Bool :=
  decide (s = 8) || (decide (s = b) && decide (b ∈ p.cfbFullBlock))

/-! ### The constraints on an instance (R6) -/

/-- R6: every min, max and skip a multiple of 8 and min at least 8; and a size fits the 32-bit field that holds it (R21, R23;
DEDUCED, log entry 2). -/
def entryLawful (e : SizeEntry) : Bool :=
  decide (e.min % 8 = 0) && decide (e.max % 8 = 0) && decide (e.skip % 8 = 0) && decide (8 ≤ e.min) &&
    decide (e.min < 2 ^ 32) && decide (e.max < 2 ^ 32)

/-- R6: the sizes the source fixes for a DES and a TripleDES instance. -/
def algSizesLawful (p : Params) : Bool :=
  match p.alg with
  | .des => legal p.keySizes 64 && legal p.blockSizes 64
  | .tripleDes => legal p.keySizes 192 && legal p.keySizes 128
  | .rc2 => true
  | .rijndael => true
  | .other => true

/-- The constraints R6 puts on the parameters. -/
def paramsLawful (p : Params) : Bool :=
  p.keySizes.all entryLawful && p.blockSizes.all entryLawful && algSizesLawful p &&
    decide (1 ≤ p.numSlots) && decide (p.numSlots ≤ 256) &&
    legal p.keySizes p.defaultKeyBits && legal p.blockSizes p.defaultBlockBits &&
    decide (1 ≤ p.defaultFeedbackBits) && decide (p.defaultFeedbackBits ≤ p.defaultBlockBits) &&
    decide (p.smeBase.toNat % 4096 = 0)

/-- An instance that meets R6's constraints. The field values written here only show that one exists. -/
structure LawfulInstance where
  params : Params :=
    { alg := .other, keySizes := [⟨64, 128, 64⟩], blockSizes := [⟨64, 128, 64⟩], cfbFullBlock := [64, 128], numSlots := 4
      defaultKeyBits := 64, defaultBlockBits := 64, defaultFeedbackBits := 8, smeBase := 0x40000000#32
      memMap := [⟨0, 0x10000, true, true⟩] }
  lawful : paramsLawful params = true := by decide
deriving Inhabited

/-- THE instance whose machine `State.reset` is: any that R6 allows. FREE VALUE, log entry 2. -/
opaque boundInstance : LawfulInstance

/-- The parameters of the instance at reset. -/
def resetParams : Params := boundInstance.params

/-! ### Memory admission (R55, R56) -/

/-- The kind of a buffer access (R55). -/
inductive AccessKind where
  | read
  | write
deriving DecidableEq, Repr

/-- The host address lies in the engine's own register window (R51, R56). -/
def inWindow (p : Params) (a : Nat) : Bool :=
  decide (p.smeBase.toNat ≤ a) && decide (a ≤ p.smeBase.toNat + 0xFFF)

/-- A range admits the access. -/
def regionAdmits (r : Region) (kind : AccessKind) (a : Nat) : Bool :=
  decide (r.base ≤ a) && decide (a < r.base + r.size) &&
    match kind with
    | .read => r.readable
    | .write => r.writable

/-- `MemAdmit(a, kind)`, with R56: a byte of the engine's own window is never admitted. -/
def admits (p : Params) (kind : AccessKind) (a : Nat) : Bool :=
  !inWindow p a && p.memMap.any fun r => regionAdmits r kind a

/-! ### Weak keys (R8) -/

/-- A key of length `n` that is not weak. It is free but for differing from the all-zero key, which R8 calls weak. -/
def strongKey (alg : Alg) (n : Nat) : Bytes :=
  let k := (List.range n).map (Config.strongByte alg n)
  if k = zeros n then rep n 1 else k

/-- The part of the weak-key set that R8 leaves open: any set that spares one key of each length. -/
def openWeak (alg : Alg) (K : Bytes) : Bool :=
  Config.weakSet alg K && decide (K ≠ strongKey alg K.length)

/-- `IS_WEAK_KEY(K)` (R8). -/
def isWeakKey (alg : Alg) (K : Bytes) : Bool :=
  match alg with
  | .des => decide (K = zeros 8) || openWeak .des K
  | .tripleDes => decide (K = zeros 16) || openWeak .tripleDes K
  | .rc2 => false
  | .rijndael => false
  | .other => false

/-! ### Draws (R9) -/

/-- `draw_bytes(n)` when `at_` bytes have been drawn before. -/
def drawnBytes (at_ n : Nat) : Bytes :=
  (List.range n).map fun i => Config.randomByte (at_ + i)

/-- `draw_key(n)` when `at_` bytes have been drawn before: arbitrary, but not weak. -/
def drawnKey (alg : Alg) (at_ n : Nat) : Bytes :=
  let k := drawnBytes at_ n
  if isWeakKey alg k then strongKey alg n else k

/-! ### The block primitive (R7) -/

/-- The key and the block length are of legal sizes: where R7 gives the primitive a meaning. -/
def inDomain (p : Params) (K : Bytes) (n : Nat) : Bool :=
  legalBytes p.keySizes K.length && legalBytes p.blockSizes n

/-- A byte string as the vector the primitive permutes. -/
def blockOf (X : Bytes) : Vector Byte X.length := ⟨X.toArray, by simp⟩

/-- `Enc(K, X)` (R7). -/
def encrypt (p : Params) (K X : Bytes) : Bytes :=
  if inDomain p K X.length then (Config.cipher p.alg K X.length (blockOf X)).toList
  else (Config.offTable p.alg false K X.length (blockOf X)).toList

/-- `Dec(K, X)` (R7). -/
def decrypt (p : Params) (K X : Bytes) : Bytes :=
  if inDomain p K X.length then ((Config.cipher p.alg K X.length).symm (blockOf X)).toList
  else (Config.offTable p.alg true K X.length (blockOf X)).toList

/-! ### The collaborators as one argument -/

/-- The engine's pure collaborators (R5 (3) and (4), R6): the operations over a command take them as an argument, so that they
can be run over the toy instance of 95_test_vectors.md as well. Not part of the state. -/
structure Externals where
  /-- `Enc(K, X)`. -/
  enc : Bytes → Bytes → Bytes
  /-- `Dec(K, X)`. -/
  dec : Bytes → Bytes → Bytes
  /-- `IS_WEAK_KEY(K)`. -/
  isWeak : Bytes → Bool
  /-- `draw_bytes(n)` after the given number of bytes. -/
  drawBytes : Nat → Nat → Bytes
  /-- `draw_key(n)` after the given number of bytes. -/
  drawKey : Nat → Nat → Bytes

/-- The collaborators of an instance. -/
def externals (p : Params) : Externals :=
  { enc := encrypt p
    dec := decrypt p
    isWeak := isWeakKey p.alg
    drawBytes := drawnBytes
    drawKey := drawnKey p.alg }

end Sys2Proof.Machine
end

