-- ==== Sys2Proof/Machine/Types.lean ====
section
/-! DEFINITION. The parts of the state of the SME-158 (10_state.md): modes, paddings, slots, the configuration register file,
the argument registers, host memory, the host events that drive the engine, and the error kinds (60_exceptions.md R200). -/

namespace Sys2Proof.Machine

/-- The mode held by the 4-bit field `cfg.mode` (R25, R80). -/
inductive Mode where
  | cbc
  | ecb
  | ofb
  | cfb
deriving DecidableEq, Repr

/-- The padding held by the 4-bit field `cfg.padding` (R26, R81). The scheme None is called `nopad`. -/
inductive Padding where
  | nopad
  | pkcs7
  | zeros
  | ansix923
  | iso10126
deriving DecidableEq, Repr

/-- `slot[n].dir` (R41). -/
inductive Direction where
  | encrypt
  | decrypt
deriving DecidableEq, Repr

/-- `slot[n].st` (R40); its fourth value is never held. -/
inductive SlotState where
  /-- No transform instance is live. -/
  | cleared
  /-- A live transform that accepts TBLOCK and TFINAL. -/
  | active
  /-- TFINAL has completed on it. -/
  | finalized
deriving DecidableEq, Repr

/-- The error kinds of R200 (60_exceptions.md), in the order of their codes. -/
inductive ErrorKind where
  | argumentNull
  | argumentRange
  | argumentOverflow
  | invalidKeySize
  | invalidIVSize
  | invalidBlockSize
  | invalidFeedbackSize
  | weakKey
  | invalidDataLength
  | invalidPadding
  | feedbackSizeUnsupported
  | objectDisposed
  /-- Never raised (R206). -/
  | invalidOperation
  | invalidInputLength
  | illegalCommand
  | busError
deriving DecidableEq, Repr

/-- The configuration register file (R20 to R26). -/
structure Cfg where
  /-- R20. -/
  key : Bytes
  /-- R21. -/
  keyBits : Word
  /-- R22. -/
  iv : Bytes
  /-- R23. -/
  blockBits : Word
  /-- R24. -/
  feedbackBits : Word
  /-- R25. -/
  mode : Mode
  /-- R26. -/
  padding : Padding
deriving DecidableEq, Repr

/-- A transform slot (R40 to R46). -/
structure Slot where
  /-- R40. -/
  st : SlotState
  /-- R41. -/
  dir : Direction
  /-- R42: the 4-bit mode field; `none` is its reset value 0, which is no mode. -/
  mode : Option Mode
  /-- R42: the 4-bit padding field; `none` is its reset value 0, which is no padding. -/
  padding : Option Padding
  /-- R42. -/
  blockBits : Word
  /-- R42. -/
  fbBits : Word
  /-- R43: the segment size in bytes. -/
  u : Nat
  /-- R44. -/
  key : Bytes
  /-- R45. -/
  chain : Bytes
  /-- R46. -/
  ibuf : Bytes
deriving DecidableEq, Repr

/-- ARG0 to ARG7 (R32). -/
structure ArgFile where
  arg0 : Word
  arg1 : Word
  arg2 : Word
  arg3 : Word
  arg4 : Word
  arg5 : Word
  arg6 : Word
  arg7 : Word
deriving DecidableEq, Repr

/-- What the world outside the engine does to it, one access at a time (R5, R58, R62, R220; log entries 3, 16, 17). -/
inductive HostEvent where
  /-- A host writes `value` to the window at byte offset `offset` with an access of `width` bits. -/
  | windowWrite (offset : BitVec 12) (width : Nat) (value : Word)
  /-- A host reads the window at byte offset `offset` with an access of `width` bits. -/
  | windowRead (offset : BitVec 12) (width : Nat)
  /-- A host stores a byte at a host address. -/
  | memStore (address : Word) (value : Byte)
  /-- A host loads the byte at a host address. -/
  | memLoad (address : Word)
  /-- The platform resets the engine while no command is in progress. -/
  | reset
  /-- The platform resets the engine while the command word written to CMD is being executed. `commits` is the platform's
  choice (R220, U7; log entry 17): the reset follows the command's commit, or discards the command entirely. -/
  | resetDuring (command : Word) (commits : Bool)
deriving DecidableEq, Repr

/-- Host memory (R50): the listed bytes in rising order of address; an unlisted byte reads as `blankByte`. -/
abbrev Memory := List Host.Cell

end Sys2Proof.Machine
end

