-- ==== Sys2Proof/Machine/Reset.lean ====
section
/-! DEFINITION. The reset values of the parts of the state (10_state.md R20 to R46, 70_reset_and_hazards.md R220). -/

namespace Sys2Proof.Machine

/-- What a byte of host memory that nothing has written reads as. DESIGN CHOICE, unsafe: log entry 8. -/
def blankByte : Byte := 0

/-- A slot that was never created (reset values of R40 to R46). The zeros fill the slot's storage (R44, R45; DEDUCED, log
entry 12). -/
def freshSlot (p : Params) : Slot :=
  { st := .cleared
    dir := .encrypt
    mode := none
    padding := none
    blockBits := 0
    fbBits := 0
    u := 0
    key := zeros (keyMaxBytes p)
    chain := zeros (blockMaxBytes p)
    ibuf := [] }

/-- The configuration after a reset that happens when `drawn` bytes have been drawn (R20 to R26, R220): the key is drawn
first, then the IV. -/
def resetCfg (p : Params) (drawn : Nat) : Cfg :=
  { key := drawnKey p.alg drawn (p.defaultKeyBits / 8)
    keyBits := BitVec.ofNat 32 p.defaultKeyBits
    iv := drawnBytes (drawn + p.defaultKeyBits / 8) (p.defaultBlockBits / 8)
    blockBits := BitVec.ofNat 32 p.defaultBlockBits
    feedbackBits := BitVec.ofNat 32 p.defaultFeedbackBits
    mode := .cbc
    padding := .pkcs7 }

/-- Every argument register at 0 (R32). -/
def zeroArgs : ArgFile := ⟨0, 0, 0, 0, 0, 0, 0, 0⟩

end Sys2Proof.Machine
end

