-- ==== Sys2Proof/Machine/State.lean ====
section
/-! DEFINITION. The state of the SME-158 (10_state.md), the ways a step can stop, and the state after reset
(70_reset_and_hazards.md R220). -/

namespace Sys2Proof.Machine

/-- The machine: everything 10_state.md names, host memory, the instance's parameters, and three fields of the model's own
(`draws`, `pending`, `lastRead`). -/
structure State where
  /-- The parameters of the instance (R6; log entry 1). -/
  params : Params
  /-- The configuration register file (R20 to R26). -/
  cfg : Cfg
  /-- The NUM_SLOTS transform slots (R40 to R46). -/
  slots : List Slot
  /-- ARG0 to ARG7 (R32). -/
  args : ArgFile
  /-- STATUS.ERR (R34). -/
  err : BitVec 8
  /-- RESULT0 (R35). -/
  result0 : Word
  /-- RESULT1 (R35). -/
  result1 : Word
  /-- Host memory (R50). -/
  mem : Memory
  /-- MODEL'S OWN: how many random bytes have been drawn (R9; log entry 5). -/
  draws : Nat
  /-- MODEL'S OWN: the host events to come, oldest first (R5, R38, R62; log entry 3). -/
  pending : List HostEvent
  /-- MODEL'S OWN: the value the last host read returned (R85; log entry 4). -/
  lastRead : Word
deriving DecidableEq, Repr

/-- The engine never stops: every command ends with STATUS written (R201, R204), every window access has an effect or is
refused without one (R37, R58), and every host address exists (R50). So there is no fault, and none can be raised. -/
inductive Fault where
deriving DecidableEq, Repr

/-- A refusal of the model. -/
inductive Refusal where
  /-- Raised only by an arm of `exec` whose instruction has no meaning yet (safe: the machine stops). No arm raises it. -/
  | notModelled (mnemonic : String)
deriving DecidableEq, Repr

/-- The state after a reset of the instance `p` (R220) with host memory `mem` left as it stands (R221). -/
def State.resetOf (p : Params) (mem : Memory) (drawn : Nat) (pending : List HostEvent) (lastRead : Word) : State :=
  { params := p
    cfg := resetCfg p drawn
    slots := List.replicate p.numSlots (freshSlot p)
    args := zeroArgs
    err := 0
    result0 := 0
    result1 := 0
    mem := mem
    draws := drawn + p.defaultKeyBits / 8 + p.defaultBlockBits / 8
    pending := pending
    lastRead := lastRead }

/-- The machine right after the first reset (R220): no host event is waiting and host memory lists nothing (log entries 3,
4, 5, 8). -/
def State.reset : State := State.resetOf resetParams [] 0 [] 0

end Sys2Proof.Machine
end

