-- ==== Sys2Proof/Machine/Flags.lean ====
section
/-! DEFINITION. The codes and words a host reads: the field encodings of 30_encoding.md R80 to R82, the error codes of
60_exceptions.md R200, and the words of ID, PARAMS, STATUS and QUERY (10_state.md R30, R31, R34; 42_streaming.md R162). -/

namespace Sys2Proof.Machine

/-- The mode encoding (R80). -/
def modeCode : Mode → BitVec 4
  | .cbc => 1
  | .ecb => 2
  | .ofb => 3
  | .cfb => 4

/-- The mode a value of SETMODE names; every other value is reserved (R80, R170). -/
def modeOfValue (v : Int) : Option Mode :=
  if v = 1 then some .cbc
  else if v = 2 then some .ecb
  else if v = 3 then some .ofb
  else if v = 4 then some .cfb
  else none

/-- The padding encoding (R81). -/
def paddingCode : Padding → BitVec 4
  | .nopad => 1
  | .pkcs7 => 2
  | .zeros => 3
  | .ansix923 => 4
  | .iso10126 => 5

/-- The padding a value of SETPADDING names; every other value is reserved (R81, R171). -/
def paddingOfValue (v : Int) : Option Padding :=
  if v = 1 then some .nopad
  else if v = 2 then some .pkcs7
  else if v = 3 then some .zeros
  else if v = 4 then some .ansix923
  else if v = 5 then some .iso10126
  else none

/-- The 4-bit mode field of a slot: 0 when no transform was ever created there (R42). -/
def slotModeField : Option Mode → BitVec 4
  | none => 0
  | some m => modeCode m

/-- The 4-bit padding field of a slot: 0 when no transform was ever created there (R42). -/
def slotPaddingField : Option Padding → BitVec 4
  | none => 0
  | some p => paddingCode p

/-- The slot state encoding (R40, R82). -/
def slotStateCode : SlotState → BitVec 2
  | .cleared => 0
  | .active => 1
  | .finalized => 2

/-- The direction encoding (R41, R82). -/
def directionCode : Direction → BitVec 1
  | .encrypt => 0
  | .decrypt => 1

/-- The code of an error kind in STATUS.ERR (R200). -/
def errorCode : ErrorKind → BitVec 8
  | .argumentNull => 1
  | .argumentRange => 2
  | .argumentOverflow => 3
  | .invalidKeySize => 4
  | .invalidIVSize => 5
  | .invalidBlockSize => 6
  | .invalidFeedbackSize => 7
  | .weakKey => 8
  | .invalidDataLength => 9
  | .invalidPadding => 10
  | .feedbackSizeUnsupported => 11
  | .objectDisposed => 12
  | .invalidOperation => 13
  | .invalidInputLength => 14
  | .illegalCommand => 15
  | .busError => 16

/-- The constant of the ID register (R30). -/
def idWord : Word := 0x534D4507#32

/-- The `ALG` code of PARAMS[15:12] (R31). -/
def algCode : Alg → Nat
  | .des => 1
  | .tripleDes => 2
  | .rc2 => 3
  | .rijndael => 4
  | .other => 15

/-- The PARAMS register: NUM_SLOTS in [8:0], ALG in [15:12], every other bit 0 (R31). -/
def paramsWord (p : Params) : Word :=
  BitVec.ofNat 16 0 ++ BitVec.ofNat 4 (algCode p.alg) ++ BitVec.ofNat 3 0 ++ BitVec.ofNat 9 p.numSlots

/-- The STATUS register: ERR in [7:0], every other bit 0 (R34). -/
def statusWord (err : BitVec 8) : Word := err.zeroExtend 32

/-- QUERY's RESULT0 (R162): `zext(st) | dir << 8 | mode << 16 | padding << 24`. -/
def queryStateWord (sl : Slot) : Word :=
  (slotStateCode sl.st).zeroExtend 32 ||| ((directionCode sl.dir).zeroExtend 32 <<< 8) |||
    ((slotModeField sl.mode).zeroExtend 32 <<< 16) ||| ((slotPaddingField sl.padding).zeroExtend 32 <<< 24)

/-- QUERY's RESULT1 (R162): `u | u << 16`, as a 32-bit word (for a segment of 65536 bytes or more see log entry 13). -/
def querySizeWord (u : Nat) : Word :=
  BitVec.ofNat 32 u ||| (BitVec.ofNat 32 u <<< 16)

end Sys2Proof.Machine
end

