-- ==== Sys2Proof/Machine/Ops.lean ====
section
/-! DEFINITION. The named operations every command uses: host memory (20_memory.md R50, R54, R55), the register window
(30_encoding.md R70), the slots (10_state.md R47), raising an error and completing (60_exceptions.md R201), reset (R220). -/

namespace Sys2Proof.Machine

/-! ### Host memory (R50, R54) -/

/-- The byte at a host address. -/
def readByte : Memory → Nat → Byte
  | [], _ => blankByte
  | c :: m, a => if c.1 = a then c.2 else readByte m a

/-- Put a cell in front, unless it holds what an unlisted byte reads as. -/
def consCell (a : Nat) (v : Byte) (m : Memory) : Memory :=
  if v = blankByte then m else (a, v) :: m

/-- Store a byte at a host address, keeping the canonical form. -/
def writeByte : Memory → Nat → Byte → Memory
  | [], a, v => consCell a v []
  | c :: m, a, v =>
    if a < c.1 then consCell a v (c :: m)
    else if a = c.1 then consCell a v m
    else c :: writeByte m a v

/-- `MemRead(addr, n)` (R13): the `n` bytes at `addr … addr+n-1`, byte `i` from address `addr + i` (R54). -/
def memRead (m : Memory) (addr n : Nat) : Bytes :=
  (List.range n).map fun i => readByte m (addr + i)

/-- `MemWrite(addr, len(v), v)` (R13): byte `i` of `v` to address `addr + i` (R54). -/
def memWrite (m : Memory) (addr : Nat) : Bytes → Memory
  | [] => m
  | b :: v => memWrite (writeByte m addr b) (addr + 1) v

/-- The canonical form: addresses strictly rising and below 2^32, no cell equal to what an unlisted byte reads as. -/
def Memory.wf (m : Memory) : Bool :=
  decide (m.Pairwise fun c d => c.1 < d.1) && m.all fun c => decide (c.1 < 2 ^ 32) && decide (c.2 ≠ blankByte)

/-- R55: every byte of `addr … addr+n-1` is admitted for the access. -/
def admitsRange (p : Params) (kind : AccessKind) (addr n : Nat) : Bool :=
  (List.range n).all fun i => admits p kind (addr + i)

/-! ### Slots (R47) -/

/-- Slot `n`; a number past the end of the list, which `Safety`'s invariant rules out for `n < NUM_SLOTS`, reads as a slot
never created (log entry 15). -/
def getSlot (s : State) (n : Nat) : Slot :=
  s.slots.getD n (freshSlot s.params)

/-- Replace slot `n` and no other (R47). -/
def setSlot (s : State) (n : Nat) (sl : Slot) : State :=
  { s with slots := s.slots.set n sl }

/-- The slot's mode and padding if it is Active, else nothing. An Active slot always has both (R42, R121): one that has not
is no live transform (log entry 11). -/
def liveTransform (sl : Slot) : Option (Mode × Padding) :=
  match sl.st, sl.mode, sl.padding with
  | .active, some m, some p => some (m, p)
  | _, _, _ => none

/-- What a slot keeps when it leaves Active (R42, R44, R45, R46): its secrets become zeros of the same length. -/
def erasedSlot (sl : Slot) (st : SlotState) : Slot :=
  { sl with st := st, key := zeros sl.key.length, chain := zeros sl.chain.length, ibuf := [] }

/-! ### Ending a command (R201) -/

/-- What a command that completes without error leaves: its new state, STATUS and RESULT aside, and its RESULT values. -/
structure Completed where
  state : State
  r0 : Word
  r1 : Word

/-- A command's outcome before it is reported: an error kind, or what it commits (R60, R201). -/
abbrev Result := Except ErrorKind Completed

/-- `raise E` (R201): only STATUS.ERR, RESULT0 and RESULT1 are written. This is the whole of the machine's exception entry:
there is no trap, no saved state and no return (R204). -/
def raise (e : ErrorKind) (s : State) : State :=
  { s with err := errorCode e, result0 := 0, result1 := 0 }

/-- Completion without error (R201): STATUS.ERR is 0 and RESULT0, RESULT1 get the command's values. -/
def complete (c : Completed) : State :=
  { c.state with err := 0, result0 := c.r0, result1 := c.r1 }

/-- Report a command's outcome (R201). An error is raised over the state before the command, so nothing it did stays. -/
def report (s : State) : Result → Host.Outcome State Fault Refusal
  | .error e => .next (raise e s)
  | .ok c => .next (complete c)

/-! ### Reset (R220) -/

/-- The platform resets the engine: every field of the engine at its reset value, with fresh draws; host memory stays (R221). -/
def platformReset (s : State) : State :=
  State.resetOf s.params s.mem s.draws s.pending s.lastRead

/-! ### The register window (R70) -/

/-- The value a window register reads as (R30 to R37, R70); a reserved offset reads 0 (R37), and so does CMD (R33). -/
def readRegister (s : State) (offset : BitVec 12) : Word :=
  match offset.toNat with
  | 0x000 => idWord
  | 0x004 => paramsWord s.params
  | 0x008 => statusWord s.err
  | 0x010 => s.args.arg0
  | 0x014 => s.args.arg1
  | 0x018 => s.args.arg2
  | 0x01C => s.args.arg3
  | 0x020 => s.args.arg4
  | 0x024 => s.args.arg5
  | 0x028 => s.args.arg6
  | 0x02C => s.args.arg7
  | 0x030 => s.result0
  | 0x034 => s.result1
  | 0x038 => (modeCode s.cfg.mode).zeroExtend 32
  | 0x03C => (paddingCode s.cfg.padding).zeroExtend 32
  | 0x040 => s.cfg.blockBits
  | 0x044 => s.cfg.keyBits
  | 0x048 => s.cfg.feedbackBits
  | _ => 0

/-- A host write to a window register other than CMD: ARG0 to ARG7 take the word (R32), every other write is ignored (R30,
R31, R34 to R37). -/
def writeRegister (s : State) (offset : BitVec 12) (v : Word) : State :=
  match offset.toNat with
  | 0x010 => { s with args := { s.args with arg0 := v } }
  | 0x014 => { s with args := { s.args with arg1 := v } }
  | 0x018 => { s with args := { s.args with arg2 := v } }
  | 0x01C => { s with args := { s.args with arg3 := v } }
  | 0x020 => { s with args := { s.args with arg4 := v } }
  | 0x024 => { s with args := { s.args with arg5 := v } }
  | 0x028 => { s with args := { s.args with arg6 := v } }
  | 0x02C => { s with args := { s.args with arg7 := v } }
  | _ => s

/-- The offset of CMD (R70). -/
def cmdOffset : BitVec 12 := 0x00C#12

/-- R58: the window takes aligned 32-bit accesses only. -/
def windowAccepts (offset : BitVec 12) (width : Nat) : Bool :=
  decide (width = 32) && decide (offset.toNat % 4 = 0)

end Sys2Proof.Machine
end

