-- ==== Sys2Proof/Machine/Operands.lean ====
section
/-! DEFINITION. The operand forms of the commands: ARG words as addresses and signed integers (00_scope.md R11, 30_encoding.md
R75, R76), buffer operands and sub-ranges (20_memory.md R52, R53), the FT operands (42_streaming.md R140), slot selection
(R141), and the explicit key and IV of creation (43_config.md R180). -/

namespace Sys2Proof.Machine

/-- `u32(w)` (R11). -/
def u32 (w : Word) : Nat := w.toNat

/-- `s32(w)` (R11). -/
def s32 (w : Word) : Int := w.toInt

/-- The scalar operand of a format FS command: `s32(ARG0)` (R75). -/
def scalarOperand (s : State) : Int := s32 s.args.arg0

/-- A buffer's bytes `addr … addr+len-1` (R52). -/
structure Buffer where
  addr : Nat
  len : Nat
deriving DecidableEq, Repr

/-- A buffer operand that is not null: its length, then its wrap, checked in R52's order. -/
def bufferRange (addr len : Word) : Except ErrorKind Buffer :=
  if s32 len < 0 then .error .argumentRange
  else if (u32 addr : Int) + s32 len > 2 ^ 32 then .error .argumentOverflow
  else .ok ⟨u32 addr, (s32 len).toNat⟩

/-- A buffer operand with its null flag (R52). -/
def bufferOperand (null : Bool) (addr len : Word) : Except ErrorKind Buffer :=
  if null then .error .argumentNull else bufferRange addr len

/-- The buffer of a format FB command (R75). -/
def fbBuffer (n0 : Bool) (s : State) : Except ErrorKind Buffer :=
  bufferOperand n0 s.args.arg0 s.args.arg1

/-- R141: slot `n` exists. -/
def slotExists (s : State) (n : Nat) : Bool := decide (n < s.params.numSlots)

/-- The operands of TBLOCK and TFINAL once checked (R140): the address and count of the input range, and the output buffer
with its offset. -/
structure TransformOperands where
  /-- `inA + inOff`. -/
  inAddr : Nat
  /-- `inCount`. -/
  inCount : Nat
  /-- `outA`. -/
  outA : Nat
  /-- `outL`. -/
  outL : Nat
  /-- `outOff`. -/
  outOff : Nat
deriving DecidableEq, Repr

/-- R140: the checks (a) to (g), in that order. -/
def transformOperands (n0 n1 : Bool) (s : State) : Except ErrorKind TransformOperands :=
  if n0 then .error .argumentNull
  else if n1 then .error .argumentNull
  else if s32 s.args.arg1 < 0 ∨ s32 s.args.arg5 < 0 then .error .argumentRange
  else if s32 s.args.arg2 < 0 ∨ s32 s.args.arg3 < 0 then .error .argumentRange
  else if s32 s.args.arg6 < 0 then .error .argumentRange
  else if (u32 s.args.arg0 : Int) + s32 s.args.arg1 > 2 ^ 32 ∨ (u32 s.args.arg4 : Int) + s32 s.args.arg5 > 2 ^ 32 then
    .error .argumentOverflow
  else if s32 s.args.arg2 + s32 s.args.arg3 > s32 s.args.arg1 then .error .argumentOverflow
  else .ok
    { inAddr := u32 s.args.arg0 + (s32 s.args.arg2).toNat
      inCount := (s32 s.args.arg3).toNat
      outA := u32 s.args.arg4
      outL := (s32 s.args.arg5).toNat
      outOff := (s32 s.args.arg6).toNat }

/-- The address a transform command stores its output to: `outA + outOff` (R142, R150). -/
def outputAddress (o : TransformOperands) : Nat := o.outA + o.outOff

/-- R53 for an output range of `count` bytes: it does not fit the output buffer. -/
def outputOverflows (o : TransformOperands) (count : Nat) : Bool := decide (o.outOff + count > o.outL)

/-- R180: the explicit key range, read only when KX is 1 (R77). A null explicit key raises InvalidKeySize. -/
def explicitKey (kx n0 : Bool) (s : State) : Except ErrorKind (Option Buffer) :=
  if kx then
    if n0 then .error .invalidKeySize
    else match bufferRange s.args.arg0 s.args.arg1 with
      | .error e => .error e
      | .ok b => if legalBytes s.params.keySizes b.len then .ok (some b) else .error .invalidKeySize
  else .ok none

/-- R180: the explicit IV range, read only when IX is 1 (R77). A null explicit IV raises InvalidIVSize. -/
def explicitIV (ix n1 : Bool) (s : State) : Except ErrorKind (Option Buffer) :=
  if ix then
    if n1 then .error .invalidIVSize
    else match bufferRange s.args.arg2 s.args.arg3 with
      | .error e => .error e
      | .ok b => if b.len = s.cfg.blockBits.toNat / 8 then .ok (some b) else .error .invalidIVSize
  else .ok none

/-- Read admission of an operand that may be absent (R55, R180). -/
def operandAdmitted (s : State) : Option Buffer → Bool
  | none => true
  | some b => admitsRange s.params .read b.addr b.len

/-- The bytes of an operand, or the configuration's where it is absent (R180). -/
def operandOr (s : State) (default : Bytes) : Option Buffer → Bytes
  | none => default
  | some b => memRead s.mem b.addr b.len

end Sys2Proof.Machine
end

