-- ==== Sys2Proof/Machine/Configuration.lean ====
section
/-! DEFINITION. The configuration commands (43_config.md R170 to R179): SETMODE, SETPADDING, SETKEYSIZE, SETBLOCKSIZE,
SETFEEDBACK, SETKEY, SETIV, GETKEY, GETIV. Each outcome lists the checks in the rule's order; the first that fails is the
error reported (R202). -/

namespace Sys2Proof.Machine

/-- Replace the configuration register file. -/
def withCfg (s : State) (c : Cfg) : State := { s with cfg := c }

/-! ### SETMODE (R170) -/

/-- R170. -/
def setmodeResult (s : State) : Result :=
  match modeOfValue (scalarOperand s) with
  | none => .error .argumentRange
  | some m => .ok ⟨withCfg s { s.cfg with mode := m }, 0, 0⟩

/-- SETMODE (R170). -/
def execSetmode (s : State) : Host.Outcome State Fault Refusal := report s (setmodeResult s)

/-! ### SETPADDING (R171) -/

/-- R171. -/
def setpaddingResult (s : State) : Result :=
  match paddingOfValue (scalarOperand s) with
  | none => .error .argumentRange
  | some p => .ok ⟨withCfg s { s.cfg with padding := p }, 0, 0⟩

/-- SETPADDING (R171). -/
def execSetpadding (s : State) : Host.Outcome State Fault Refusal := report s (setpaddingResult s)

/-! ### SETKEYSIZE (R172) -/

/-- R172: a legal size always draws a new key, also when it is the current size (D44). -/
def setkeysizeResult (ext : Externals) (s : State) : Result :=
  if legal s.params.keySizes (scalarOperand s) then
    .ok
      ⟨{ s with
          cfg := { s.cfg with
            key := ext.drawKey s.draws (scalarOperand s / 8).toNat
            keyBits := BitVec.ofInt 32 (scalarOperand s) }
          draws := s.draws + (scalarOperand s / 8).toNat }, 0, 0⟩
  else .error .invalidKeySize

/-- SETKEYSIZE (R172). -/
def execSetkeysize (s : State) : Host.Outcome State Fault Refusal :=
  report s (setkeysizeResult (externals s.params) s)

/-! ### SETBLOCKSIZE (R173) -/

/-- R173: the IV is redrawn only when the size changes. -/
def setblocksizeResult (ext : Externals) (s : State) : Result :=
  if legal s.params.blockSizes (scalarOperand s) then
    if scalarOperand s = (s.cfg.blockBits.toNat : Int) then .ok ⟨s, 0, 0⟩
    else
      .ok
        ⟨{ s with
            cfg := { s.cfg with
              blockBits := BitVec.ofInt 32 (scalarOperand s)
              iv := ext.drawBytes s.draws (scalarOperand s / 8).toNat }
            draws := s.draws + (scalarOperand s / 8).toNat }, 0, 0⟩
  else .error .invalidBlockSize

/-- SETBLOCKSIZE (R173). -/
def execSetblocksize (s : State) : Host.Outcome State Fault Refusal :=
  report s (setblocksizeResult (externals s.params) s)

/-! ### SETFEEDBACK (R174) -/

/-- R174. -/
def setfeedbackResult (s : State) : Result :=
  if scalarOperand s < 1 ∨ scalarOperand s > (s.cfg.blockBits.toNat : Int) then .error .invalidFeedbackSize
  else .ok ⟨withCfg s { s.cfg with feedbackBits := BitVec.ofInt 32 (scalarOperand s) }, 0, 0⟩

/-- SETFEEDBACK (R174). -/
def execSetfeedback (s : State) : Host.Outcome State Fault Refusal := report s (setfeedbackResult s)

/-! ### SETKEY (R175) -/

/-- R175: the buffer, the size, admission, then the weak-key check on the bytes read. -/
def setkeyResult (ext : Externals) (n0 : Bool) (s : State) : Result :=
  match fbBuffer n0 s with
  | .error e => .error e
  | .ok b =>
    if !legalBytes s.params.keySizes b.len then .error .invalidKeySize
    else if !admitsRange s.params .read b.addr b.len then .error .busError
    else if ext.isWeak (memRead s.mem b.addr b.len) then .error .weakKey
    else
      .ok
        ⟨withCfg s { s.cfg with key := memRead s.mem b.addr b.len, keyBits := BitVec.ofNat 32 (8 * b.len) }, 0, 0⟩

/-- SETKEY (R175). -/
def execSetkey (n0 : Bool) (s : State) : Host.Outcome State Fault Refusal :=
  report s (setkeyResult (externals s.params) n0 s)

/-! ### SETIV (R176) -/

/-- R176: the length is checked whatever the mode (C8). -/
def setivResult (n0 : Bool) (s : State) : Result :=
  match fbBuffer n0 s with
  | .error e => .error e
  | .ok b =>
    if b.len ≠ s.cfg.blockBits.toNat / 8 then .error .invalidIVSize
    else if !admitsRange s.params .read b.addr b.len then .error .busError
    else .ok ⟨withCfg s { s.cfg with iv := memRead s.mem b.addr b.len }, 0, 0⟩

/-- SETIV (R176). -/
def execSetiv (n0 : Bool) (s : State) : Host.Outcome State Fault Refusal := report s (setivResult n0 s)

/-! ### GETKEY (R177) and GETIV (R178) -/

/-- Copy a byte string to the start of the buffer operand and answer its length (R177, R178). -/
def copyOut (data : Bytes) (n0 : Bool) (s : State) : Result :=
  match fbBuffer n0 s with
  | .error e => .error e
  | .ok b =>
    if data.length > b.len then .error .argumentOverflow
    else if !admitsRange s.params .write b.addr data.length then .error .busError
    else .ok ⟨{ s with mem := memWrite s.mem b.addr data }, BitVec.ofNat 32 data.length, 0⟩

/-- GETKEY (R177). -/
def execGetkey (n0 : Bool) (s : State) : Host.Outcome State Fault Refusal := report s (copyOut s.cfg.key n0 s)

/-- GETIV (R178). -/
def execGetiv (n0 : Bool) (s : State) : Host.Outcome State Fault Refusal := report s (copyOut s.cfg.iv n0 s)

end Sys2Proof.Machine
end

