-- ==== Sys2Proof/Machine/ModeEngine.lean ====
section
/-! DEFINITION. The mode-of-operation engine (41_mode_engine.md R120 to R131): pure functions `Step` and `Run`. -/

namespace Sys2Proof.Machine

/-- `X ⊕ Y`, byte-wise (R12). -/
def xorBytes (X Y : Bytes) : Bytes := List.zipWith (fun x y => x ^^^ y) X Y

/-- The segment size `u` in bytes (R122): `s/8` in CFB, `B` in the other modes. -/
def segmentSize (m : Mode) (blockBits fbBits : Nat) : Nat :=
  match m with
  | .cbc => blockBits / 8
  | .ecb => blockBits / 8
  | .ofb => blockBits / 8
  | .cfb => fbBits / 8

/-- `(register << s) | seg` on the byte string of the register (R127): the first `u` bytes leave, `seg` fills the end. -/
def shiftIn (register seg : Bytes) (u : Nat) : Bytes := register.drop u ++ seg

/-- `Step(mode, dir, K, c, x)` (R120, R121): the output segment and the new chaining register. In CFB `u` is the length of the
segment `x` (R126, R128). -/
def modeStep (ext : Externals) (m : Mode) (dir : Direction) (K c x : Bytes) : Bytes × Bytes :=
  match m, dir with
  | .ecb, .encrypt => (ext.enc K x, c)
  | .ecb, .decrypt => (ext.dec K x, c)
  | .cbc, .encrypt => (ext.enc K (xorBytes x c), ext.enc K (xorBytes x c))
  | .cbc, .decrypt => (xorBytes (ext.dec K x) c, x)
  | .cfb, .encrypt =>
    (xorBytes x ((ext.enc K c).take x.length), shiftIn c (xorBytes x ((ext.enc K c).take x.length)) x.length)
  | .cfb, .decrypt => (xorBytes x ((ext.enc K c).take x.length), shiftIn c x x.length)
  | .ofb, .encrypt => (xorBytes x (ext.enc K c), ext.enc K c)
  | .ofb, .decrypt => (xorBytes x (ext.enc K c), ext.enc K c)

/-- The loop of R130 over `k` segments of `u` bytes. -/
def runSegments (ext : Externals) (m : Mode) (dir : Direction) (K : Bytes) (u : Nat) : Nat → Bytes → Bytes → Bytes × Bytes
  | 0, c, _ => ([], c)
  | k + 1, c, X =>
    match modeStep ext m dir K c (X.take u) with
    | (y, c1) =>
      match runSegments ext m dir K u k c1 (X.drop u) with
      | (Y, c2) => (y ++ Y, c2)

/-- `Run(mode, dir, K, c0, X)` over the segments of `u` bytes of `X` (R130): the output and the final chaining register. -/
def runMode (ext : Externals) (m : Mode) (dir : Direction) (K : Bytes) (u : Nat) (c0 X : Bytes) : Bytes × Bytes :=
  runSegments ext m dir K u (X.length / u) c0 X

end Sys2Proof.Machine
end

