-- ==== Sys2Proof/Machine/Creation.lean ====
section
/-! DEFINITION. Creating transforms (43_config.md R180 to R182): CRENC and CRDEC. -/

namespace Sys2Proof.Machine

/-- A padding whose count is stored in one byte (R107 (b)). -/
def countedPadding : Padding → Bool
  | .nopad => false
  | .pkcs7 => true
  | .zeros => false
  | .ansix923 => true
  | .iso10126 => true

/-- R180's checks of the configuration: the feedback size in CFB, then the block size under a counted padding (R107). -/
def creationCheck (s : State) : Except ErrorKind Unit :=
  if s.cfg.mode = .cfb ∧ s.cfg.feedbackBits.toNat > s.cfg.blockBits.toNat then .error .invalidFeedbackSize
  else if s.cfg.mode = .cfb ∧ supportedCfb s.params s.cfg.blockBits.toNat s.cfg.feedbackBits.toNat = false then
    .error .feedbackSizeUnsupported
  else if countedPadding s.cfg.padding ∧ s.cfg.blockBits.toNat / 8 > 255 then .error .invalidBlockSize
  else .ok ()

/-- The slot R180 creates: Active, with a snapshot of the configuration and the given key and IV (R27, R42 to R46). -/
def createdSlot (c : Cfg) (dir : Direction) (K IV : Bytes) : Slot :=
  { st := .active
    dir := dir
    mode := some c.mode
    padding := some c.padding
    blockBits := c.blockBits
    fbBits := c.feedbackBits
    u := segmentSize c.mode c.blockBits.toNat c.feedbackBits.toNat
    key := K
    chain := IV
    ibuf := [] }

/-- R180: slot, explicit key, explicit IV, configuration, admission, weakness of an explicit key, in that order. -/
def creationResult (ext : Externals) (dir : Direction) (slot : Nat) (n0 n1 kx ix : Bool) (s : State) : Result :=
  if !slotExists s slot then .error .argumentRange
  else match explicitKey kx n0 s with
    | .error e => .error e
    | .ok kb =>
      match explicitIV ix n1 s with
      | .error e => .error e
      | .ok ib =>
        match creationCheck s with
        | .error e => .error e
        | .ok _ =>
          if !operandAdmitted s kb then .error .busError
          else if !operandAdmitted s ib then .error .busError
          else if kx && ext.isWeak (operandOr s s.cfg.key kb) then .error .weakKey
          else
            .ok
              ⟨setSlot s slot (createdSlot s.cfg dir (operandOr s s.cfg.key kb) (operandOr s s.cfg.iv ib)), 0, 0⟩

/-- CRENC (R180). -/
def execCrenc (slot : Nat) (n0 n1 kx ix : Bool) (s : State) : Host.Outcome State Fault Refusal :=
  report s (creationResult (externals s.params) .encrypt slot n0 n1 kx ix s)

/-- CRDEC (R180). -/
def execCrdec (slot : Nat) (n0 n1 kx ix : Bool) (s : State) : Host.Outcome State Fault Refusal :=
  report s (creationResult (externals s.params) .decrypt slot n0 n1 kx ix s)

end Sys2Proof.Machine
end

