-- ==== Sys2Proof/Machine/Padding.lean ====
section
/-! DEFINITION. The padding codec (40_padding.md R100 to R108): pure functions `Pad` and `Unpad`. -/

namespace Sys2Proof.Machine

/-- The pad count `n = P − (L mod P)` (R101). -/
def padCount (L P : Nat) : Nat := P - L % P

/-- The number of zeros Zeros adds: `(P − (L mod P)) mod P` (R103). -/
def zeroCount (L P : Nat) : Nat := (P - L % P) % P

/-- How many random bytes `Pad` draws: `n − 1` under ISO10126 (R106), none under the other schemes. -/
def fillerCount (p : Padding) (L P : Nat) : Nat :=
  match p with
  | .nopad => 0
  | .pkcs7 => 0
  | .zeros => 0
  | .ansix923 => 0
  | .iso10126 => padCount L P - 1

/-- `Pad(p, D, P)` (R102 to R106). `filler` holds the `n − 1` drawn bytes of ISO10126 (R106); the others do not read it.
DESIGN CHOICE, log entry 19: a count over 255 does not fit the count byte (R101) and the spec gives Pad no value there; the
byte then holds the count modulo 256. R107 (b) keeps every transform from such a count. -/
def pad (p : Padding) (filler : Bytes) (D : Bytes) (P : Nat) : Except ErrorKind Bytes :=
  match p with
  | .nopad => if D.length % P ≠ 0 then .error .invalidDataLength else .ok D
  | .pkcs7 => .ok (D ++ rep (padCount D.length P) (BitVec.ofNat 8 (padCount D.length P)))
  | .zeros => .ok (D ++ Sys2Proof.zeros (zeroCount D.length P))
  | .ansix923 =>
    .ok (D ++ Sys2Proof.zeros (padCount D.length P - 1) ++ [BitVec.ofNat 8 (padCount D.length P)])
  | .iso10126 => .ok (D ++ filler ++ [BitVec.ofNat 8 (padCount D.length P)])

/-- The last byte of `D` as a count in `1 … P`, or InvalidPadding; of the empty string too (R104 to R107). -/
def countByte (D : Bytes) (P : Nat) : Except ErrorKind Nat :=
  match D.getLast? with
  | none => .error .invalidPadding
  | some b => if b.toNat = 0 ∨ b.toNat > P then .error .invalidPadding else .ok b.toNat

/-- `Unpad(p, D, P)` (R102 to R107). Zeros strips nothing (R103, R108). -/
def unpad (p : Padding) (D : Bytes) (P : Nat) : Except ErrorKind Bytes :=
  match p with
  | .nopad => .ok D
  | .pkcs7 =>
    match countByte D P with
    | .error e => .error e
    | .ok n =>
      if (D.drop (D.length - n)).all (fun b => decide (b = BitVec.ofNat 8 n)) then .ok (D.take (D.length - n))
      else .error .invalidPadding
  | .zeros => .ok D
  | .ansix923 =>
    match countByte D P with
    | .error e => .error e
    | .ok n =>
      if ((D.drop (D.length - n)).take (n - 1)).all (fun b => decide (b = 0)) then .ok (D.take (D.length - n))
      else .error .invalidPadding
  | .iso10126 =>
    match countByte D P with
    | .error e => .error e
    | .ok n => .ok (D.take (D.length - n))

end Sys2Proof.Machine
end

