-- ==== Sys2Proof/Machine/Streaming.lean ====
section
/-! DEFINITION. The streaming commands (42_streaming.md R140 to R164): TBLOCK, TFINAL, CLEAR, QUERY. -/

namespace Sys2Proof.Machine

/-! ### TBLOCK (R142 to R144) -/

/-- R142: slot, state, operands, whole segments, read admission, the mode engine, output range, write admission, commit. -/
def tblockResult (ext : Externals) (slot : Nat) (n0 n1 : Bool) (s : State) : Result :=
  if !slotExists s slot then .error .argumentRange
  else match liveTransform (getSlot s slot) with
    | none => .error .objectDisposed
    | some (m, _) =>
      match transformOperands n0 n1 s with
      | .error e => .error e
      | .ok o =>
        if o.inCount % (getSlot s slot).u ≠ 0 then .error .invalidInputLength
        else if !admitsRange s.params .read o.inAddr o.inCount then .error .busError
        else
          match runMode ext m (getSlot s slot).dir (getSlot s slot).key (getSlot s slot).u (getSlot s slot).chain
              (memRead s.mem o.inAddr o.inCount) with
          | (Y, c') =>
            if outputOverflows o o.inCount then .error .argumentOverflow
            else if !admitsRange s.params .write (outputAddress o) o.inCount then .error .busError
            else
              .ok
                ⟨{ setSlot s slot { getSlot s slot with chain := c' } with mem := memWrite s.mem (outputAddress o) Y },
                  BitVec.ofNat 32 o.inCount, 0⟩

/-- TBLOCK (R142). -/
def execTblock (slot : Nat) (n0 n1 : Bool) (s : State) : Host.Outcome State Fault Refusal :=
  report s (tblockResult (externals s.params) slot n0 n1 s)

/-! ### TFINAL (R150 to R155) -/

/-- The block size `B` of a slot in bytes (R14). -/
def blockBytes (sl : Slot) : Nat := sl.blockBits.toNat / 8

/-- `FinalEncrypt(S, D)` (R151), with the filler drawn for ISO10126 (R106). The final chaining register is not kept. -/
def finalEncrypt (ext : Externals) (m : Mode) (p : Padding) (sl : Slot) (filler D : Bytes) : Except ErrorKind Bytes :=
  match pad p filler D (blockBytes sl) with
  | .error e => .error e
  | .ok Dp => .ok (runMode ext m .encrypt sl.key sl.u sl.chain Dp).1

/-- `FinalDecrypt(S, D)` (R152). -/
def finalDecrypt (ext : Externals) (m : Mode) (p : Padding) (sl : Slot) (D : Bytes) : Except ErrorKind Bytes :=
  unpad p (runMode ext m .decrypt sl.key sl.u sl.chain D).1 (blockBytes sl)

/-- How many bytes a TFINAL of `L` bytes draws: an encryptor's ISO10126 filler (R9, R106). -/
def finalDraws (p : Padding) (sl : Slot) (L : Nat) : Nat :=
  match sl.dir with
  | .encrypt => fillerCount p L (blockBytes sl)
  | .decrypt => 0

/-- The bytes a TFINAL over the data `D` writes (R150): `FinalEncrypt` or `FinalDecrypt` by the slot's direction. -/
def finalBytes (ext : Externals) (m : Mode) (p : Padding) (sl : Slot) (drawn : Nat) (D : Bytes) : Except ErrorKind Bytes :=
  match sl.dir with
  | .encrypt => finalEncrypt ext m p sl (ext.drawBytes drawn (finalDraws p sl D.length)) D
  | .decrypt => finalDecrypt ext m p sl D

/-- R150's phase 2 check of the final length `L`: an encryptor without padding and every decryptor need whole blocks (R102,
R153). -/
def finalLengthBad (p : Padding) (sl : Slot) (L : Nat) : Bool :=
  match sl.dir with
  | .encrypt => decide (p = .nopad) && decide (L % blockBytes sl ≠ 0)
  | .decrypt => decide (L % blockBytes sl ≠ 0)

/-- R150: slot, state, operands, length, read admission, the final bytes, output range, write admission, commit. -/
def tfinalResult (ext : Externals) (slot : Nat) (n0 n1 : Bool) (s : State) : Result :=
  if !slotExists s slot then .error .argumentRange
  else match liveTransform (getSlot s slot) with
    | none => .error .objectDisposed
    | some (m, p) =>
      match transformOperands n0 n1 s with
      | .error e => .error e
      | .ok o =>
        if finalLengthBad p (getSlot s slot) ((getSlot s slot).ibuf.length + o.inCount) then .error .invalidDataLength
        else if !admitsRange s.params .read o.inAddr o.inCount then .error .busError
        else
          match finalBytes ext m p (getSlot s slot) s.draws
              ((getSlot s slot).ibuf ++ memRead s.mem o.inAddr o.inCount) with
          | .error e => .error e
          | .ok Z =>
            if outputOverflows o Z.length then .error .argumentOverflow
            else if !admitsRange s.params .write (outputAddress o) Z.length then .error .busError
            else
              .ok
                ⟨{ setSlot s slot (erasedSlot (getSlot s slot) .finalized) with
                    mem := memWrite s.mem (outputAddress o) Z
                    draws := s.draws +
                      finalDraws p (getSlot s slot) ((getSlot s slot).ibuf.length + o.inCount) },
                  BitVec.ofNat 32 Z.length, 0⟩

/-- TFINAL (R150). -/
def execTfinal (slot : Nat) (n0 n1 : Bool) (s : State) : Host.Outcome State Fault Refusal :=
  report s (tfinalResult (externals s.params) slot n0 n1 s)

/-! ### CLEAR (R160) and QUERY (R162) -/

/-- R160: from every state of the slot. -/
def clearResult (slot : Nat) (s : State) : Result :=
  if slotExists s slot then .ok ⟨setSlot s slot (erasedSlot (getSlot s slot) .cleared), 0, 0⟩
  else .error .argumentRange

/-- CLEAR (R160). -/
def execClear (slot : Nat) (s : State) : Host.Outcome State Fault Refusal := report s (clearResult slot s)

/-- R162: from every state of the slot; nothing but STATUS and RESULT is written. -/
def queryResult (slot : Nat) (s : State) : Result :=
  if slotExists s slot then .ok ⟨s, queryStateWord (getSlot s slot), querySizeWord (getSlot s slot).u⟩
  else .error .argumentRange

/-- QUERY (R162). -/
def execQuery (slot : Nat) (s : State) : Host.Outcome State Fault Refusal := report s (queryResult slot s)

end Sys2Proof.Machine
end

