-- ==== Sys2Proof/Machine/Dispatch.lean ====
section
/-! DEFINITION. The meaning of each command, one arm per constructor (30_encoding.md R73). -/

namespace Sys2Proof.Machine

def exec (i : Instr) (s : State) : Host.Outcome State Fault Refusal :=
  match i with
  | .setmode => Sys2Proof.Machine.execSetmode s
  | .setpadding => Sys2Proof.Machine.execSetpadding s
  | .setkeysize => Sys2Proof.Machine.execSetkeysize s
  | .setblocksize => Sys2Proof.Machine.execSetblocksize s
  | .setfeedback => Sys2Proof.Machine.execSetfeedback s
  | .setkey n0 => Sys2Proof.Machine.execSetkey n0 s
  | .setiv n0 => Sys2Proof.Machine.execSetiv n0 s
  | .getkey n0 => Sys2Proof.Machine.execGetkey n0 s
  | .getiv n0 => Sys2Proof.Machine.execGetiv n0 s
  | .crenc slot n0 n1 kx ix => Sys2Proof.Machine.execCrenc slot n0 n1 kx ix s
  | .crdec slot n0 n1 kx ix => Sys2Proof.Machine.execCrdec slot n0 n1 kx ix s
  | .tblock slot n0 n1 => Sys2Proof.Machine.execTblock slot n0 n1 s
  | .tfinal slot n0 n1 => Sys2Proof.Machine.execTfinal slot n0 n1 s
  | .clear slot => Sys2Proof.Machine.execClear slot s
  | .query slot => Sys2Proof.Machine.execQuery slot s

end Sys2Proof.Machine
end

