-- ==== Sys2Proof/Machine/Window.lean ====
section
/-! DEFINITION. What a host event does: window accesses (20_memory.md R58, 30_encoding.md R70, R72), host memory accesses,
reset (70_reset_and_hazards.md R220). -/

namespace Sys2Proof.Machine

/-- A write of `w` to CMD (R33, R72): the command `w` is executed; a word that is no command raises IllegalCommand. -/
def runCommand (s : State) (w : Word) : Host.Outcome State Fault Refusal :=
  match decode w with
  | .ok i => exec i s
  | .error _ => .next (raise .illegalCommand s)

/-- A host write to the window: refused without effect unless it is an aligned 32-bit access (R58). -/
def windowWrite (s : State) (offset : BitVec 12) (width : Nat) (v : Word) : Host.Outcome State Fault Refusal :=
  if windowAccepts offset width then
    if offset = cmdOffset then runCommand s v else .next (writeRegister s offset v)
  else .next s

/-- A host read of the window: the register's value, or 0 where the access is refused (R58). -/
def windowRead (s : State) (offset : BitVec 12) (width : Nat) : State :=
  { s with lastRead := if windowAccepts offset width then readRegister s offset else 0 }

/-- A host stores a byte. At an address of the window this is an 8-bit window access, refused without effect (R51, R58). -/
def hostStore (s : State) (a : Word) (v : Byte) : State :=
  if inWindow s.params a.toNat then s else { s with mem := writeByte s.mem a.toNat v }

/-- A host loads a byte. At an address of the window this is an 8-bit window access, which returns 0 (R51, R58). -/
def hostLoad (s : State) (a : Word) : State :=
  { s with lastRead := if inWindow s.params a.toNat then 0 else (readByte s.mem a.toNat).zeroExtend 32 }

/-- A reset that arrives while the command `w` is in progress (R220): it follows the command's commit, or discards the command
entirely, so that nothing of the command is left anywhere. -/
def resetDuringCommand (s : State) (w : Word) : Bool → Host.Outcome State Fault Refusal
  | true =>
    match runCommand s w with
    | .next t => .next (platformReset t)
    | .fault f => .fault f
    | .refused r => .refused r
  | false => .next (platformReset s)

/-- What one host event does to the engine and to host memory. -/
def takeEvent (s : State) : HostEvent → Host.Outcome State Fault Refusal
  | .windowWrite offset width value => windowWrite s offset width value
  | .windowRead offset width => .next (windowRead s offset width)
  | .memStore address value => .next (hostStore s address value)
  | .memLoad address => .next (hostLoad s address)
  | .reset => .next (platformReset s)
  | .resetDuring command commits => resetDuringCommand s command commits

/-- The oldest waiting host event is taken; with none waiting the engine holds its state (R212). -/
def nextEvent (s : State) : Host.Outcome State Fault Refusal :=
  match s.pending with
  | [] => .next s
  | e :: rest => takeEvent { s with pending := rest } e

/-- The host event that writes `w` to CMD: how a command reaches the engine (R33, R38). -/
def commandEvent (w : Word) : HostEvent := .windowWrite cmdOffset 32 w

end Sys2Proof.Machine
end

