-- ==== Sys2Proof/Machine/Step.lean ====
section
/-! DEFINITION. One step of the machine, and how a command word is put where the next step takes it from. -/

namespace Sys2Proof.Machine

/-- One step: the next host event is taken (00_scope.md R5, 20_memory.md R61). -/
def step (s : State) : Host.Outcome State Fault Refusal := nextEvent s

/-- `s` with a host write of the word `w` (of `nbits` bits, the bits above them 0) to CMD as the event that comes next. -/
def State.withFetchWord (s : State) (nbits w : Nat) : State :=
  { s with pending := commandEvent (BitVec.ofNat 32 (w % 2 ^ nbits)) :: s.pending }

end Sys2Proof.Machine
end

