-- ==== Sys2Proof/Safety.lean ====
section
/-! DEFINITION. What holds of every state a run reaches (10_state.md R20 to R46, R161, R222): the invariant claims are made
under, in the terms the rules use. -/

namespace Sys2Proof.Machine

/-- The configuration's invariants (R20 to R24): a legal, not weak key of the length keyBits says; a legal block size; an IV of
that size in every mode (C8); a feedback size of at least 1. -/
structure CfgLawful (p : Params) (c : Cfg) : Prop where
  keyLegal : legalBytes p.keySizes c.key.length = true
  keyStrong : isWeakKey p.alg c.key = false
  keyBitsAgree : c.keyBits.toNat = 8 * c.key.length
  blockLegal : legal p.blockSizes (c.blockBits.toNat : Nat) = true
  ivLength : c.iv.length = c.blockBits.toNat / 8
  feedbackPositive : 1 ≤ c.feedbackBits.toNat

/-- A slot that holds the snapshot of a creation (R42, R43, R180): the sizes are those creation admits. -/
structure SnapshotLawful (p : Params) (sl : Slot) (m : Mode) (pd : Padding) : Prop where
  modeHeld : sl.mode = some m
  paddingHeld : sl.padding = some pd
  blockLegal : legal p.blockSizes (sl.blockBits.toNat : Nat) = true
  segment : sl.u = segmentSize m sl.blockBits.toNat sl.fbBits.toNat
  feedbackSupported : m = .cfb → supportedCfb p sl.blockBits.toNat sl.fbBits.toNat = true
  feedbackFits : m = .cfb → sl.fbBits.toNat ≤ sl.blockBits.toNat
  countFits : countedPadding pd = true → sl.blockBits.toNat / 8 ≤ 255

/-- A slot never created since reset: Cleared, with zero snapshot fields (R40 to R43). -/
structure NeverCreated (sl : Slot) : Prop where
  cleared : sl.st = .cleared
  dirZero : sl.dir = .encrypt
  modeZero : sl.mode = none
  paddingZero : sl.padding = none
  blockZero : sl.blockBits = 0
  feedbackZero : sl.fbBits = 0
  segmentZero : sl.u = 0

/-- The invariants of a slot: its input buffer is empty (R46); what it holds came from a creation or it was never created; an
Active slot has a legal key and a chaining register of one block (R44, R45); another slot has no secrets left. -/
structure SlotLawful (p : Params) (sl : Slot) : Prop where
  inputEmpty : sl.ibuf = []
  origin : NeverCreated sl ∨ ∃ m pd, SnapshotLawful p sl m pd
  activeKey : sl.st = .active → legalBytes p.keySizes sl.key.length = true
  activeChain : sl.st = .active → sl.chain.length = sl.blockBits.toNat / 8
  erasedKey : sl.st ≠ .active → sl.key = zeros sl.key.length
  erasedChain : sl.st ≠ .active → sl.chain = zeros sl.chain.length

/-- The invariant of the machine: a lawful instance (R6), a lawful configuration, NUM_SLOTS lawful slots, and host memory in
its canonical form. -/
structure State.Inv (s : State) : Prop where
  instanceLawful : paramsLawful s.params = true
  cfgLawful : CfgLawful s.params s.cfg
  slotCount : s.slots.length = s.params.numSlots
  slotsLawful : ∀ sl ∈ s.slots, SlotLawful s.params sl
  memoryCanonical : s.mem.wf = true

/-- The match (OP) and the mask of each command, as R73 and R74 list them. -/
def opcodeTable : List (Nat × Word) :=
  [(0x01, 0xFFFFFFFF#32), (0x02, 0xFFFFFFFF#32), (0x03, 0xFFFFFFFF#32), (0x04, 0xFFFFFFFF#32), (0x05, 0xFFFFFFFF#32),
    (0x06, 0xFFFEFFFF#32), (0x07, 0xFFFEFFFF#32), (0x08, 0xFFFEFFFF#32), (0x09, 0xFFFEFFFF#32),
    (0x10, 0xFFF000FF#32), (0x11, 0xFFF000FF#32), (0x20, 0xFFFC00FF#32), (0x21, 0xFFFC00FF#32),
    (0x22, 0xFFFF00FF#32), (0x23, 0xFFFF00FF#32)]

/-! ### The operands of TBLOCK and TFINAL, as R140 writes them -/

/-- None of R140's checks (c) to (g) fails on the argument registers. -/
structure OperandsAccepted (s : State) : Prop where
  inLength : 0 ≤ s32 s.args.arg1
  outLength : 0 ≤ s32 s.args.arg5
  inOffset : 0 ≤ s32 s.args.arg2
  inCount : 0 ≤ s32 s.args.arg3
  outOffset : 0 ≤ s32 s.args.arg6
  inFits : (u32 s.args.arg0 : Int) + s32 s.args.arg1 ≤ 2 ^ 32
  outFits : (u32 s.args.arg4 : Int) + s32 s.args.arg5 ≤ 2 ^ 32
  rangeFits : s32 s.args.arg2 + s32 s.args.arg3 ≤ s32 s.args.arg1

/-- `inA + inOff`. -/
def inputAddressOf (s : State) : Nat := u32 s.args.arg0 + (s32 s.args.arg2).toNat

/-- `inCount`. -/
def inputCountOf (s : State) : Nat := (s32 s.args.arg3).toNat

/-- The input bytes `MemRead(inA + inOff, inCount)`. -/
def inputBytesOf (s : State) : Bytes := memRead s.mem (inputAddressOf s) (inputCountOf s)

/-- `outA + outOff`. -/
def outputAddressOf (s : State) : Nat := u32 s.args.arg4 + (s32 s.args.arg6).toNat

/-- `n` bytes at the output offset fit the output buffer (R53). -/
def outputFits (s : State) (n : Nat) : Prop := s32 s.args.arg6 + (n : Int) ≤ s32 s.args.arg5

/-- Every byte of `addr … addr+n-1` is admitted (R55). -/
def allAdmitted (s : State) (kind : AccessKind) (addr n : Nat) : Prop :=
  ∀ i, i < n → admits s.params kind (addr + i) = true

/-- Slot `n` exists and holds a live transform of the given mode and padding (R40, R141). -/
structure LiveSlot (s : State) (n : Nat) (m : Mode) (pd : Padding) : Prop where
  slotExists : n < s.params.numSlots
  active : (getSlot s n).st = .active
  modeHeld : (getSlot s n).mode = some m
  paddingHeld : (getSlot s n).padding = some pd

/-! ### The explicit operands and the configuration's checks of CRENC and CRDEC, as R180 writes them -/

/-- R180's checks of an explicit key pass. -/
structure ExplicitKeyAccepted (s : State) (n0 : Bool) : Prop where
  notNull : n0 = false
  keyLength : 0 ≤ s32 s.args.arg1
  keyFits : (u32 s.args.arg0 : Int) + s32 s.args.arg1 ≤ 2 ^ 32
  keyLegal : legal s.params.keySizes (8 * s32 s.args.arg1) = true

/-- R180's checks of an explicit IV pass. -/
structure ExplicitIVAccepted (s : State) (n1 : Bool) : Prop where
  notNull : n1 = false
  ivLength : 0 ≤ s32 s.args.arg3
  ivFits : (u32 s.args.arg2 : Int) + s32 s.args.arg3 ≤ 2 ^ 32
  ivOneBlock : s32 s.args.arg3 = ((s.cfg.blockBits.toNat / 8 : Nat) : Int)

/-- R180's checks of the configuration pass: in CFB the feedback size, under a counted padding the block size. -/
structure ConfigurationAccepted (s : State) : Prop where
  feedbackFits : s.cfg.mode = .cfb → s.cfg.feedbackBits.toNat ≤ s.cfg.blockBits.toNat
  feedbackSupported : s.cfg.mode = .cfb → supportedCfb s.params s.cfg.blockBits.toNat s.cfg.feedbackBits.toNat = true
  countFits : s.cfg.padding = .pkcs7 ∨ s.cfg.padding = .ansix923 ∨ s.cfg.padding = .iso10126 →
    s.cfg.blockBits.toNat / 8 ≤ 255

/-- The state a command completes in, given what it commits and its RESULT0 and RESULT1 (R201). -/
def completedWith (s : State) (r0 r1 : Word) : State := { s with err := 0, result0 := r0, result1 := r1 }

/-- The state a command that raises the error of the given code ends in (R201). -/
def failedWith (s : State) (code : BitVec 8) : State := { s with err := code, result0 := 0, result1 := 0 }

end Sys2Proof.Machine
end

