-- ==== Sys2Proof/Certificates/Slice0/Obligations.lean ====
section
/-! DEFINITION. The statements for the provers: what the rules of spec/ say the engine does. A statement whose hypotheses name
a state has its witness in Sys2Proof/Tests/Slice0.lean. -/

open Sys2Proof Sys2Proof.Machine

/-! ### Encoding (30_encoding.md) -/

/-- Words written out from R71, R73 and R85 decode to the commands they stand for. -/
def Obligations.SpecWordsDecode : Prop :=
  decode 0x00000001#32 = .ok .setmode ∧ decode 0x00000002#32 = .ok .setpadding ∧
    decode 0x00000005#32 = .ok .setfeedback ∧ decode 0x00010006#32 = .ok (.setkey true) ∧
    decode 0x00000009#32 = .ok (.getiv false) ∧ decode 0x000C0111#32 = .ok (.crdec 1 false false true true) ∧
    decode 0x00020220#32 = .ok (.tblock 2 false true) ∧ decode 0x0000FF21#32 = .ok (.tfinal 255 false false) ∧
    decode 0x00000322#32 = .ok (.clear 3) ∧ decode 0x00000323#32 = .ok (.query 3)

/-- Decoding the word of a well-formed command gives the command back: no bit of an encoding is dropped. -/
def Obligations.DecodeOfEncode : Prop := ∀ i : Instr, i.WellFormed → decode (encode i) = .ok i

/-- A word that decodes is the word of the command it decodes to, and that command is well-formed: each command has one word. -/
def Obligations.EncodeOfDecode : Prop := ∀ (w : Word) (i : Instr), decode w = .ok i → i.WellFormed ∧ encode i = w

/-- R74: a command is selected exactly when `(w AND mask) = match` for the match and mask of its row; a word that no row
selects is no command. -/
def Obligations.DecodeSelectsByMask : Prop :=
  ∀ w : Word,
    (∀ r ∈ opcodeTable, w &&& r.2 = BitVec.ofNat 32 r.1 ↔ ∃ i, decode w = .ok i ∧ opOf i = r.1) ∧
      ((∀ r ∈ opcodeTable, w &&& r.2 ≠ BitVec.ofNat 32 r.1) → ∃ e, decode w = .error e)

/-! ### Steps and the register window (R58, R70, R72) -/

/-- A step that takes a host write to CMD runs the decoded command on the state with that event taken; a word that is no
command raises IllegalCommand (code 15) instead (R72). The step adds nothing else around the command.
The list of host events is the model's own (log entry 3). -/
def Obligations.StepRunsDecodedCommand : Prop :=
  ∀ (s : State) (w : Word) (rest : List HostEvent), s.pending = .windowWrite 0x00C#12 32 w :: rest →
    (∀ i, decode w = .ok i → step s = exec i { s with pending := rest }) ∧
      (∀ e, decode w = .error e → step s = .next (failedWith { s with pending := rest } 15))

/-- Each register of the window reads as its rule says; CMD and reserved offsets read 0 (R30 to R37, R70).
`lastRead`, where the model shows what a read returns, is its own (log entry 4). -/
def Obligations.WindowRegistersRead : Prop :=
  ∀ (s : State) (offset : BitVec 12) (rest : List HostEvent), s.pending = .windowRead offset 32 :: rest →
    offset.toNat % 4 = 0 →
    ∃ t, step s = .next t ∧ t = { s with pending := rest, lastRead := t.lastRead } ∧
      (offset = 0x000#12 → t.lastRead = 0x534D4507#32) ∧
      (offset = 0x004#12 → s.params.numSlots ≤ 256 →
        t.lastRead.toNat = s.params.numSlots + 4096 *
          (match s.params.alg with
            | .des => 1
            | .tripleDes => 2
            | .rc2 => 3
            | .rijndael => 4
            | .other => 15)) ∧
      (offset = 0x008#12 → t.lastRead = s.err.zeroExtend 32) ∧
      (offset = 0x00C#12 → t.lastRead = 0) ∧
      (offset = 0x010#12 → t.lastRead = s.args.arg0) ∧
      (offset = 0x014#12 → t.lastRead = s.args.arg1) ∧
      (offset = 0x018#12 → t.lastRead = s.args.arg2) ∧
      (offset = 0x01C#12 → t.lastRead = s.args.arg3) ∧
      (offset = 0x020#12 → t.lastRead = s.args.arg4) ∧
      (offset = 0x024#12 → t.lastRead = s.args.arg5) ∧
      (offset = 0x028#12 → t.lastRead = s.args.arg6) ∧
      (offset = 0x02C#12 → t.lastRead = s.args.arg7) ∧
      (offset = 0x030#12 → t.lastRead = s.result0) ∧
      (offset = 0x034#12 → t.lastRead = s.result1) ∧
      (offset = 0x038#12 →
        t.lastRead.toNat =
          (match s.cfg.mode with
            | .cbc => 1
            | .ecb => 2
            | .ofb => 3
            | .cfb => 4)) ∧
      (offset = 0x03C#12 →
        t.lastRead.toNat =
          (match s.cfg.padding with
            | .nopad => 1
            | .pkcs7 => 2
            | .zeros => 3
            | .ansix923 => 4
            | .iso10126 => 5)) ∧
      (offset = 0x040#12 → t.lastRead = s.cfg.blockBits) ∧
      (offset = 0x044#12 → t.lastRead = s.cfg.keyBits) ∧
      (offset = 0x048#12 → t.lastRead = s.cfg.feedbackBits) ∧
      (0x04C ≤ offset.toNat → t.lastRead = 0)

/-- A window access that is not an aligned 32-bit access has no effect on the engine, and a read of that kind returns 0 (R58).
`lastRead` is the model's own (log entry 4). -/
def Obligations.MisalignedWindowAccessRefused : Prop :=
  ∀ (s : State) (offset : BitVec 12) (width : Nat) (rest : List HostEvent), width ≠ 32 ∨ offset.toNat % 4 ≠ 0 →
    (∀ v, s.pending = .windowWrite offset width v :: rest → step s = .next { s with pending := rest }) ∧
      (s.pending = .windowRead offset width :: rest → step s = .next { s with pending := rest, lastRead := 0 })

/-- A host write sets the argument register at its offset and nothing else; a write to any other offset but CMD is ignored
(R32, R37). -/
def Obligations.WindowWritesSetArguments : Prop :=
  ∀ (s : State) (offset : BitVec 12) (v : Word) (rest : List HostEvent), s.pending = .windowWrite offset 32 v :: rest →
    (offset = 0x010#12 → step s = .next { s with pending := rest, args := { s.args with arg0 := v } }) ∧
      (offset = 0x014#12 → step s = .next { s with pending := rest, args := { s.args with arg1 := v } }) ∧
      (offset = 0x018#12 → step s = .next { s with pending := rest, args := { s.args with arg2 := v } }) ∧
      (offset = 0x01C#12 → step s = .next { s with pending := rest, args := { s.args with arg3 := v } }) ∧
      (offset = 0x020#12 → step s = .next { s with pending := rest, args := { s.args with arg4 := v } }) ∧
      (offset = 0x024#12 → step s = .next { s with pending := rest, args := { s.args with arg5 := v } }) ∧
      (offset = 0x028#12 → step s = .next { s with pending := rest, args := { s.args with arg6 := v } }) ∧
      (offset = 0x02C#12 → step s = .next { s with pending := rest, args := { s.args with arg7 := v } }) ∧
      (offset.toNat < 0x010 ∨ 0x030 ≤ offset.toNat → offset ≠ 0x00C#12 → step s = .next { s with pending := rest })

/-! ### Every command (R6, R9, R47, R50, R55, R56, R200 to R206) -/

/-- No command writes an argument register (R32), a parameter of the instance (R6), or what the host will do or has read.
The fields `params`, `pending` and `lastRead` are the model's own (log entries 1, 3, 4). -/
def Obligations.CommandsKeepHostRegisters : Prop :=
  ∀ (i : Instr) (s t : State), exec i s = .next t →
    t.args = s.args ∧ t.params = s.params ∧ t.pending = s.pending ∧ t.lastRead = s.lastRead

/-- No step changes the parameters of the instance (R6).
That the parameters stand in the state is the model's choice (log entry 1). -/
def Obligations.StepKeepsInstance : Prop :=
  ∀ s t : State, step s = .next t → t.params = s.params

/-- A command that reports an error changes STATUS.ERR, RESULT0 and RESULT1 and nothing else, and clears both RESULTs (R201,
R203). -/
def Obligations.FailedCommandChangesOnlyStatus : Prop :=
  ∀ (i : Instr) (s t : State), exec i s = .next t → t.err ≠ 0 → t = failedWith s t.err

/-- STATUS.ERR never gets code 13, nor a code above 16 (R200, R206). -/
def Obligations.WrittenErrorCodes : Prop :=
  ∀ (i : Instr) (s t : State), exec i s = .next t → t.err.toNat ≤ 16 ∧ t.err ≠ 13

/-- Every step from every state has a next state: nothing stops the engine.
That a step with no event waiting keeps the state is the model's choice (log entry 3). -/
def Obligations.EveryStepAnswersNext : Prop := ∀ s : State, ∃ t, step s = .next t

/-- Random bytes are drawn only by SETKEYSIZE, by SETBLOCKSIZE, and by a TFINAL on an encryptor under ISO10126 (R9).
The counter `draws` is the model's own (log entry 5). -/
def Obligations.DrawsOnlyWhereNamed : Prop :=
  ∀ (i : Instr) (s t : State), exec i s = .next t → t.draws ≠ s.draws →
    i = .setkeysize ∨ i = .setblocksize ∨
      ∃ slot n0 n1, i = .tfinal slot n0 n1 ∧ (getSlot s slot).dir = .encrypt ∧ (getSlot s slot).padding = some .iso10126

/-- A command names at most one slot and changes no other (R47). -/
def Obligations.OtherSlotsUntouched : Prop :=
  ∀ (i : Instr) (s t : State) (k : Nat), exec i s = .next t →
    (∀ slot n0 n1 kx ix, i = .crenc slot n0 n1 kx ix ∨ i = .crdec slot n0 n1 kx ix → k ≠ slot) →
    (∀ slot n0 n1, i = .tblock slot n0 n1 ∨ i = .tfinal slot n0 n1 → k ≠ slot) →
    (∀ slot, i = .clear slot → k ≠ slot) →
    getSlot t k = getSlot s k

/-- Only GETKEY, GETIV, TBLOCK and TFINAL write host memory, and QUERY writes nothing but STATUS and RESULT (R50, R162). -/
def Obligations.OtherCommandsKeepMemory : Prop :=
  ∀ (i : Instr) (s t : State), exec i s = .next t →
    ((∀ n0, i ≠ .getkey n0 ∧ i ≠ .getiv n0) ∧ (∀ slot n0 n1, i ≠ .tblock slot n0 n1 ∧ i ≠ .tfinal slot n0 n1) →
      t.mem = s.mem) ∧
    (∀ slot, i = .query slot → t = { s with err := t.err, result0 := t.result0, result1 := t.result1 })

/-- A byte that the platform does not admit for writing, a byte of the engine's own window among them, is never changed by a
command (R55, R56). The premise is the machine's invariant.
MemAdmit as a list of ranges is the model's form of it (log entry 9). -/
def Obligations.UnadmittedBytesUnchanged : Prop :=
  ∀ (i : Instr) (s t : State) (a : Nat), s.Inv → exec i s = .next t →
    admits s.params .write a = false ∨ (s.params.smeBase.toNat ≤ a ∧ a ≤ s.params.smeBase.toNat + 0xFFF) →
    readByte t.mem a = readByte s.mem a

/-- The frame of the commands that store: every byte outside the stored range reads as before, and a command that fails
stores nothing. The range starts where the meaning stores: the buffer's address, or the output address (R142, R150, R177,
R178), and holds RESULT0 bytes. The premise is the machine's invariant. -/
def Obligations.StoringCommandsMemoryFrame : Prop :=
  ∀ (s t : State), s.Inv →
    (∀ n0 b, fbBuffer n0 s = .ok b → exec (.getkey n0) s = .next t ∨ exec (.getiv n0) s = .next t →
      ∀ a, a < b.addr ∨ b.addr + t.result0.toNat ≤ a → readByte t.mem a = readByte s.mem a) ∧
    (∀ n0 e, fbBuffer n0 s = .error e → exec (.getkey n0) s = .next t ∨ exec (.getiv n0) s = .next t →
      ∀ a, readByte t.mem a = readByte s.mem a) ∧
    (∀ slot n0 n1 o, transformOperands n0 n1 s = .ok o →
      exec (.tblock slot n0 n1) s = .next t ∨ exec (.tfinal slot n0 n1) s = .next t →
      ∀ a, a < outputAddress o ∨ outputAddress o + t.result0.toNat ≤ a → readByte t.mem a = readByte s.mem a) ∧
    (∀ slot n0 n1 e, transformOperands n0 n1 s = .error e →
      exec (.tblock slot n0 n1) s = .next t ∨ exec (.tfinal slot n0 n1) s = .next t →
      ∀ a, readByte t.mem a = readByte s.mem a)

/-! ### Reset (R220, R221) and the invariant -/

/-- A reset puts every field of the engine at its reset value, with a fresh key that is not weak and a fresh IV, and leaves
host memory as it stands (R220, R221).
A reset that arrives while a command is in progress does the same, from the state the command leaves where the platform lets
it commit, and from the state before it where the reset discards it entirely (R220).
The reset as a host event and the platform's choice as a part of it are the model's own (log entries 3, 17), and the length of
a slot's zeros its reading (log entry 12). -/
def Obligations.ResetEventValues : Prop :=
  (∀ (s : State) (rest : List HostEvent), s.pending = .reset :: rest →
    ∃ t, step s = .next t ∧ t.params = s.params ∧ t.pending = rest ∧ t.lastRead = s.lastRead ∧ t.mem = s.mem ∧
      t.cfg.key.length = s.params.defaultKeyBits / 8 ∧ isWeakKey s.params.alg t.cfg.key = false ∧
      t.cfg.keyBits = BitVec.ofNat 32 s.params.defaultKeyBits ∧
      t.cfg.iv.length = s.params.defaultBlockBits / 8 ∧
      t.cfg.blockBits = BitVec.ofNat 32 s.params.defaultBlockBits ∧
      t.cfg.feedbackBits = BitVec.ofNat 32 s.params.defaultFeedbackBits ∧
      t.cfg.mode = .cbc ∧ t.cfg.padding = .pkcs7 ∧
      t.slots.length = s.params.numSlots ∧
      (∀ sl ∈ t.slots, sl.st = .cleared ∧ sl.dir = .encrypt ∧ sl.mode = none ∧ sl.padding = none ∧ sl.blockBits = 0 ∧
        sl.fbBits = 0 ∧ sl.u = 0 ∧ sl.key = zeros sl.key.length ∧ sl.chain = zeros sl.chain.length ∧ sl.ibuf = []) ∧
      t.args = ⟨0, 0, 0, 0, 0, 0, 0, 0⟩ ∧ t.err = 0 ∧ t.result0 = 0 ∧ t.result1 = 0) ∧
  ∀ (s : State) (w : Word) (rest : List HostEvent),
    (s.pending = .resetDuring w false :: rest → step s = step { s with pending := .reset :: rest }) ∧
    (s.pending = .resetDuring w true :: rest →
      ∀ t, step { s with pending := .windowWrite 0x00C#12 32 w :: rest } = .next t →
        step s = step { t with pending := .reset :: rest })

/-- The machine right after reset meets the invariant (R222).
The instance, the empty memory and the sizes that fit 32 bits are the model's (log entries 2, 8). -/
def Obligations.ResetMeetsInvariant : Prop := State.reset.Inv

/-- Every step keeps the machine's invariant: the legal, not weak key and its size, the IV's length, the slots' fields, the
erased secrets, the canonical form of host memory (R20 to R24, R40 to R46).
The memory's form and the 32-bit bound on sizes are the model's (log entries 2, 8), zeros of the key's length its reading (log
entry 12). -/
def Obligations.StepKeepsInvariant : Prop := ∀ s t : State, s.Inv → step s = .next t → t.Inv

/-! ### Configuration commands (43_config.md R170 to R179) -/

/-- SETMODE writes `cfg.mode` for the values 1 to 4 and raises ArgumentRange (code 2) for every other (R170). -/
def Obligations.SetmodeWritesMode : Prop :=
  decode 0x00000001#32 = .ok .setmode ∧ ∀ s : State,
    (s32 s.args.arg0 = 1 → exec .setmode s = .next (completedWith { s with cfg := { s.cfg with mode := .cbc } } 0 0)) ∧
    (s32 s.args.arg0 = 2 → exec .setmode s = .next (completedWith { s with cfg := { s.cfg with mode := .ecb } } 0 0)) ∧
    (s32 s.args.arg0 = 3 → exec .setmode s = .next (completedWith { s with cfg := { s.cfg with mode := .ofb } } 0 0)) ∧
    (s32 s.args.arg0 = 4 → exec .setmode s = .next (completedWith { s with cfg := { s.cfg with mode := .cfb } } 0 0)) ∧
    (s32 s.args.arg0 < 1 ∨ 4 < s32 s.args.arg0 → exec .setmode s = .next (failedWith s 2))

/-- SETPADDING writes `cfg.padding` for the values 1 to 5 and raises ArgumentRange (code 2) for every other (R171). -/
def Obligations.SetpaddingWritesPadding : Prop :=
  decode 0x00000002#32 = .ok .setpadding ∧ ∀ s : State,
    (s32 s.args.arg0 = 1 →
      exec .setpadding s = .next (completedWith { s with cfg := { s.cfg with padding := .nopad } } 0 0)) ∧
    (s32 s.args.arg0 = 2 →
      exec .setpadding s = .next (completedWith { s with cfg := { s.cfg with padding := .pkcs7 } } 0 0)) ∧
    (s32 s.args.arg0 = 3 →
      exec .setpadding s = .next (completedWith { s with cfg := { s.cfg with padding := .zeros } } 0 0)) ∧
    (s32 s.args.arg0 = 4 →
      exec .setpadding s = .next (completedWith { s with cfg := { s.cfg with padding := .ansix923 } } 0 0)) ∧
    (s32 s.args.arg0 = 5 →
      exec .setpadding s = .next (completedWith { s with cfg := { s.cfg with padding := .iso10126 } } 0 0)) ∧
    (s32 s.args.arg0 < 1 ∨ 5 < s32 s.args.arg0 → exec .setpadding s = .next (failedWith s 2))

/-- SETKEYSIZE draws a key of the legal size that is not weak, and raises InvalidKeySize (code 4) for a size that is not legal
(R9, R172).
K is free but for its length and not being weak; that `draws` counts its bytes is the model's own (log entry 5). -/
def Obligations.SetkeysizeDrawsKey : Prop :=
  decode 0x00000003#32 = .ok .setkeysize ∧ ∀ s : State,
    (legal s.params.keySizes (s32 s.args.arg0) = true →
      ∃ K, exec .setkeysize s =
          .next (completedWith
            { s with cfg := { s.cfg with key := K, keyBits := s.args.arg0 }, draws := s.draws + K.length } 0 0) ∧
        (K.length : Int) = s32 s.args.arg0 / 8 ∧ isWeakKey s.params.alg K = false) ∧
    (legal s.params.keySizes (s32 s.args.arg0) = false → exec .setkeysize s = .next (failedWith s 4))

/-- SETBLOCKSIZE leaves everything as it was when the legal size is the current one, draws an IV of the new size when it is
not, and raises InvalidBlockSize (code 6) for a size that is not legal (R173).
V is free but for its length; that `draws` counts its bytes is the model's own (log entry 5). -/
def Obligations.SetblocksizeRedrawsIV : Prop :=
  decode 0x00000004#32 = .ok .setblocksize ∧ ∀ s : State,
    (legal s.params.blockSizes (s32 s.args.arg0) = true → s32 s.args.arg0 = (s.cfg.blockBits.toNat : Int) →
      exec .setblocksize s = .next (completedWith s 0 0)) ∧
    (legal s.params.blockSizes (s32 s.args.arg0) = true → s32 s.args.arg0 ≠ (s.cfg.blockBits.toNat : Int) →
      ∃ V, exec .setblocksize s =
          .next (completedWith
            { s with cfg := { s.cfg with blockBits := s.args.arg0, iv := V }, draws := s.draws + V.length } 0 0) ∧
        (V.length : Int) = s32 s.args.arg0 / 8) ∧
    (legal s.params.blockSizes (s32 s.args.arg0) = false → exec .setblocksize s = .next (failedWith s 6))

/-- SETFEEDBACK writes a size from 1 to the block size, whatever the primitive supports, and raises InvalidFeedbackSize (code
7) for every other (R174). -/
def Obligations.SetfeedbackWritesSize : Prop :=
  decode 0x00000005#32 = .ok .setfeedback ∧ ∀ s : State,
    (1 ≤ s32 s.args.arg0 → s32 s.args.arg0 ≤ (s.cfg.blockBits.toNat : Int) →
      exec .setfeedback s =
        .next (completedWith { s with cfg := { s.cfg with feedbackBits := s.args.arg0 } } 0 0)) ∧
    (s32 s.args.arg0 < 1 ∨ (s.cfg.blockBits.toNat : Int) < s32 s.args.arg0 →
      exec .setfeedback s = .next (failedWith s 7))

/-- SETKEY writes the key and its size from an admitted buffer of a legal length that is not weak (R175). -/
def Obligations.SetkeyWritesKey : Prop :=
  ∀ s : State, 0 ≤ s32 s.args.arg1 → (u32 s.args.arg0 : Int) + s32 s.args.arg1 ≤ 2 ^ 32 →
    legal s.params.keySizes (8 * s32 s.args.arg1) = true →
    allAdmitted s .read (u32 s.args.arg0) (s32 s.args.arg1).toNat →
    isWeakKey s.params.alg (memRead s.mem (u32 s.args.arg0) (s32 s.args.arg1).toNat) = false →
    exec (.setkey false) s =
      .next (completedWith
        { s with
            cfg := { s.cfg with
                key := memRead s.mem (u32 s.args.arg0) (s32 s.args.arg1).toNat,
                keyBits := BitVec.ofInt 32 (8 * s32 s.args.arg1) } } 0 0)

/-- SETIV writes the IV from an admitted buffer of one block, in every mode (R176). -/
def Obligations.SetivWritesIV : Prop :=
  ∀ s : State, 0 ≤ s32 s.args.arg1 → (u32 s.args.arg0 : Int) + s32 s.args.arg1 ≤ 2 ^ 32 →
    s32 s.args.arg1 = ((s.cfg.blockBits.toNat / 8 : Nat) : Int) →
    allAdmitted s .read (u32 s.args.arg0) (s32 s.args.arg1).toNat →
    exec (.setiv false) s =
      .next (completedWith
        { s with cfg := { s.cfg with iv := memRead s.mem (u32 s.args.arg0) (s32 s.args.arg1).toNat } } 0 0)

/-- GETKEY and GETIV store the configuration key, or IV, at the start of a buffer it fits, and answer its length (R177,
R178). -/
def Obligations.GetCommandsCopyOut : Prop :=
  ∀ s : State, 0 ≤ s32 s.args.arg1 → (u32 s.args.arg0 : Int) + s32 s.args.arg1 ≤ 2 ^ 32 →
    ((s.cfg.key.length : Int) ≤ s32 s.args.arg1 → allAdmitted s .write (u32 s.args.arg0) s.cfg.key.length →
      exec (.getkey false) s =
        .next (completedWith { s with mem := memWrite s.mem (u32 s.args.arg0) s.cfg.key }
          (BitVec.ofNat 32 s.cfg.key.length) 0)) ∧
    ((s.cfg.iv.length : Int) ≤ s32 s.args.arg1 → allAdmitted s .write (u32 s.args.arg0) s.cfg.iv.length →
      exec (.getiv false) s =
        .next (completedWith { s with mem := memWrite s.mem (u32 s.args.arg0) s.cfg.iv }
          (BitVec.ofNat 32 s.cfg.iv.length) 0))

/-- The checks of a buffer operand in their order, for the four commands that take one: null (code 1), negative length (code
2), wrap (code 3) (R52, R175 to R178). -/
def Obligations.BufferOperandErrors : Prop :=
  ∀ (s : State) (i : Bool → Instr), i = .setkey ∨ i = .setiv ∨ i = .getkey ∨ i = .getiv →
    exec (i true) s = .next (failedWith s 1) ∧
      (s32 s.args.arg1 < 0 → exec (i false) s = .next (failedWith s 2)) ∧
      (0 ≤ s32 s.args.arg1 → 2 ^ 32 < (u32 s.args.arg0 : Int) + s32 s.args.arg1 →
        exec (i false) s = .next (failedWith s 3))

/-- The checks of SETKEY, SETIV, GETKEY and GETIV after the buffer's own, in their order (R175 to R178, R202). -/
def Obligations.BufferCommandErrors : Prop :=
  ∀ s : State, 0 ≤ s32 s.args.arg1 → (u32 s.args.arg0 : Int) + s32 s.args.arg1 ≤ 2 ^ 32 →
    (legal s.params.keySizes (8 * s32 s.args.arg1) = false → exec (.setkey false) s = .next (failedWith s 4)) ∧
    (legal s.params.keySizes (8 * s32 s.args.arg1) = true →
      ¬ allAdmitted s .read (u32 s.args.arg0) (s32 s.args.arg1).toNat →
      exec (.setkey false) s = .next (failedWith s 16)) ∧
    (legal s.params.keySizes (8 * s32 s.args.arg1) = true →
      allAdmitted s .read (u32 s.args.arg0) (s32 s.args.arg1).toNat →
      isWeakKey s.params.alg (memRead s.mem (u32 s.args.arg0) (s32 s.args.arg1).toNat) = true →
      exec (.setkey false) s = .next (failedWith s 8)) ∧
    (s32 s.args.arg1 ≠ ((s.cfg.blockBits.toNat / 8 : Nat) : Int) → exec (.setiv false) s = .next (failedWith s 5)) ∧
    (s32 s.args.arg1 = ((s.cfg.blockBits.toNat / 8 : Nat) : Int) →
      ¬ allAdmitted s .read (u32 s.args.arg0) (s32 s.args.arg1).toNat →
      exec (.setiv false) s = .next (failedWith s 16)) ∧
    (s32 s.args.arg1 < (s.cfg.key.length : Int) → exec (.getkey false) s = .next (failedWith s 3)) ∧
    ((s.cfg.key.length : Int) ≤ s32 s.args.arg1 → ¬ allAdmitted s .write (u32 s.args.arg0) s.cfg.key.length →
      exec (.getkey false) s = .next (failedWith s 16)) ∧
    (s32 s.args.arg1 < (s.cfg.iv.length : Int) → exec (.getiv false) s = .next (failedWith s 3)) ∧
    ((s.cfg.iv.length : Int) ≤ s32 s.args.arg1 → ¬ allAdmitted s .write (u32 s.args.arg0) s.cfg.iv.length →
      exec (.getiv false) s = .next (failedWith s 16))

/-- Each configuration command writes only the `cfg` fields its rule names, and one that raises writes none (R179). -/
def Obligations.ConfigurationWritesOnlyItsFields : Prop :=
  ∀ (s t : State) (n0 : Bool),
    (exec .setmode s = .next t → t.cfg = { s.cfg with mode := t.cfg.mode }) ∧
    (exec .setpadding s = .next t → t.cfg = { s.cfg with padding := t.cfg.padding }) ∧
    (exec .setkeysize s = .next t → t.cfg = { s.cfg with key := t.cfg.key, keyBits := t.cfg.keyBits }) ∧
    (exec (.setkey n0) s = .next t → t.cfg = { s.cfg with key := t.cfg.key, keyBits := t.cfg.keyBits }) ∧
    (exec .setblocksize s = .next t → t.cfg = { s.cfg with blockBits := t.cfg.blockBits, iv := t.cfg.iv }) ∧
    (exec .setfeedback s = .next t → t.cfg = { s.cfg with feedbackBits := t.cfg.feedbackBits }) ∧
    (exec (.setiv n0) s = .next t → t.cfg = { s.cfg with iv := t.cfg.iv }) ∧
    (exec (.getkey n0) s = .next t → t.cfg = s.cfg) ∧
    (exec (.getiv n0) s = .next t → t.cfg = s.cfg) ∧
    (∀ i, exec i s = .next t → t.err ≠ 0 → t.cfg = s.cfg)

/-- Writing a `cfg` field never changes a slot: the configuration commands leave every slot as it is, Active or not (R27). -/
def Obligations.ConfigurationNeverChangesSlots : Prop :=
  ∀ (s t : State) (i : Instr), exec i s = .next t → t.cfg ≠ s.cfg → t.slots = s.slots

/-! ### Creation (R180 to R182) -/

/-- CRENC and CRDEC create an Active slot that snapshots the configuration, with the explicit key when KX is 1 and the
explicit IV when IX is 1, in whatever state the slot was; the null flags of operands not read are ignored (R77, R180). -/
def Obligations.CreationMakesActiveSlot : Prop :=
  ∀ (slot : Nat) (n0 n1 kx ix : Bool) (s : State) (K IV : Bytes),
    slot < s.params.numSlots → ConfigurationAccepted s →
    (kx = true → ExplicitKeyAccepted s n0 ∧ allAdmitted s .read (u32 s.args.arg0) (s32 s.args.arg1).toNat ∧
      K = memRead s.mem (u32 s.args.arg0) (s32 s.args.arg1).toNat ∧ isWeakKey s.params.alg K = false) →
    (kx = false → K = s.cfg.key) →
    (ix = true → ExplicitIVAccepted s n1 ∧ allAdmitted s .read (u32 s.args.arg2) (s32 s.args.arg3).toNat ∧
      IV = memRead s.mem (u32 s.args.arg2) (s32 s.args.arg3).toNat) →
    (ix = false → IV = s.cfg.iv) →
    ∀ u : Nat, (s.cfg.mode = .cfb → u = s.cfg.feedbackBits.toNat / 8) →
      (s.cfg.mode ≠ .cfb → u = s.cfg.blockBits.toNat / 8) →
    exec (.crenc slot n0 n1 kx ix) s =
        .next (completedWith
          { s with
            slots := s.slots.set slot
              { st := .active, dir := .encrypt, mode := some s.cfg.mode, padding := some s.cfg.padding,
                blockBits := s.cfg.blockBits, fbBits := s.cfg.feedbackBits, u := u, key := K, chain := IV,
                ibuf := [] } } 0 0) ∧
      exec (.crdec slot n0 n1 kx ix) s =
        .next (completedWith
          { s with
            slots := s.slots.set slot
              { st := .active, dir := .decrypt, mode := some s.cfg.mode, padding := some s.cfg.padding,
                blockBits := s.cfg.blockBits, fbBits := s.cfg.feedbackBits, u := u, key := K, chain := IV,
                ibuf := [] } } 0 0)

/-- The checks of creation on an existing slot that need no memory, in R180's order: the explicit key's, then the explicit
IV's, then the configuration's (R180, R182, R202). -/
def Obligations.CreationErrors : Prop :=
  ∀ (i : Nat → Bool → Bool → Bool → Bool → Instr) (slot : Nat) (n0 n1 kx ix : Bool) (s : State),
    i = .crenc ∨ i = .crdec → slot < s.params.numSlots →
    exec (i slot true n1 true ix) s = .next (failedWith s 4) ∧
    (s32 s.args.arg1 < 0 → exec (i slot false n1 true ix) s = .next (failedWith s 2)) ∧
    (0 ≤ s32 s.args.arg1 → 2 ^ 32 < (u32 s.args.arg0 : Int) + s32 s.args.arg1 →
      exec (i slot false n1 true ix) s = .next (failedWith s 3)) ∧
    (0 ≤ s32 s.args.arg1 → (u32 s.args.arg0 : Int) + s32 s.args.arg1 ≤ 2 ^ 32 →
      legal s.params.keySizes (8 * s32 s.args.arg1) = false →
      exec (i slot false n1 true ix) s = .next (failedWith s 4)) ∧
    ((kx = true → ExplicitKeyAccepted s n0) →
      exec (i slot n0 true kx true) s = .next (failedWith s 5) ∧
      (s32 s.args.arg3 < 0 → exec (i slot n0 false kx true) s = .next (failedWith s 2)) ∧
      (0 ≤ s32 s.args.arg3 → 2 ^ 32 < (u32 s.args.arg2 : Int) + s32 s.args.arg3 →
        exec (i slot n0 false kx true) s = .next (failedWith s 3)) ∧
      (0 ≤ s32 s.args.arg3 → (u32 s.args.arg2 : Int) + s32 s.args.arg3 ≤ 2 ^ 32 →
        s32 s.args.arg3 ≠ ((s.cfg.blockBits.toNat / 8 : Nat) : Int) →
        exec (i slot n0 false kx true) s = .next (failedWith s 5)) ∧
      ((ix = true → ExplicitIVAccepted s n1) →
        (s.cfg.mode = .cfb → s.cfg.blockBits.toNat < s.cfg.feedbackBits.toNat →
          exec (i slot n0 n1 kx ix) s = .next (failedWith s 7)) ∧
        (s.cfg.mode = .cfb → s.cfg.feedbackBits.toNat ≤ s.cfg.blockBits.toNat →
          supportedCfb s.params s.cfg.blockBits.toNat s.cfg.feedbackBits.toNat = false →
          exec (i slot n0 n1 kx ix) s = .next (failedWith s 11)) ∧
        ((s.cfg.mode = .cfb → s.cfg.feedbackBits.toNat ≤ s.cfg.blockBits.toNat ∧
            supportedCfb s.params s.cfg.blockBits.toNat s.cfg.feedbackBits.toNat = true) →
          s.cfg.padding = .pkcs7 ∨ s.cfg.padding = .ansix923 ∨ s.cfg.padding = .iso10126 →
          255 < s.cfg.blockBits.toNat / 8 → exec (i slot n0 n1 kx ix) s = .next (failedWith s 6))))

/-- The checks of creation on the bytes of the explicit operands, when its other checks pass: admission of the key, then of the
IV (BusError, code 16), then weakness of an explicit key (WeakKey, code 8) (R55, R180, R202). -/
def Obligations.CreationMemoryErrors : Prop :=
  ∀ (i : Nat → Bool → Bool → Bool → Bool → Instr) (slot : Nat) (n0 n1 kx ix : Bool) (s : State),
    i = .crenc ∨ i = .crdec → slot < s.params.numSlots → ConfigurationAccepted s →
    (kx = true → ExplicitKeyAccepted s n0) → (ix = true → ExplicitIVAccepted s n1) →
    (kx = true → ¬ allAdmitted s .read (u32 s.args.arg0) (s32 s.args.arg1).toNat →
      exec (i slot n0 n1 kx ix) s = .next (failedWith s 16)) ∧
    ((kx = true → allAdmitted s .read (u32 s.args.arg0) (s32 s.args.arg1).toNat) →
      ix = true → ¬ allAdmitted s .read (u32 s.args.arg2) (s32 s.args.arg3).toNat →
      exec (i slot n0 n1 kx ix) s = .next (failedWith s 16)) ∧
    (kx = true → allAdmitted s .read (u32 s.args.arg0) (s32 s.args.arg1).toNat →
      (ix = true → allAdmitted s .read (u32 s.args.arg2) (s32 s.args.arg3).toNat) →
      isWeakKey s.params.alg (memRead s.mem (u32 s.args.arg0) (s32 s.args.arg1).toNat) = true →
      exec (i slot n0 n1 kx ix) s = .next (failedWith s 8))

/-- Creating a transform never writes `cfg`, explicit key and IV or not (R181), stores nothing to host memory (R50, R180) and
draws nothing (R9). The counter `draws` is the model's own (log entry 5). -/
def Obligations.CreationKeepsConfiguration : Prop :=
  ∀ (slot : Nat) (n0 n1 kx ix : Bool) (s t : State),
    exec (.crenc slot n0 n1 kx ix) s = .next t ∨ exec (.crdec slot n0 n1 kx ix) s = .next t →
    t.cfg = s.cfg ∧ t.mem = s.mem ∧ t.draws = s.draws

/-! ### Streaming commands (42_streaming.md) -/

/-- A slot number that does not exist raises ArgumentRange (code 2) before any other check, for all six slot commands (R141). -/
def Obligations.MissingSlotRaisesArgumentRange : Prop :=
  ∀ (slot : Nat) (n0 n1 kx ix : Bool) (s : State), s.params.numSlots ≤ slot →
    exec (.crenc slot n0 n1 kx ix) s = .next (failedWith s 2) ∧
    exec (.crdec slot n0 n1 kx ix) s = .next (failedWith s 2) ∧
    exec (.tblock slot n0 n1) s = .next (failedWith s 2) ∧
    exec (.tfinal slot n0 n1) s = .next (failedWith s 2) ∧
    exec (.clear slot) s = .next (failedWith s 2) ∧
    exec (.query slot) s = .next (failedWith s 2)

/-- TBLOCK on a live slot writes the output of Run over the whole segments of the input range and keeps the final chaining
register (R142, R143). -/
def Obligations.TblockTransformsSegments : Prop :=
  ∀ (slot : Nat) (s : State) (m : Mode) (pd : Padding) (Y c : Bytes),
    LiveSlot s slot m pd → OperandsAccepted s → inputCountOf s % (getSlot s slot).u = 0 →
    allAdmitted s .read (inputAddressOf s) (inputCountOf s) → outputFits s (inputCountOf s) →
    allAdmitted s .write (outputAddressOf s) (inputCountOf s) →
    runMode (externals s.params) m (getSlot s slot).dir (getSlot s slot).key (getSlot s slot).u (getSlot s slot).chain
      (inputBytesOf s) = (Y, c) →
    exec (.tblock slot false false) s =
      .next (completedWith
        { s with
            slots := s.slots.set slot { getSlot s slot with chain := c }
            mem := memWrite s.mem (outputAddressOf s) Y }
        (BitVec.ofNat 32 (inputCountOf s)) 0)

/-- The operand checks of TBLOCK and TFINAL on a live slot, in R140's order: null input or output (code 1), negative lengths,
offsets and counts (code 2), wraps and a range past its buffer (code 3). -/
def Obligations.TransformOperandErrors : Prop :=
  ∀ (i : Nat → Bool → Bool → Instr) (slot : Nat) (n1 : Bool) (s : State) (m : Mode) (pd : Padding),
    i = .tblock ∨ i = .tfinal → LiveSlot s slot m pd →
    exec (i slot true n1) s = .next (failedWith s 1) ∧
    exec (i slot false true) s = .next (failedWith s 1) ∧
    (s32 s.args.arg1 < 0 ∨ s32 s.args.arg5 < 0 ∨ s32 s.args.arg2 < 0 ∨ s32 s.args.arg3 < 0 ∨ s32 s.args.arg6 < 0 →
      exec (i slot false false) s = .next (failedWith s 2)) ∧
    (0 ≤ s32 s.args.arg1 → 0 ≤ s32 s.args.arg5 → 0 ≤ s32 s.args.arg2 → 0 ≤ s32 s.args.arg3 → 0 ≤ s32 s.args.arg6 →
      2 ^ 32 < (u32 s.args.arg0 : Int) + s32 s.args.arg1 ∨ 2 ^ 32 < (u32 s.args.arg4 : Int) + s32 s.args.arg5 ∨
        s32 s.args.arg1 < s32 s.args.arg2 + s32 s.args.arg3 →
      exec (i slot false false) s = .next (failedWith s 3))

/-- The checks of TBLOCK after its operands', in their order: a count of whole segments (InvalidInputLength, code 14), read
admission (code 16), the output range (code 3), write admission (code 16) (R142, R143, R202). -/
def Obligations.TblockErrors : Prop :=
  ∀ (slot : Nat) (s : State) (m : Mode) (pd : Padding), LiveSlot s slot m pd → OperandsAccepted s →
    (inputCountOf s % (getSlot s slot).u ≠ 0 → exec (.tblock slot false false) s = .next (failedWith s 14)) ∧
    (inputCountOf s % (getSlot s slot).u = 0 → ¬ allAdmitted s .read (inputAddressOf s) (inputCountOf s) →
      exec (.tblock slot false false) s = .next (failedWith s 16)) ∧
    (inputCountOf s % (getSlot s slot).u = 0 → allAdmitted s .read (inputAddressOf s) (inputCountOf s) →
      ¬ outputFits s (inputCountOf s) → exec (.tblock slot false false) s = .next (failedWith s 3)) ∧
    (inputCountOf s % (getSlot s slot).u = 0 → allAdmitted s .read (inputAddressOf s) (inputCountOf s) →
      outputFits s (inputCountOf s) → ¬ allAdmitted s .write (outputAddressOf s) (inputCountOf s) →
      exec (.tblock slot false false) s = .next (failedWith s 16))

/-- TFINAL on a live encryptor pads the final bytes, writes their encryption, and leaves the slot Finalized and erased (R150,
R151). The premise Inv is the machine's invariant; `filler` stands for the bytes ISO10126 draws and is read by no other
padding.
The counter `draws` is the model's own (log entry 5), zeros of the old length its reading (log entry 12). -/
def Obligations.TfinalEncryptCompletes : Prop :=
  ∀ (slot : Nat) (s : State) (m : Mode) (pd : Padding) (filler D : Bytes), s.Inv →
    LiveSlot s slot m pd → (getSlot s slot).dir = .encrypt → OperandsAccepted s →
    (pd = .iso10126 →
      filler = drawnBytes s.draws (blockBytes (getSlot s slot) - inputCountOf s % blockBytes (getSlot s slot) - 1)) →
    pad pd filler (inputBytesOf s) (blockBytes (getSlot s slot)) = .ok D →
    allAdmitted s .read (inputAddressOf s) (inputCountOf s) → outputFits s D.length →
    allAdmitted s .write (outputAddressOf s) D.length →
    exec (.tfinal slot false false) s =
      .next (completedWith
        { s with
            slots := s.slots.set slot
              { getSlot s slot with
                  st := .finalized, key := zeros (getSlot s slot).key.length, chain := zeros (getSlot s slot).chain.length,
                  ibuf := [] }
            mem := memWrite s.mem (outputAddressOf s)
              (runMode (externals s.params) m .encrypt (getSlot s slot).key (getSlot s slot).u (getSlot s slot).chain D).1
            draws := s.draws + (if pd = .iso10126 then filler.length else 0) }
        (BitVec.ofNat 32 D.length) 0)

/-- TFINAL on a live decryptor writes the decryption of the final blocks with its padding removed, and leaves the slot
Finalized and erased (R150, R152, R153). The premise Inv is the machine's invariant.
Zeros of the old length are the model's reading (log entry 12). -/
def Obligations.TfinalDecryptCompletes : Prop :=
  ∀ (slot : Nat) (s : State) (m : Mode) (pd : Padding) (Z : Bytes), s.Inv →
    LiveSlot s slot m pd → (getSlot s slot).dir = .decrypt → OperandsAccepted s →
    inputCountOf s % blockBytes (getSlot s slot) = 0 →
    allAdmitted s .read (inputAddressOf s) (inputCountOf s) →
    unpad pd
      (runMode (externals s.params) m .decrypt (getSlot s slot).key (getSlot s slot).u (getSlot s slot).chain
        (inputBytesOf s)).1 (blockBytes (getSlot s slot)) = .ok Z →
    outputFits s Z.length → allAdmitted s .write (outputAddressOf s) Z.length →
    exec (.tfinal slot false false) s =
      .next (completedWith
        { s with
            slots := s.slots.set slot
              { getSlot s slot with
                  st := .finalized, key := zeros (getSlot s slot).key.length, chain := zeros (getSlot s slot).chain.length,
                  ibuf := [] }
            mem := memWrite s.mem (outputAddressOf s) Z }
        (BitVec.ofNat 32 Z.length) 0)

/-- The checks of TFINAL after its operands', in their order: whole blocks (InvalidDataLength, code 9), read admission (code
16), a decryptor's padding (InvalidPadding, code 10), the output range (code 3), write admission (code 16) (R150 to R153,
R202). The premise Inv is the machine's invariant.
That the filler is read at the counter `draws` is the model's own (log entry 5). -/
def Obligations.TfinalErrors : Prop :=
  ∀ (slot : Nat) (s : State) (m : Mode) (pd : Padding), s.Inv → LiveSlot s slot m pd → OperandsAccepted s →
    ((getSlot s slot).dir = .decrypt ∨ pd = .nopad → inputCountOf s % blockBytes (getSlot s slot) ≠ 0 →
      exec (.tfinal slot false false) s = .next (failedWith s 9)) ∧
    (inputCountOf s % blockBytes (getSlot s slot) = 0 ∨ ((getSlot s slot).dir = .encrypt ∧ pd ≠ .nopad) →
      ¬ allAdmitted s .read (inputAddressOf s) (inputCountOf s) →
      exec (.tfinal slot false false) s = .next (failedWith s 16)) ∧
    ((getSlot s slot).dir = .decrypt → inputCountOf s % blockBytes (getSlot s slot) = 0 →
      allAdmitted s .read (inputAddressOf s) (inputCountOf s) →
      ∀ Q, (runMode (externals s.params) m .decrypt (getSlot s slot).key (getSlot s slot).u (getSlot s slot).chain
          (inputBytesOf s)).1 = Q →
        ((∀ Z, unpad pd Q (blockBytes (getSlot s slot)) ≠ .ok Z) →
          exec (.tfinal slot false false) s = .next (failedWith s 10)) ∧
        (∀ Z, unpad pd Q (blockBytes (getSlot s slot)) = .ok Z → ¬ outputFits s Z.length →
          exec (.tfinal slot false false) s = .next (failedWith s 3)) ∧
        (∀ Z, unpad pd Q (blockBytes (getSlot s slot)) = .ok Z → outputFits s Z.length →
          ¬ allAdmitted s .write (outputAddressOf s) Z.length →
          exec (.tfinal slot false false) s = .next (failedWith s 16))) ∧
    ((getSlot s slot).dir = .encrypt → allAdmitted s .read (inputAddressOf s) (inputCountOf s) →
      ∀ filler D, (pd = .iso10126 →
          filler = drawnBytes s.draws (blockBytes (getSlot s slot) - inputCountOf s % blockBytes (getSlot s slot) - 1)) →
        pad pd filler (inputBytesOf s) (blockBytes (getSlot s slot)) = .ok D →
        (¬ outputFits s D.length → exec (.tfinal slot false false) s = .next (failedWith s 3)) ∧
        (outputFits s D.length → ¬ allAdmitted s .write (outputAddressOf s) D.length →
          exec (.tfinal slot false false) s = .next (failedWith s 16)))

/-- A slot that is not Active refuses TBLOCK and TFINAL with ObjectDisposed (code 12), whatever the operands; and a TFINAL that
succeeds leaves its slot so (R142, R150, R154, R202). -/
def Obligations.FinalizedSlotIsDisposed : Prop :=
  ∀ (slot : Nat) (n0 n1 : Bool) (s : State), slot < s.params.numSlots →
    ((getSlot s slot).st ≠ .active →
      exec (.tblock slot n0 n1) s = .next (failedWith s 12) ∧ exec (.tfinal slot n0 n1) s = .next (failedWith s 12)) ∧
    (s.slots.length = s.params.numSlots →
      ∀ m0 m1 t, exec (.tfinal slot m0 m1) s = .next t → t.err = 0 →
        exec (.tblock slot n0 n1) t = .next (failedWith t 12) ∧ exec (.tfinal slot n0 n1) t = .next (failedWith t 12))

/-- CLEAR of an existing slot, in whatever state, leaves it Cleared with its secrets zero and its other fields kept (R160).
Zeros of the old length are the model's reading (log entry 12). -/
def Obligations.ClearErasesSlot : Prop :=
  ∀ (slot : Nat) (s : State), slot < s.params.numSlots →
    exec (.clear slot) s =
      .next (completedWith
        { s with
            slots := s.slots.set slot
              { getSlot s slot with
                st := .cleared, key := zeros (getSlot s slot).key.length, chain := zeros (getSlot s slot).chain.length,
                ibuf := [] } } 0 0)

/-- QUERY of an existing slot reports its state, direction, mode and padding in RESULT0 and its segment size in both halves of
RESULT1 (for a size that fits a half; log entry 13 says what the model does above), and changes nothing else (R162). -/
def Obligations.QueryReportsSlot : Prop :=
  ∀ (slot : Nat) (s : State), slot < s.params.numSlots →
    ∃ r0 r1, exec (.query slot) s = .next (completedWith s r0 r1) ∧
      ((getSlot s slot).u < 65536 → r1 = BitVec.ofNat 32 ((getSlot s slot).u + 65536 * (getSlot s slot).u)) ∧
      r0.extractLsb' 0 8 =
        (match (getSlot s slot).st with
          | .cleared => 0#8
          | .active => 1#8
          | .finalized => 2#8) ∧
      r0.extractLsb' 8 8 =
        (match (getSlot s slot).dir with
          | .encrypt => 0#8
          | .decrypt => 1#8) ∧
      r0.extractLsb' 16 8 =
        (match (getSlot s slot).mode with
          | none => 0#8
          | some .cbc => 1#8
          | some .ecb => 2#8
          | some .ofb => 3#8
          | some .cfb => 4#8) ∧
      r0.extractLsb' 24 8 =
        (match (getSlot s slot).padding with
          | none => 0#8
          | some .nopad => 1#8
          | some .pkcs7 => 2#8
          | some .zeros => 3#8
          | some .ansix923 => 4#8
          | some .iso10126 => 5#8)

/-- The transitions of a slot's state, and no others (R161): creation makes it Active, a TFINAL that succeeds on an Active slot
makes it Finalized, CLEAR makes it Cleared, and any other command, or one that fails, leaves it. -/
def Obligations.SlotLifecycle : Prop :=
  ∀ (i : Instr) (s t : State) (n : Nat), s.slots.length = s.params.numSlots → n < s.params.numSlots →
    exec i s = .next t →
    (t.err ≠ 0 → (getSlot t n).st = (getSlot s n).st) ∧
    (t.err = 0 →
      (∀ n0 n1 kx ix, i = .crenc n n0 n1 kx ix ∨ i = .crdec n n0 n1 kx ix → (getSlot t n).st = .active) ∧
      (∀ n0 n1, i = .tblock n n0 n1 → (getSlot s n).st = .active ∧ (getSlot t n).st = .active) ∧
      (∀ n0 n1, i = .tfinal n n0 n1 → (getSlot s n).st = .active ∧ (getSlot t n).st = .finalized) ∧
      (i = .clear n → (getSlot t n).st = .cleared)) ∧
    ((getSlot t n).st ≠ (getSlot s n).st →
      (∃ n0 n1 kx ix, i = .crenc n n0 n1 kx ix ∨ i = .crdec n n0 n1 kx ix) ∨
        (∃ n0 n1, i = .tfinal n n0 n1) ∨ i = .clear n)

/-- Outside an encryptor's ISO10126 final chunk, what TBLOCK and TFINAL do is a function of their inputs: the random source
does not matter (R164).
The counter `draws` stands for the random source and is the model's own (log entry 5). -/
def Obligations.TransformsIgnoreDraws : Prop :=
  ∀ (slot : Nat) (n0 n1 : Bool) (s t : State) (k : Nat),
    (exec (.tblock slot n0 n1) s = .next t →
      exec (.tblock slot n0 n1) { s with draws := k } = .next { t with draws := k }) ∧
    ((getSlot s slot).dir = .decrypt ∨ (getSlot s slot).padding ≠ some .iso10126 →
      exec (.tfinal slot n0 n1) s = .next t →
      exec (.tfinal slot n0 n1) { s with draws := k } = .next { t with draws := k })

/-! ### Padding codec (40_padding.md) -/

/-- What Pad appends under each scheme (R101 to R106), and the only way it raises (R102).
That the count byte of a count over 255, where R101 gives none, holds the count modulo 256 is the model's choice (log entry
19). -/
def Obligations.PadAppends : Prop :=
  ∀ (D filler : Bytes) (P : Nat),
    (D.length % P = 0 → pad .nopad filler D P = .ok D) ∧
    (D.length % P ≠ 0 → pad .nopad filler D P = .error .invalidDataLength) ∧
    pad .pkcs7 filler D P = .ok (D ++ rep (P - D.length % P) (BitVec.ofNat 8 (P - D.length % P))) ∧
    pad .zeros filler D P = .ok (D ++ zeros ((P - D.length % P) % P)) ∧
    pad .ansix923 filler D P =
      .ok (D ++ zeros (P - D.length % P - 1) ++ [BitVec.ofNat 8 (P - D.length % P)]) ∧
    pad .iso10126 filler D P = .ok (D ++ filler ++ [BitVec.ofNat 8 (P - D.length % P)])

/-- Padded data is a whole number of padding units (R109 (a)). -/
def Obligations.PaddedLengthIsWhole : Prop :=
  ∀ (p : Padding) (filler D Dp : Bytes) (P : Nat), 1 ≤ P → filler.length = fillerCount p D.length P →
    pad p filler D P = .ok Dp → Dp.length % P = 0

/-- Unpad undoes Pad: exactly for PKCS7, ANSIX923, ISO10126 (under every draw) and None; with the added zeros kept for Zeros
(R109 (b) to (d)). The count of a counted padding must fit a byte (R101). -/
def Obligations.UnpadUndoesPad : Prop :=
  ∀ (p : Padding) (filler D Dp : Bytes) (P : Nat), 1 ≤ P → P ≤ 255 → filler.length = fillerCount p D.length P →
    pad p filler D P = .ok Dp →
    (p ≠ .zeros → unpad p Dp P = .ok D) ∧
    (p = .zeros → unpad p Dp P = .ok (D ++ zeros ((P - D.length % P) % P)))

/-- Unpad of PKCS7 accepts exactly the data that ends in `n` bytes of value `n` with `1 ≤ n ≤ P`, and strips them (R104, R107). -/
def Obligations.UnpadPkcs7Accepts : Prop :=
  ∀ (D Z : Bytes) (P : Nat), P ≤ D.length →
    (unpad .pkcs7 D P = .ok Z ↔ ∃ n : Nat, 1 ≤ n ∧ n ≤ P ∧ n ≤ 255 ∧ D = Z ++ rep n (BitVec.ofNat 8 n)) ∧
    ((∀ Z', unpad .pkcs7 D P ≠ .ok Z') → unpad .pkcs7 D P = .error .invalidPadding)

/-- Unpad of ANSIX923 accepts exactly the data that ends in `n − 1` zeros and the byte `n`, and Unpad of ISO10126 exactly the
data that ends in a byte `n`, with `1 ≤ n ≤ P`; both strip `n` bytes (R105, R106, R107). -/
def Obligations.UnpadCountedAccepts : Prop :=
  ∀ (D Z : Bytes) (P : Nat), P ≤ D.length →
    (unpad .ansix923 D P = .ok Z ↔
      ∃ n : Nat, 1 ≤ n ∧ n ≤ P ∧ n ≤ 255 ∧ D = Z ++ zeros (n - 1) ++ [BitVec.ofNat 8 n]) ∧
    (unpad .iso10126 D P = .ok Z ↔
      ∃ (n : Nat) (F : Bytes), 1 ≤ n ∧ n ≤ P ∧ n ≤ 255 ∧ F.length = n - 1 ∧ D = Z ++ F ++ [BitVec.ofNat 8 n])

/-- Unpad of the empty string raises InvalidPadding under the counted paddings and answers it under None and Zeros; Zeros and
None strip nothing (R102, R103, R107 (a), R108). -/
def Obligations.UnpadEmptyAndZeros : Prop :=
  ∀ (D : Bytes) (P : Nat),
    unpad .pkcs7 [] P = .error .invalidPadding ∧ unpad .ansix923 [] P = .error .invalidPadding ∧
    unpad .iso10126 [] P = .error .invalidPadding ∧ unpad .nopad D P = .ok D ∧ unpad .zeros D P = .ok D

/-! ### Mode engine (41_mode_engine.md) -/

/-- The output segment and the new chaining register of each mode, for any primitive (R123 to R129). -/
def Obligations.ModeStepEquations : Prop :=
  ∀ (ext : Externals) (K c x : Bytes),
    modeStep ext .ecb .encrypt K c x = (ext.enc K x, c) ∧
    modeStep ext .ecb .decrypt K c x = (ext.dec K x, c) ∧
    modeStep ext .cbc .encrypt K c x = (ext.enc K (xorBytes x c), ext.enc K (xorBytes x c)) ∧
    modeStep ext .cbc .decrypt K c x = (xorBytes (ext.dec K x) c, x) ∧
    (modeStep ext .cfb .encrypt K c x).1 = xorBytes x ((ext.enc K c).take x.length) ∧
    (modeStep ext .cfb .encrypt K c x).2 = c.drop x.length ++ (modeStep ext .cfb .encrypt K c x).1 ∧
    modeStep ext .cfb .decrypt K c x = (xorBytes x ((ext.enc K c).take x.length), c.drop x.length ++ x) ∧
    modeStep ext .ofb .encrypt K c x = (xorBytes x (ext.enc K c), ext.enc K c) ∧
    modeStep ext .ofb .decrypt K c x = modeStep ext .ofb .encrypt K c x

/-- Run of nothing gives the register back, Run of one segment is one Step, and running two pieces in turn, the second from the
register the first left, equals one run over both: so Run applies Step to the segments in order (R130). -/
def Obligations.RunOverSegments : Prop :=
  ∀ (ext : Externals) (m : Mode) (d : Direction) (K : Bytes) (u : Nat) (c : Bytes),
    runMode ext m d K u c [] = ([], c) ∧
    (∀ x : Bytes, 1 ≤ u → x.length = u → runMode ext m d K u c x = modeStep ext m d K c x) ∧
    ∀ X X' : Bytes, X.length % u = 0 →
      runMode ext m d K u c (X ++ X') =
        ((runMode ext m d K u c X).1 ++ (runMode ext m d K u (runMode ext m d K u c X).2 X').1,
          (runMode ext m d K u (runMode ext m d K u c X).2 X').2)

/-- Full-block CFB treats the block as one segment: the register becomes the ciphertext in both directions (R131). -/
def Obligations.FullBlockCfb : Prop :=
  ∀ (ext : Externals) (K c x : Bytes), c.length = x.length → (ext.enc K c).length = c.length →
    modeStep ext .cfb .encrypt K c x = (xorBytes x (ext.enc K c), xorBytes x (ext.enc K c)) ∧
    modeStep ext .cfb .decrypt K c x = (xorBytes x (ext.enc K c), x)

/-- Decrypting what was encrypted from the same register gives the data back, with the final registers R132 names, for every
mode, legal key and legal block size (R7, R132). -/
def Obligations.DecryptUndoesEncrypt : Prop :=
  ∀ (p : Params) (m : Mode) (K c0 X Y c1 : Bytes) (u B : Nat), legalBytes p.keySizes K.length = true →
    legalBytes p.blockSizes B = true → u ≤ B → (m ≠ .cfb → u = B) → c0.length = B → X.length % u = 0 →
    runMode (externals p) m .encrypt K u c0 X = (Y, c1) →
    ∃ c2, runMode (externals p) m .decrypt K u c0 Y = (X, c2) ∧ c2 = c1 ∧ (m = .ecb → c1 = c0)

/-- What a decryptor's TFINAL removes is what an encryptor's TFINAL with the same key, register and sizes added: the plaintext
comes back, with the added zeros under Zeros (R163, for a message given to TFINAL in one chunk). -/
def Obligations.FinalDecryptUndoesFinalEncrypt : Prop :=
  ∀ (p : Params) (m : Mode) (pd : Padding) (sl : Slot) (filler D C : Bytes), paramsLawful p = true →
    SnapshotLawful p sl m pd → legalBytes p.keySizes sl.key.length = true → sl.chain.length = blockBytes sl →
    filler.length = fillerCount pd D.length (blockBytes sl) →
    finalEncrypt (externals p) m pd sl filler D = .ok C →
    blockBytes sl ≤ 255 →
    (pd ≠ .zeros → finalDecrypt (externals p) m pd sl C = .ok D) ∧
    (pd = .zeros → finalDecrypt (externals p) m pd sl C =
      .ok (D ++ zeros ((blockBytes sl - D.length % blockBytes sl) % blockBytes sl)))
end

