-- ==== Sys2Proof/Laws/Operands.lean ====
section
/-! SUPPORT. What the operand forms can answer (20_memory.md R52, R53; 42_streaming.md R140, R141; 43_config.md R180). -/

namespace Sys2Proof.Machine

theorem u32_lt (w : Word) : u32 w < 2 ^ 32 := w.isLt

/-- A buffer operand that is not null answers exactly when its length is not negative and it does not wrap (R52). -/
theorem bufferRange_ok_iff {a l : Word} {b : Buffer} :
    bufferRange a l = .ok b ↔ 0 ≤ s32 l ∧ (u32 a : Int) + s32 l ≤ 2 ^ 32 ∧ b = ⟨u32 a, (s32 l).toNat⟩ := by
  unfold bufferRange
  split
  · simp; omega
  · split
    · simp; omega
    · simp only [Except.ok.injEq]
      constructor
      · rintro rfl; exact ⟨by omega, by omega, rfl⟩
      · rintro ⟨-, -, rfl⟩; rfl

/-- A buffer operand answers exactly when it is not null, its length is not negative and it does not wrap (R52). -/
theorem bufferOperand_ok_iff {n : Bool} {a l : Word} {b : Buffer} :
    bufferOperand n a l = .ok b ↔
      n = false ∧ 0 ≤ s32 l ∧ (u32 a : Int) + s32 l ≤ 2 ^ 32 ∧ b = ⟨u32 a, (s32 l).toNat⟩ := by
  cases n
  · simp [bufferOperand, bufferRange_ok_iff]
  · simp [bufferOperand]

/-- A buffer lies inside the 2^32 host addresses (R50, R52). -/
theorem bufferRange_inside {a l : Word} {b : Buffer} (h : bufferRange a l = .ok b) : b.addr + b.len ≤ 2 ^ 32 := by
  obtain ⟨h1, h2, rfl⟩ := bufferRange_ok_iff.mp h
  simp only
  omega

theorem bufferOperand_inside {n : Bool} {a l : Word} {b : Buffer} (h : bufferOperand n a l = .ok b) :
    b.addr + b.len ≤ 2 ^ 32 := by
  obtain ⟨-, h1, h2, rfl⟩ := bufferOperand_ok_iff.mp h
  simp only
  omega

/-- The operands of TBLOCK and TFINAL answer exactly when none of R140's seven checks fails. -/
theorem transformOperands_ok_iff {n0 n1 : Bool} {s : State} {o : TransformOperands} :
    transformOperands n0 n1 s = .ok o ↔
      n0 = false ∧ n1 = false ∧ 0 ≤ s32 s.args.arg1 ∧ 0 ≤ s32 s.args.arg5 ∧ 0 ≤ s32 s.args.arg2 ∧
        0 ≤ s32 s.args.arg3 ∧ 0 ≤ s32 s.args.arg6 ∧ (u32 s.args.arg0 : Int) + s32 s.args.arg1 ≤ 2 ^ 32 ∧
        (u32 s.args.arg4 : Int) + s32 s.args.arg5 ≤ 2 ^ 32 ∧
        s32 s.args.arg2 + s32 s.args.arg3 ≤ s32 s.args.arg1 ∧
        o = { inAddr := u32 s.args.arg0 + (s32 s.args.arg2).toNat, inCount := (s32 s.args.arg3).toNat
              outA := u32 s.args.arg4, outL := (s32 s.args.arg5).toNat, outOff := (s32 s.args.arg6).toNat } := by
  cases n0
  · cases n1
    · simp only [transformOperands, Bool.false_eq_true, if_false]
      split
      · simp; omega
      · split
        · simp; omega
        · split
          · simp; omega
          · split
            · simp; omega
            · split
              · simp; omega
              · simp only [Except.ok.injEq, true_and]
                constructor
                · rintro rfl
                  refine ⟨?_, ?_, ?_, ?_, ?_, ?_, ?_, ?_, rfl⟩ <;> omega
                · rintro ⟨-, -, -, -, -, -, -, -, rfl⟩; rfl
    · simp [transformOperands]
  · simp [transformOperands]

/-- The output range of a transform command that fits its buffer lies inside the host addresses (R50, R53). -/
theorem outputRange_inside {n0 n1 : Bool} {s : State} {o : TransformOperands} {k : Nat}
    (h : transformOperands n0 n1 s = .ok o) (hk : outputOverflows o k = false) : outputAddress o + k ≤ 2 ^ 32 := by
  obtain ⟨-, -, -, h5, -, -, h6, -, h8, -, rfl⟩ := transformOperands_ok_iff.mp h
  simp only [outputOverflows, gt_iff_lt, decide_eq_false_iff_not, not_lt] at hk
  simp only [outputAddress]
  omega

/-- An explicit key answers a buffer of a legal size when KX is 1 and none when KX is 0 (R77, R180). -/
theorem explicitKey_ok_iff {kx n0 : Bool} {s : State} {kb : Option Buffer} :
    explicitKey kx n0 s = .ok kb ↔
      (kx = false ∧ kb = none) ∨
        (kx = true ∧ n0 = false ∧ ∃ b, bufferRange s.args.arg0 s.args.arg1 = .ok b ∧
          legalBytes s.params.keySizes b.len = true ∧ kb = some b) := by
  cases kx with
  | false => simp [explicitKey, @eq_comm _ kb none]
  | true =>
    cases n0 with
    | true => simp [explicitKey]
    | false =>
      simp only [explicitKey, if_true, Bool.false_eq_true, if_false]
      cases bufferRange s.args.arg0 s.args.arg1 with
      | error e => simp
      | ok b => by_cases hl : legalBytes s.params.keySizes b.len = true <;> simp [hl, @eq_comm _ kb]

/-- An explicit IV answers a buffer of one block when IX is 1 and none when IX is 0 (R77, R180). -/
theorem explicitIV_ok_iff {ix n1 : Bool} {s : State} {ib : Option Buffer} :
    explicitIV ix n1 s = .ok ib ↔
      (ix = false ∧ ib = none) ∨
        (ix = true ∧ n1 = false ∧ ∃ b, bufferRange s.args.arg2 s.args.arg3 = .ok b ∧
          b.len = s.cfg.blockBits.toNat / 8 ∧ ib = some b) := by
  cases ix with
  | false => simp [explicitIV, @eq_comm _ ib none]
  | true =>
    cases n1 with
    | true => simp [explicitIV]
    | false =>
      simp only [explicitIV, if_true, Bool.false_eq_true, if_false]
      cases bufferRange s.args.arg2 s.args.arg3 with
      | error e => simp
      | ok b => by_cases hl : b.len = s.cfg.blockBits.toNat / 8 <;> simp [hl, @eq_comm _ ib]

theorem slotExists_iff (s : State) (n : Nat) : slotExists s n = true ↔ n < s.params.numSlots := by
  simp [slotExists]

/-- A live transform is Active and has a mode and a padding. -/
theorem liveTransform_iff {sl : Slot} {m : Mode} {p : Padding} :
    liveTransform sl = some (m, p) ↔ sl.st = .active ∧ sl.mode = some m ∧ sl.padding = some p := by
  unfold liveTransform
  split
  · next h1 h2 h3 => simp [h1, h2, h3]
  · next h =>
    constructor
    · simp
    · rintro ⟨h1, h2, h3⟩
      exact absurd h3 (h m p h1 h2)

/-- Reading back the slot that was replaced. -/
theorem getSlot_setSlot (s : State) {n : Nat} (sl : Slot) (hn : n < s.slots.length) : getSlot (setSlot s n sl) n = sl := by
  simp [getSlot, setSlot, hn]

/-- Replacing a slot leaves every other slot alone (R47). -/
theorem getSlot_setSlot_ne (s : State) {n k : Nat} (sl : Slot) (hk : k ≠ n) :
    getSlot (setSlot s n sl) k = getSlot s k := by
  simp [getSlot, setSlot, List.getD, List.getElem?_set_ne (Ne.symm hk)]

/-- A slot of the list is one of its members. -/
theorem getSlot_mem {s : State} {n : Nat} (hn : n < s.slots.length) : getSlot s n ∈ s.slots := by
  simp [getSlot, List.getD, hn]

end Sys2Proof.Machine
end

