-- ==== Sys2Proof/Laws/State.lean ====
section
/-! SUPPORT. One lemma per field per update of the state, true by definition, so that no later proof unfolds an update. -/

namespace Sys2Proof.Machine

/-! ### withCfg -/

@[simp] theorem withCfg_params (s : State) (c : Cfg) :
    (withCfg s c).params = s.params := rfl
@[simp] theorem withCfg_cfg (s : State) (c : Cfg) :
    (withCfg s c).cfg = c := rfl
@[simp] theorem withCfg_slots (s : State) (c : Cfg) :
    (withCfg s c).slots = s.slots := rfl
@[simp] theorem withCfg_args (s : State) (c : Cfg) :
    (withCfg s c).args = s.args := rfl
@[simp] theorem withCfg_err (s : State) (c : Cfg) :
    (withCfg s c).err = s.err := rfl
@[simp] theorem withCfg_result0 (s : State) (c : Cfg) :
    (withCfg s c).result0 = s.result0 := rfl
@[simp] theorem withCfg_result1 (s : State) (c : Cfg) :
    (withCfg s c).result1 = s.result1 := rfl
@[simp] theorem withCfg_mem (s : State) (c : Cfg) :
    (withCfg s c).mem = s.mem := rfl
@[simp] theorem withCfg_draws (s : State) (c : Cfg) :
    (withCfg s c).draws = s.draws := rfl
@[simp] theorem withCfg_pending (s : State) (c : Cfg) :
    (withCfg s c).pending = s.pending := rfl
@[simp] theorem withCfg_lastRead (s : State) (c : Cfg) :
    (withCfg s c).lastRead = s.lastRead := rfl

/-! ### setSlot -/

@[simp] theorem setSlot_params (s : State) (n : Nat) (sl : Slot) :
    (setSlot s n sl).params = s.params := rfl
@[simp] theorem setSlot_cfg (s : State) (n : Nat) (sl : Slot) :
    (setSlot s n sl).cfg = s.cfg := rfl
@[simp] theorem setSlot_slots (s : State) (n : Nat) (sl : Slot) :
    (setSlot s n sl).slots = s.slots.set n sl := rfl
@[simp] theorem setSlot_args (s : State) (n : Nat) (sl : Slot) :
    (setSlot s n sl).args = s.args := rfl
@[simp] theorem setSlot_err (s : State) (n : Nat) (sl : Slot) :
    (setSlot s n sl).err = s.err := rfl
@[simp] theorem setSlot_result0 (s : State) (n : Nat) (sl : Slot) :
    (setSlot s n sl).result0 = s.result0 := rfl
@[simp] theorem setSlot_result1 (s : State) (n : Nat) (sl : Slot) :
    (setSlot s n sl).result1 = s.result1 := rfl
@[simp] theorem setSlot_mem (s : State) (n : Nat) (sl : Slot) :
    (setSlot s n sl).mem = s.mem := rfl
@[simp] theorem setSlot_draws (s : State) (n : Nat) (sl : Slot) :
    (setSlot s n sl).draws = s.draws := rfl
@[simp] theorem setSlot_pending (s : State) (n : Nat) (sl : Slot) :
    (setSlot s n sl).pending = s.pending := rfl
@[simp] theorem setSlot_lastRead (s : State) (n : Nat) (sl : Slot) :
    (setSlot s n sl).lastRead = s.lastRead := rfl

/-! ### raise -/

@[simp] theorem raise_params (e : ErrorKind) (s : State) :
    (raise e s).params = s.params := rfl
@[simp] theorem raise_cfg (e : ErrorKind) (s : State) :
    (raise e s).cfg = s.cfg := rfl
@[simp] theorem raise_slots (e : ErrorKind) (s : State) :
    (raise e s).slots = s.slots := rfl
@[simp] theorem raise_args (e : ErrorKind) (s : State) :
    (raise e s).args = s.args := rfl
@[simp] theorem raise_err (e : ErrorKind) (s : State) :
    (raise e s).err = errorCode e := rfl
@[simp] theorem raise_result0 (e : ErrorKind) (s : State) :
    (raise e s).result0 = 0 := rfl
@[simp] theorem raise_result1 (e : ErrorKind) (s : State) :
    (raise e s).result1 = 0 := rfl
@[simp] theorem raise_mem (e : ErrorKind) (s : State) :
    (raise e s).mem = s.mem := rfl
@[simp] theorem raise_draws (e : ErrorKind) (s : State) :
    (raise e s).draws = s.draws := rfl
@[simp] theorem raise_pending (e : ErrorKind) (s : State) :
    (raise e s).pending = s.pending := rfl
@[simp] theorem raise_lastRead (e : ErrorKind) (s : State) :
    (raise e s).lastRead = s.lastRead := rfl

/-! ### complete -/

@[simp] theorem complete_params (c : Completed) :
    (complete c).params = c.state.params := rfl
@[simp] theorem complete_cfg (c : Completed) :
    (complete c).cfg = c.state.cfg := rfl
@[simp] theorem complete_slots (c : Completed) :
    (complete c).slots = c.state.slots := rfl
@[simp] theorem complete_args (c : Completed) :
    (complete c).args = c.state.args := rfl
@[simp] theorem complete_err (c : Completed) :
    (complete c).err = 0 := rfl
@[simp] theorem complete_result0 (c : Completed) :
    (complete c).result0 = c.r0 := rfl
@[simp] theorem complete_result1 (c : Completed) :
    (complete c).result1 = c.r1 := rfl
@[simp] theorem complete_mem (c : Completed) :
    (complete c).mem = c.state.mem := rfl
@[simp] theorem complete_draws (c : Completed) :
    (complete c).draws = c.state.draws := rfl
@[simp] theorem complete_pending (c : Completed) :
    (complete c).pending = c.state.pending := rfl
@[simp] theorem complete_lastRead (c : Completed) :
    (complete c).lastRead = c.state.lastRead := rfl

/-! ### platformReset -/

@[simp] theorem platformReset_params (s : State) :
    (platformReset s).params = s.params := rfl
@[simp] theorem platformReset_cfg (s : State) :
    (platformReset s).cfg = resetCfg s.params s.draws := rfl
@[simp] theorem platformReset_slots (s : State) :
    (platformReset s).slots = List.replicate s.params.numSlots (freshSlot s.params) := rfl
@[simp] theorem platformReset_args (s : State) :
    (platformReset s).args = zeroArgs := rfl
@[simp] theorem platformReset_err (s : State) :
    (platformReset s).err = 0 := rfl
@[simp] theorem platformReset_result0 (s : State) :
    (platformReset s).result0 = 0 := rfl
@[simp] theorem platformReset_result1 (s : State) :
    (platformReset s).result1 = 0 := rfl
@[simp] theorem platformReset_mem (s : State) :
    (platformReset s).mem = s.mem := rfl
@[simp] theorem platformReset_draws (s : State) :
    (platformReset s).draws = s.draws + s.params.defaultKeyBits / 8 + s.params.defaultBlockBits / 8 := rfl
@[simp] theorem platformReset_pending (s : State) :
    (platformReset s).pending = s.pending := rfl
@[simp] theorem platformReset_lastRead (s : State) :
    (platformReset s).lastRead = s.lastRead := rfl

/-! ### windowRead, hostLoad -/

@[simp] theorem windowRead_params (s : State) (o : BitVec 12) (w : Nat) :
    (windowRead s o w).params = s.params := rfl
@[simp] theorem windowRead_cfg (s : State) (o : BitVec 12) (w : Nat) :
    (windowRead s o w).cfg = s.cfg := rfl
@[simp] theorem windowRead_slots (s : State) (o : BitVec 12) (w : Nat) :
    (windowRead s o w).slots = s.slots := rfl
@[simp] theorem windowRead_args (s : State) (o : BitVec 12) (w : Nat) :
    (windowRead s o w).args = s.args := rfl
@[simp] theorem windowRead_err (s : State) (o : BitVec 12) (w : Nat) :
    (windowRead s o w).err = s.err := rfl
@[simp] theorem windowRead_result0 (s : State) (o : BitVec 12) (w : Nat) :
    (windowRead s o w).result0 = s.result0 := rfl
@[simp] theorem windowRead_result1 (s : State) (o : BitVec 12) (w : Nat) :
    (windowRead s o w).result1 = s.result1 := rfl
@[simp] theorem windowRead_mem (s : State) (o : BitVec 12) (w : Nat) :
    (windowRead s o w).mem = s.mem := rfl
@[simp] theorem windowRead_draws (s : State) (o : BitVec 12) (w : Nat) :
    (windowRead s o w).draws = s.draws := rfl
@[simp] theorem windowRead_pending (s : State) (o : BitVec 12) (w : Nat) :
    (windowRead s o w).pending = s.pending := rfl
@[simp] theorem hostLoad_params (s : State) (a : Word) :
    (hostLoad s a).params = s.params := rfl
@[simp] theorem hostLoad_cfg (s : State) (a : Word) :
    (hostLoad s a).cfg = s.cfg := rfl
@[simp] theorem hostLoad_slots (s : State) (a : Word) :
    (hostLoad s a).slots = s.slots := rfl
@[simp] theorem hostLoad_args (s : State) (a : Word) :
    (hostLoad s a).args = s.args := rfl
@[simp] theorem hostLoad_err (s : State) (a : Word) :
    (hostLoad s a).err = s.err := rfl
@[simp] theorem hostLoad_result0 (s : State) (a : Word) :
    (hostLoad s a).result0 = s.result0 := rfl
@[simp] theorem hostLoad_result1 (s : State) (a : Word) :
    (hostLoad s a).result1 = s.result1 := rfl
@[simp] theorem hostLoad_mem (s : State) (a : Word) :
    (hostLoad s a).mem = s.mem := rfl
@[simp] theorem hostLoad_draws (s : State) (a : Word) :
    (hostLoad s a).draws = s.draws := rfl
@[simp] theorem hostLoad_pending (s : State) (a : Word) :
    (hostLoad s a).pending = s.pending := rfl

/-! ### hostStore: host memory is all it can change -/

@[simp] theorem hostStore_params (s : State) (a : Word) (v : Byte) : (hostStore s a v).params = s.params := by
  unfold hostStore; split <;> rfl
@[simp] theorem hostStore_cfg (s : State) (a : Word) (v : Byte) : (hostStore s a v).cfg = s.cfg := by
  unfold hostStore; split <;> rfl
@[simp] theorem hostStore_slots (s : State) (a : Word) (v : Byte) : (hostStore s a v).slots = s.slots := by
  unfold hostStore; split <;> rfl
@[simp] theorem hostStore_args (s : State) (a : Word) (v : Byte) : (hostStore s a v).args = s.args := by
  unfold hostStore; split <;> rfl
@[simp] theorem hostStore_err (s : State) (a : Word) (v : Byte) : (hostStore s a v).err = s.err := by
  unfold hostStore; split <;> rfl
@[simp] theorem hostStore_result0 (s : State) (a : Word) (v : Byte) : (hostStore s a v).result0 = s.result0 := by
  unfold hostStore; split <;> rfl
@[simp] theorem hostStore_result1 (s : State) (a : Word) (v : Byte) : (hostStore s a v).result1 = s.result1 := by
  unfold hostStore; split <;> rfl
@[simp] theorem hostStore_draws (s : State) (a : Word) (v : Byte) : (hostStore s a v).draws = s.draws := by
  unfold hostStore; split <;> rfl
@[simp] theorem hostStore_pending (s : State) (a : Word) (v : Byte) : (hostStore s a v).pending = s.pending := by
  unfold hostStore; split <;> rfl
@[simp] theorem hostStore_lastRead (s : State) (a : Word) (v : Byte) : (hostStore s a v).lastRead = s.lastRead := by
  unfold hostStore; split <;> rfl

/-! ### writeRegister: the argument registers are all it can change -/

@[simp] theorem writeRegister_params (s : State) (o : BitVec 12) (v : Word) : (writeRegister s o v).params = s.params := by
  unfold writeRegister; split <;> rfl
@[simp] theorem writeRegister_cfg (s : State) (o : BitVec 12) (v : Word) : (writeRegister s o v).cfg = s.cfg := by
  unfold writeRegister; split <;> rfl
@[simp] theorem writeRegister_slots (s : State) (o : BitVec 12) (v : Word) : (writeRegister s o v).slots = s.slots := by
  unfold writeRegister; split <;> rfl
@[simp] theorem writeRegister_err (s : State) (o : BitVec 12) (v : Word) : (writeRegister s o v).err = s.err := by
  unfold writeRegister; split <;> rfl
@[simp] theorem writeRegister_result0 (s : State) (o : BitVec 12) (v : Word) : (writeRegister s o v).result0 = s.result0 := by
  unfold writeRegister; split <;> rfl
@[simp] theorem writeRegister_result1 (s : State) (o : BitVec 12) (v : Word) : (writeRegister s o v).result1 = s.result1 := by
  unfold writeRegister; split <;> rfl
@[simp] theorem writeRegister_mem (s : State) (o : BitVec 12) (v : Word) : (writeRegister s o v).mem = s.mem := by
  unfold writeRegister; split <;> rfl
@[simp] theorem writeRegister_draws (s : State) (o : BitVec 12) (v : Word) : (writeRegister s o v).draws = s.draws := by
  unfold writeRegister; split <;> rfl
@[simp] theorem writeRegister_pending (s : State) (o : BitVec 12) (v : Word) : (writeRegister s o v).pending = s.pending := by
  unfold writeRegister; split <;> rfl
@[simp] theorem writeRegister_lastRead (s : State) (o : BitVec 12) (v : Word) : (writeRegister s o v).lastRead = s.lastRead := by
  unfold writeRegister; split <;> rfl

/-! ### erasedSlot -/

@[simp] theorem erasedSlot_st (sl : Slot) (st : SlotState) :
    (erasedSlot sl st).st = st := rfl
@[simp] theorem erasedSlot_dir (sl : Slot) (st : SlotState) :
    (erasedSlot sl st).dir = sl.dir := rfl
@[simp] theorem erasedSlot_mode (sl : Slot) (st : SlotState) :
    (erasedSlot sl st).mode = sl.mode := rfl
@[simp] theorem erasedSlot_padding (sl : Slot) (st : SlotState) :
    (erasedSlot sl st).padding = sl.padding := rfl
@[simp] theorem erasedSlot_blockBits (sl : Slot) (st : SlotState) :
    (erasedSlot sl st).blockBits = sl.blockBits := rfl
@[simp] theorem erasedSlot_fbBits (sl : Slot) (st : SlotState) :
    (erasedSlot sl st).fbBits = sl.fbBits := rfl
@[simp] theorem erasedSlot_u (sl : Slot) (st : SlotState) :
    (erasedSlot sl st).u = sl.u := rfl
@[simp] theorem erasedSlot_key (sl : Slot) (st : SlotState) :
    (erasedSlot sl st).key = zeros sl.key.length := rfl
@[simp] theorem erasedSlot_chain (sl : Slot) (st : SlotState) :
    (erasedSlot sl st).chain = zeros sl.chain.length := rfl
@[simp] theorem erasedSlot_ibuf (sl : Slot) (st : SlotState) :
    (erasedSlot sl st).ibuf = [] := rfl

/-! ### createdSlot -/

@[simp] theorem createdSlot_st (c : Cfg) (d : Direction) (K IV : Bytes) :
    (createdSlot c d K IV).st = .active := rfl
@[simp] theorem createdSlot_dir (c : Cfg) (d : Direction) (K IV : Bytes) :
    (createdSlot c d K IV).dir = d := rfl
@[simp] theorem createdSlot_mode (c : Cfg) (d : Direction) (K IV : Bytes) :
    (createdSlot c d K IV).mode = some c.mode := rfl
@[simp] theorem createdSlot_padding (c : Cfg) (d : Direction) (K IV : Bytes) :
    (createdSlot c d K IV).padding = some c.padding := rfl
@[simp] theorem createdSlot_blockBits (c : Cfg) (d : Direction) (K IV : Bytes) :
    (createdSlot c d K IV).blockBits = c.blockBits := rfl
@[simp] theorem createdSlot_fbBits (c : Cfg) (d : Direction) (K IV : Bytes) :
    (createdSlot c d K IV).fbBits = c.feedbackBits := rfl
@[simp] theorem createdSlot_u (c : Cfg) (d : Direction) (K IV : Bytes) :
    (createdSlot c d K IV).u = segmentSize c.mode c.blockBits.toNat c.feedbackBits.toNat := rfl
@[simp] theorem createdSlot_key (c : Cfg) (d : Direction) (K IV : Bytes) :
    (createdSlot c d K IV).key = K := rfl
@[simp] theorem createdSlot_chain (c : Cfg) (d : Direction) (K IV : Bytes) :
    (createdSlot c d K IV).chain = IV := rfl
@[simp] theorem createdSlot_ibuf (c : Cfg) (d : Direction) (K IV : Bytes) :
    (createdSlot c d K IV).ibuf = [] := rfl

end Sys2Proof.Machine
end

