-- ==== Sys2Proof/Laws/Commands.lean ====
section
/-! SUPPORT. What each command can do, said once: how a command's outcome is reported (60_exceptions.md R201), and for each
command the conditions under which it commits and what it then commits. -/

namespace Sys2Proof.Machine

/-- The outcome of each command before it is reported. -/
def resultOf (i : Instr) (s : State) : Result :=
  match i with
  | .setmode => setmodeResult s
  | .setpadding => setpaddingResult s
  | .setkeysize => setkeysizeResult (externals s.params) s
  | .setblocksize => setblocksizeResult (externals s.params) s
  | .setfeedback => setfeedbackResult s
  | .setkey n0 => setkeyResult (externals s.params) n0 s
  | .setiv n0 => setivResult n0 s
  | .getkey n0 => copyOut s.cfg.key n0 s
  | .getiv n0 => copyOut s.cfg.iv n0 s
  | .crenc slot n0 n1 kx ix => creationResult (externals s.params) .encrypt slot n0 n1 kx ix s
  | .crdec slot n0 n1 kx ix => creationResult (externals s.params) .decrypt slot n0 n1 kx ix s
  | .tblock slot n0 n1 => tblockResult (externals s.params) slot n0 n1 s
  | .tfinal slot n0 n1 => tfinalResult (externals s.params) slot n0 n1 s
  | .clear slot => clearResult slot s
  | .query slot => queryResult slot s

/-- Every command reports its outcome in the one way of R201. -/
theorem exec_eq_report (i : Instr) (s : State) : exec i s = report s (resultOf i s) := by
  cases i <;> rfl

@[simp] theorem report_error (s : State) (e : ErrorKind) : report s (.error e) = .next (raise e s) := rfl

@[simp] theorem report_ok (s : State) (c : Completed) : report s (.ok c) = .next (complete c) := rfl

/-- A command ends by raising an error over the state before it, or by completing (R201). -/
theorem report_next {s t : State} {r : Result} (h : report s r = .next t) :
    (∃ e, r = .error e ∧ t = raise e s) ∨ ∃ c, r = .ok c ∧ t = complete c := by
  cases r with
  | error e => exact .inl ⟨e, rfl, by simpa [eq_comm] using h⟩
  | ok c => exact .inr ⟨c, rfl, by simpa [eq_comm] using h⟩

/-- No command stops the engine (R201, R204). -/
theorem exec_next (i : Instr) (s : State) : ∃ t, exec i s = .next t := by
  rw [exec_eq_report]
  cases resultOf i s <;> exact ⟨_, rfl⟩

/-- SETMODE commits exactly on a mode value (R170). -/
theorem setmodeResult_ok {s : State} {c : Completed} (h : setmodeResult s = .ok c) :
    ∃ m, modeOfValue (scalarOperand s) = some m ∧ c = ⟨withCfg s { s.cfg with mode := m }, 0, 0⟩ := by
  unfold setmodeResult at h
  split at h
  · cases h
  · exact ⟨_, ‹_›, by simpa [eq_comm] using h⟩

/-- SETPADDING commits exactly on a padding value (R171). -/
theorem setpaddingResult_ok {s : State} {c : Completed} (h : setpaddingResult s = .ok c) :
    ∃ p, paddingOfValue (scalarOperand s) = some p ∧ c = ⟨withCfg s { s.cfg with padding := p }, 0, 0⟩ := by
  unfold setpaddingResult at h
  split at h
  · cases h
  · exact ⟨_, ‹_›, by simpa [eq_comm] using h⟩

/-- SETKEYSIZE commits exactly on a legal key size (R172). -/
theorem setkeysizeResult_ok {ext : Externals} {s : State} {c : Completed} (h : setkeysizeResult ext s = .ok c) :
    legal s.params.keySizes (scalarOperand s) = true ∧
      c = ⟨{ s with
              cfg := { s.cfg with
                key := ext.drawKey s.draws (scalarOperand s / 8).toNat
                keyBits := BitVec.ofInt 32 (scalarOperand s) }
              draws := s.draws + (scalarOperand s / 8).toNat }, 0, 0⟩ := by
  unfold setkeysizeResult at h
  split at h
  · exact ⟨‹_›, by simpa [eq_comm] using h⟩
  · cases h

/-- SETBLOCKSIZE commits exactly on a legal block size, and redraws the IV only where the size changes (R173). -/
theorem setblocksizeResult_ok {ext : Externals} {s : State} {c : Completed} (h : setblocksizeResult ext s = .ok c) :
    legal s.params.blockSizes (scalarOperand s) = true ∧
      ((scalarOperand s = (s.cfg.blockBits.toNat : Int) ∧ c = ⟨s, 0, 0⟩) ∨
        (scalarOperand s ≠ (s.cfg.blockBits.toNat : Int) ∧
          c = ⟨{ s with
                  cfg := { s.cfg with
                    blockBits := BitVec.ofInt 32 (scalarOperand s)
                    iv := ext.drawBytes s.draws (scalarOperand s / 8).toNat }
                  draws := s.draws + (scalarOperand s / 8).toNat }, 0, 0⟩)) := by
  unfold setblocksizeResult at h
  split at h
  · refine ⟨‹_›, ?_⟩
    split at h
    · exact .inl ⟨‹_›, by simpa [eq_comm] using h⟩
    · exact .inr ⟨‹_›, by simpa [eq_comm] using h⟩
  · cases h

/-- SETFEEDBACK commits exactly on a size from 1 to the block size (R174). -/
theorem setfeedbackResult_ok {s : State} {c : Completed} (h : setfeedbackResult s = .ok c) :
    1 ≤ scalarOperand s ∧ scalarOperand s ≤ (s.cfg.blockBits.toNat : Int) ∧
      c = ⟨withCfg s { s.cfg with feedbackBits := BitVec.ofInt 32 (scalarOperand s) }, 0, 0⟩ := by
  unfold setfeedbackResult at h
  split at h
  · cases h
  · exact ⟨by omega, by omega, by simpa [eq_comm] using h⟩

/-- SETKEY commits a legal, admitted key that is not weak (R175). -/
theorem setkeyResult_ok {ext : Externals} {n0 : Bool} {s : State} {c : Completed} (h : setkeyResult ext n0 s = .ok c) :
    ∃ b, fbBuffer n0 s = .ok b ∧ legalBytes s.params.keySizes b.len = true ∧
      admitsRange s.params .read b.addr b.len = true ∧ ext.isWeak (memRead s.mem b.addr b.len) = false ∧
      c = ⟨withCfg s { s.cfg with key := memRead s.mem b.addr b.len, keyBits := BitVec.ofNat 32 (8 * b.len) }, 0, 0⟩ := by
  unfold setkeyResult at h
  split at h
  · cases h
  · rename_i b hb
    refine ⟨b, hb, ?_⟩
    split at h
    · cases h
    · split at h
      · cases h
      · split at h
        · cases h
        · rename_i h1 h2 h3
          exact ⟨by simpa using h1, by simpa using h2, by simpa using h3, by simpa [eq_comm] using h⟩

/-- SETIV commits an admitted IV of one block (R176). -/
theorem setivResult_ok {n0 : Bool} {s : State} {c : Completed} (h : setivResult n0 s = .ok c) :
    ∃ b, fbBuffer n0 s = .ok b ∧ b.len = s.cfg.blockBits.toNat / 8 ∧
      admitsRange s.params .read b.addr b.len = true ∧
      c = ⟨withCfg s { s.cfg with iv := memRead s.mem b.addr b.len }, 0, 0⟩ := by
  unfold setivResult at h
  split at h
  · cases h
  · rename_i b hb
    refine ⟨b, hb, ?_⟩
    split at h
    · cases h
    · split at h
      · cases h
      · rename_i h1 h2
        exact ⟨by simpa using h1, by simpa using h2, by simpa [eq_comm] using h⟩

/-- GETKEY and GETIV commit a copy that fits the buffer and is admitted (R177, R178). -/
theorem copyOut_ok {data : Bytes} {n0 : Bool} {s : State} {c : Completed} (h : copyOut data n0 s = .ok c) :
    ∃ b, fbBuffer n0 s = .ok b ∧ data.length ≤ b.len ∧ admitsRange s.params .write b.addr data.length = true ∧
      c = ⟨{ s with mem := memWrite s.mem b.addr data }, BitVec.ofNat 32 data.length, 0⟩ := by
  unfold copyOut at h
  split at h
  · cases h
  · rename_i b hb
    refine ⟨b, hb, ?_⟩
    split at h
    · cases h
    · split at h
      · cases h
      · rename_i h1 h2
        exact ⟨by omega, by simpa using h2, by simpa [eq_comm] using h⟩

/-- The configuration passes creation's checks (R107, R180). -/
theorem creationCheck_ok_iff {s : State} :
    creationCheck s = .ok () ↔
      (s.cfg.mode = .cfb → s.cfg.feedbackBits.toNat ≤ s.cfg.blockBits.toNat ∧
          supportedCfb s.params s.cfg.blockBits.toNat s.cfg.feedbackBits.toNat = true) ∧
        (countedPadding s.cfg.padding = true → s.cfg.blockBits.toNat / 8 ≤ 255) := by
  unfold creationCheck
  split
  · next h => simp only [reduceCtorEq, false_iff, not_and]; intro h1; have := (h1 h.1).1; omega
  · next h0 =>
    split
    · next h => simp only [reduceCtorEq, false_iff, not_and]; intro h1; simp [(h1 h.1).2] at h
    · next h1 =>
      split
      · next h => simp only [reduceCtorEq, false_iff, not_and, not_forall]; exact fun _ => ⟨h.1, by omega⟩
      · next h2 =>
        simp only [true_iff]
        refine ⟨fun hm => ⟨?_, ?_⟩, fun hc => ?_⟩
        · exact Nat.le_of_not_lt fun h => h0 ⟨hm, h⟩
        · simpa [hm] using h1
        · exact Nat.le_of_not_lt fun h => h2 ⟨hc, h⟩

/-- Creation commits a fresh Active slot (R180). -/
theorem creationResult_ok {ext : Externals} {d : Direction} {slot : Nat} {n0 n1 kx ix : Bool} {s : State} {c : Completed}
    (h : creationResult ext d slot n0 n1 kx ix s = .ok c) :
    slot < s.params.numSlots ∧ ∃ kb ib, explicitKey kx n0 s = .ok kb ∧ explicitIV ix n1 s = .ok ib ∧
      creationCheck s = .ok () ∧ operandAdmitted s kb = true ∧ operandAdmitted s ib = true ∧
      (kx && ext.isWeak (operandOr s s.cfg.key kb)) = false ∧
      c = ⟨setSlot s slot (createdSlot s.cfg d (operandOr s s.cfg.key kb) (operandOr s s.cfg.iv ib)), 0, 0⟩ := by
  unfold creationResult at h
  split at h
  · cases h
  · rename_i hs
    refine ⟨(slotExists_iff s slot).mp (by simpa using hs), ?_⟩
    split at h
    · cases h
    · rename_i kb hk
      split at h
      · cases h
      · rename_i ib hi
        split at h
        · cases h
        · rename_i hc
          split at h
          · cases h
          · split at h
            · cases h
            · split at h
              · cases h
              · rename_i h1 h2 h3
                exact ⟨kb, ib, hk, hi, hc, by simpa using h1, by simpa using h2, by simpa using h3,
                  by simpa [eq_comm] using h⟩

/-- TBLOCK commits the output of Run over the input range and the final chaining register (R142). -/
theorem tblockResult_ok {ext : Externals} {slot : Nat} {n0 n1 : Bool} {s : State} {c : Completed}
    (h : tblockResult ext slot n0 n1 s = .ok c) :
    slot < s.params.numSlots ∧ ∃ m p o, liveTransform (getSlot s slot) = some (m, p) ∧
      transformOperands n0 n1 s = .ok o ∧ o.inCount % (getSlot s slot).u = 0 ∧
      admitsRange s.params .read o.inAddr o.inCount = true ∧ outputOverflows o o.inCount = false ∧
      admitsRange s.params .write (outputAddress o) o.inCount = true ∧
      c = ⟨{ setSlot s slot { getSlot s slot with
                chain := (runMode ext m (getSlot s slot).dir (getSlot s slot).key (getSlot s slot).u
                  (getSlot s slot).chain (memRead s.mem o.inAddr o.inCount)).2 } with
              mem := memWrite s.mem (outputAddress o)
                (runMode ext m (getSlot s slot).dir (getSlot s slot).key (getSlot s slot).u
                  (getSlot s slot).chain (memRead s.mem o.inAddr o.inCount)).1 },
            BitVec.ofNat 32 o.inCount, 0⟩ := by
  unfold tblockResult at h
  split at h
  · cases h
  · rename_i hs
    refine ⟨(slotExists_iff s slot).mp (by simpa using hs), ?_⟩
    split at h
    · cases h
    · rename_i m p hl
      split at h
      · cases h
      · rename_i o ho
        split at h
        · cases h
        · split at h
          · cases h
          · dsimp only at h
            split at h
            · cases h
            · split at h
              · cases h
              · rename_i h1 h2 h3 h4
                exact ⟨m, p, o, hl, ho, by simpa using h1, by simpa using h2, by simpa using h3, by simpa using h4,
                  by simpa [eq_comm] using h⟩

/-- TFINAL commits the final bytes and ends the transform (R150). -/
theorem tfinalResult_ok {ext : Externals} {slot : Nat} {n0 n1 : Bool} {s : State} {c : Completed}
    (h : tfinalResult ext slot n0 n1 s = .ok c) :
    slot < s.params.numSlots ∧ ∃ m p o Z, liveTransform (getSlot s slot) = some (m, p) ∧
      transformOperands n0 n1 s = .ok o ∧
      finalLengthBad p (getSlot s slot) ((getSlot s slot).ibuf.length + o.inCount) = false ∧
      admitsRange s.params .read o.inAddr o.inCount = true ∧
      finalBytes ext m p (getSlot s slot) s.draws ((getSlot s slot).ibuf ++ memRead s.mem o.inAddr o.inCount) = .ok Z ∧
      outputOverflows o Z.length = false ∧ admitsRange s.params .write (outputAddress o) Z.length = true ∧
      c = ⟨{ setSlot s slot (erasedSlot (getSlot s slot) .finalized) with
              mem := memWrite s.mem (outputAddress o) Z
              draws := s.draws + finalDraws p (getSlot s slot) ((getSlot s slot).ibuf.length + o.inCount) },
            BitVec.ofNat 32 Z.length, 0⟩ := by
  unfold tfinalResult at h
  split at h
  · cases h
  · rename_i hs
    refine ⟨(slotExists_iff s slot).mp (by simpa using hs), ?_⟩
    split at h
    · cases h
    · rename_i m p hl
      split at h
      · cases h
      · rename_i o ho
        split at h
        · cases h
        · split at h
          · cases h
          · rename_i h1 h2
            split at h
            · cases h
            · rename_i Z hZ
              split at h
              · cases h
              · split at h
                · cases h
                · rename_i h3 h4
                  exact ⟨m, p, o, Z, hl, ho, by simpa using h1, by simpa using h2, hZ, by simpa using h3,
                    by simpa using h4, by simpa [eq_comm] using h⟩

/-- CLEAR commits in every state of an existing slot (R160). -/
theorem clearResult_ok {slot : Nat} {s : State} {c : Completed} (h : clearResult slot s = .ok c) :
    slot < s.params.numSlots ∧ c = ⟨setSlot s slot (erasedSlot (getSlot s slot) .cleared), 0, 0⟩ := by
  unfold clearResult at h
  split at h
  · exact ⟨(slotExists_iff s slot).mp ‹_›, by simpa [eq_comm] using h⟩
  · cases h

/-- QUERY commits in every state of an existing slot and changes nothing but RESULT and STATUS (R162). -/
theorem queryResult_ok {slot : Nat} {s : State} {c : Completed} (h : queryResult slot s = .ok c) :
    slot < s.params.numSlots ∧ c = ⟨s, queryStateWord (getSlot s slot), querySizeWord (getSlot s slot).u⟩ := by
  unfold queryResult at h
  split at h
  · exact ⟨(slotExists_iff s slot).mp ‹_›, by simpa [eq_comm] using h⟩
  · cases h

/-- Every word written to CMD leads to a next state (R72, R201). -/
theorem runCommand_next (s : State) (w : Word) : ∃ t, runCommand s w = .next t := by
  unfold runCommand
  split
  · exact exec_next _ s
  · exact ⟨_, rfl⟩

/-- A reset that discards the command in progress is a reset alone (R220). -/
@[simp] theorem resetDuringCommand_discards (s : State) (w : Word) :
    resetDuringCommand s w false = .next (platformReset s) := rfl

/-- A reset that follows the command's commit resets the state the command leaves (R220). -/
theorem resetDuringCommand_commits {s t : State} {w : Word} (h : runCommand s w = .next t) :
    resetDuringCommand s w true = .next (platformReset t) := by
  simp [resetDuringCommand, h]

/-- A reset during a command answers the reset of the state before the command or of the state after it (R220). -/
theorem resetDuringCommand_cases (s : State) (w : Word) (commits : Bool) :
    ∃ t, resetDuringCommand s w commits = .next (platformReset t) ∧
      (commits = false ∧ t = s ∨ commits = true ∧ runCommand s w = .next t) := by
  cases commits with
  | false => exact ⟨s, rfl, .inl ⟨rfl, rfl⟩⟩
  | true =>
    obtain ⟨t, h⟩ := runCommand_next s w
    exact ⟨t, resetDuringCommand_commits h, .inr ⟨rfl, h⟩⟩

/-- The next state of a machine step: the event it takes, or none with none waiting (R212). -/
theorem step_cases (s : State) :
    (s.pending = [] ∧ nextEvent s = .next s) ∨
      ∃ e rest, s.pending = e :: rest ∧ nextEvent s = takeEvent { s with pending := rest } e := by
  unfold nextEvent
  split
  · exact .inl ⟨‹_›, rfl⟩
  · exact .inr ⟨_, _, ‹_›, rfl⟩

end Sys2Proof.Machine
end

