-- ==== Sys2Proof/Laws/Decode.lean ====
section
/-! SUPPORT. The bits and the fields of the word an encoding packs (30_encoding.md R71). -/

namespace Sys2Proof

/-- Bit `i` of a packed word is the bit of the field that stands there (R71). -/
theorem packWord_bit (op slot : Nat) (n0 n1 kx ix : Bool) (i : Nat) :
    (packWord op slot n0 n1 kx ix).getLsbD i =
      if i < 8 then op.testBit i else if i < 16 then slot.testBit (i - 8) else if i = 16 then n0 else if i = 17 then n1
      else if i = 18 then kx else if i = 19 then ix else false := by
  by_cases hi : i < 32
  · simp only [packWord, BitVec.getLsbD_or, BitVec.getLsbD_shiftLeft, BitVec.getLsbD_setWidth, BitVec.getLsbD_ofNat,
      BitVec.getLsbD_ofBool]
    interval_cases i <;> simp
  · rw [BitVec.getLsbD_of_ge _ _ (by omega)]
    simp [show ¬ i < 8 by omega, show ¬ i < 16 by omega, show i ≠ 16 by omega, show i ≠ 17 by omega,
      show i ≠ 18 by omega, show i ≠ 19 by omega]

/-- OP of a packed word. -/
theorem opcode_packWord (op slot : Nat) (n0 n1 kx ix : Bool) : opcode (packWord op slot n0 n1 kx ix) = op % 256 := by
  have h : (packWord op slot n0 n1 kx ix).extractLsb' 0 8 = BitVec.ofNat 8 op := by
    apply BitVec.eq_of_getLsbD_eq
    intro i hi
    simp [-BitVec.getLsbD_eq_getElem, packWord_bit, hi, BitVec.getLsbD_ofNat]
  simp [opcode, h]

/-- The other fields of a packed word. -/
theorem fieldsOf_packWord (op slot : Nat) (n0 n1 kx ix : Bool) :
    fieldsOf (packWord op slot n0 n1 kx ix) = ⟨slot % 256, n0, n1, kx, ix⟩ := by
  have h : (packWord op slot n0 n1 kx ix).extractLsb' 8 8 = BitVec.ofNat 8 slot := by
    apply BitVec.eq_of_getLsbD_eq
    intro i hi
    simp [-BitVec.getLsbD_eq_getElem, packWord_bit, hi, show 8 + i < 16 by omega, BitVec.getLsbD_ofNat]
  simp [-BitVec.getLsbD_eq_getElem, fieldsOf, h, packWord_bit]

/-- The bits of a byte from bit 8 on are 0. -/
theorem testBit_of_byte {op : Nat} (hop : op < 256) {i : Nat} (hi : 8 ≤ i) : op.testBit i = false :=
  Nat.testBit_lt_two_pow (lt_of_lt_of_le hop (Nat.pow_le_pow_right (n := 2) (by omega) hi))

/-- A packed word under a mask keeps OP when the mask keeps bits 7 to 0 and drops, or meets zeros in, every other field. -/
theorem packWord_and_mask {op : Nat} (hop : op < 256) (slot : Nat) (n0 n1 kx ix : Bool) (mask : Word)
    (hlow : ∀ i, i < 8 → mask.getLsbD i = true)
    (hhigh : ∀ i, 8 ≤ i → i < 32 → ((packWord op slot n0 n1 kx ix).getLsbD i && mask.getLsbD i) = false) :
    packWord op slot n0 n1 kx ix &&& mask = BitVec.ofNat 32 op := by
  apply BitVec.eq_of_getLsbD_eq
  intro i hi
  rw [BitVec.getLsbD_and, BitVec.getLsbD_ofNat]
  by_cases h : i < 8
  · simp [-BitVec.getLsbD_eq_getElem, hlow i h, packWord_bit, h, hi]
  · simp [-BitVec.getLsbD_eq_getElem, hhigh i (by omega) hi, testBit_of_byte hop (show 8 ≤ i by omega)]

end Sys2Proof
end

