-- ==== Sys2Proof/Laws/Platform.lean ====
section
/-! SUPPORT. The instance and its collaborators: what a legal size is (00_scope.md R10), what a draw is (R9), what a weak key is
(R8), and the law of the block primitive (R7). -/

namespace Sys2Proof.Machine

@[simp] theorem zeros_length (n : Nat) : (zeros n).length = n := by simp [zeros]

@[simp] theorem rep_length (n : Nat) (v : Byte) : (rep n v).length = n := by simp [rep]

/-! ### Legal sizes -/

theorem entryAdmits_iff (e : SizeEntry) (v : Int) :
    entryAdmits e v = true ↔
      (e.skip = 0 ∧ v = e.min ∧ e.min = e.max) ∨ (0 < e.skip ∧ (e.min : Int) ≤ v ∧ v ≤ e.max ∧ (v - e.min) % e.skip = 0) := by
  simp [entryAdmits, and_assoc]

theorem legal_iff (t : List SizeEntry) (v : Int) : legal t v = true ↔ ∃ e ∈ t, entryAdmits e v = true := by
  simp [legal, List.any_eq_true]

/-- A legal size of a lawful table is a whole number of bytes, at least one, and fits a 32-bit field (R6, R21, R23). -/
theorem legal_bounds {t : List SizeEntry} {v : Int} (ht : t.all entryLawful = true) (h : legal t v = true) :
    8 ≤ v ∧ v < 2 ^ 32 ∧ v % 8 = 0 := by
  obtain ⟨e, he, hv⟩ := (legal_iff t v).mp h
  have hl := List.all_eq_true.mp ht e he
  simp only [entryLawful, Bool.and_eq_true, decide_eq_true_eq] at hl
  obtain ⟨⟨⟨⟨⟨h1, h2⟩, h3⟩, h4⟩, h5⟩, h6⟩ := hl
  rcases (entryAdmits_iff e v).mp hv with ⟨-, hv, -⟩ | ⟨-, hlo, hhi, hmod⟩
  · omega
  · refine ⟨by omega, by omega, ?_⟩
    have hs : (8 : Int) ∣ e.skip := by omega
    have hd : (8 : Int) ∣ v - e.min := hs.trans (Int.dvd_of_emod_eq_zero hmod)
    omega

/-- What a lawful instance has (R6). -/
theorem paramsLawful_parts {p : Params} (h : paramsLawful p = true) :
    p.keySizes.all entryLawful = true ∧ p.blockSizes.all entryLawful = true ∧ 1 ≤ p.numSlots ∧ p.numSlots ≤ 256 ∧
      legal p.keySizes p.defaultKeyBits = true ∧ legal p.blockSizes p.defaultBlockBits = true ∧
      1 ≤ p.defaultFeedbackBits ∧ p.defaultFeedbackBits ≤ p.defaultBlockBits ∧ p.smeBase.toNat % 4096 = 0 := by
  simp only [paramsLawful, Bool.and_eq_true, decide_eq_true_eq] at h
  obtain ⟨⟨⟨⟨⟨⟨⟨⟨⟨h1, h2⟩, -⟩, h4⟩, h5⟩, h6⟩, h7⟩, h8⟩, h9⟩, h10⟩ := h
  exact ⟨h1, h2, h4, h5, h6, h7, h8, h9, h10⟩

theorem resetParams_lawful : paramsLawful resetParams = true := boundInstance.lawful

/-! ### Draws and weak keys -/

@[simp] theorem drawnBytes_length (c n : Nat) : (drawnBytes c n).length = n := by simp [drawnBytes]

@[simp] theorem strongKey_length (alg : Alg) (n : Nat) : (strongKey alg n).length = n := by
  unfold strongKey
  dsimp only
  split <;> simp

theorem strongKey_ne_zeros (alg : Alg) {n : Nat} (hn : 0 < n) : strongKey alg n ≠ zeros n := by
  unfold strongKey
  dsimp only
  split
  · intro h
    obtain ⟨k, rfl⟩ : ∃ k, n = k + 1 := ⟨n - 1, by omega⟩
    simp [rep, zeros, List.replicate_succ] at h
  · assumption

theorem openWeak_strongKey (alg : Alg) (n : Nat) : openWeak alg (strongKey alg n) = false := by
  simp [openWeak]

/-- A key that is not weak exists at every length (R9: `draw_key` has a value). -/
theorem isWeakKey_strongKey (alg : Alg) (n : Nat) : isWeakKey alg (strongKey alg n) = false := by
  have key : ∀ (m : Nat), 0 < m → strongKey alg n ≠ zeros m := fun m hm h => by
    have hl := congrArg List.length h
    simp only [strongKey_length, zeros_length] at hl
    subst hl
    exact strongKey_ne_zeros alg hm h
  cases alg <;> simp [isWeakKey, openWeak_strongKey, key]

@[simp] theorem drawnKey_length (alg : Alg) (c n : Nat) : (drawnKey alg c n).length = n := by
  unfold drawnKey
  dsimp only
  split <;> simp

/-- A drawn key is not weak (R9). -/
theorem drawnKey_strong (alg : Alg) (c n : Nat) : isWeakKey alg (drawnKey alg c n) = false := by
  unfold drawnKey
  dsimp only
  split
  · exact isWeakKey_strongKey alg n
  · exact Bool.eq_false_of_not_eq_true ‹_›

/-! ### The block primitive -/

theorem inDomain_iff (p : Params) (K : Bytes) (n : Nat) :
    inDomain p K n = true ↔ legalBytes p.keySizes K.length = true ∧ legalBytes p.blockSizes n = true := by
  simp [inDomain]

@[simp] theorem encrypt_length (p : Params) (K X : Bytes) : (encrypt p K X).length = X.length := by
  unfold encrypt; split <;> simp

@[simp] theorem decrypt_length (p : Params) (K X : Bytes) : (decrypt p K X).length = X.length := by
  unfold decrypt; split <;> simp

/-- The block a byte string of known length holds. -/
theorem blockOf_toList {n : Nat} (v : Vector Byte n) (f : (m : Nat) → Vector Byte m → Bytes) :
    f v.toList.length (blockOf v.toList) = f n v := by
  obtain ⟨a, rfl⟩ := v
  simp only [blockOf]
  congr 1

/-- R7's law, one way: `Dec(K, Enc(K, X)) = X` for a legal key and block size. -/
theorem decrypt_encrypt {p : Params} {K X : Bytes} (h : inDomain p K X.length = true) :
    decrypt p K (encrypt p K X) = X := by
  have hl : inDomain p K (encrypt p K X).length = true := by rwa [encrypt_length]
  rw [decrypt, if_pos hl, encrypt, if_pos h]
  rw [blockOf_toList _ fun m v => ((Config.cipher p.alg K m).symm v).toList]
  simp [blockOf]

/-- R7's law, the other way: `Enc(K, Dec(K, X)) = X` for a legal key and block size. -/
theorem encrypt_decrypt {p : Params} {K X : Bytes} (h : inDomain p K X.length = true) :
    encrypt p K (decrypt p K X) = X := by
  have hl : inDomain p K (decrypt p K X).length = true := by rwa [decrypt_length]
  rw [encrypt, if_pos hl, decrypt, if_pos h]
  rw [blockOf_toList _ fun m v => ((Config.cipher p.alg K m) v).toList]
  simp [blockOf]

/-- The laws of the collaborators that R7 and R9 grant: lengths, and not weak draws. -/
structure ExternalsLawful (ext : Externals) : Prop where
  encLength : ∀ K X, (ext.enc K X).length = X.length
  decLength : ∀ K X, (ext.dec K X).length = X.length
  drawLength : ∀ c n, (ext.drawBytes c n).length = n
  keyLength : ∀ c n, (ext.drawKey c n).length = n
  keyStrong : ∀ c n, ext.isWeak (ext.drawKey c n) = false

theorem externals_lawful (p : Params) : ExternalsLawful (externals p) where
  encLength := encrypt_length p
  decLength := decrypt_length p
  drawLength := drawnBytes_length
  keyLength := drawnKey_length p.alg
  keyStrong := drawnKey_strong p.alg

@[simp] theorem externals_enc (p : Params) : (externals p).enc = encrypt p := rfl
@[simp] theorem externals_dec (p : Params) : (externals p).dec = decrypt p := rfl
@[simp] theorem externals_isWeak (p : Params) : (externals p).isWeak = isWeakKey p.alg := rfl
@[simp] theorem externals_drawBytes (p : Params) : (externals p).drawBytes = drawnBytes := rfl
@[simp] theorem externals_drawKey (p : Params) : (externals p).drawKey = drawnKey p.alg := rfl

end Sys2Proof.Machine
end

