-- ==== Sys2Proof/Laws/Mode.lean ====
section
/-! SUPPORT. The mode engine (41_mode_engine.md): lengths, the exclusive or, and the loop's equations. -/

namespace Sys2Proof.Machine

@[simp] theorem xorBytes_length (X Y : Bytes) : (xorBytes X Y).length = min X.length Y.length := by simp [xorBytes]

/-- An exclusive or undoes itself (R12). -/
theorem xorBytes_cancel (X Y : Bytes) (h : X.length ≤ Y.length) : xorBytes (xorBytes X Y) Y = X := by
  apply List.ext_getElem
  · simp; omega
  · intro i h1 h2
    simp [xorBytes]

@[simp] theorem shiftIn_length (r seg : Bytes) (u : Nat) : (shiftIn r seg u).length = r.length - u + seg.length := by
  simp [shiftIn]

@[simp] theorem runSegments_zero (ext : Externals) (m : Mode) (d : Direction) (K : Bytes) (u : Nat) (c X : Bytes) :
    runSegments ext m d K u 0 c X = ([], c) := rfl

/-- One turn of the loop of R130. -/
theorem runSegments_succ (ext : Externals) (m : Mode) (d : Direction) (K : Bytes) (u k : Nat) (c X : Bytes) :
    runSegments ext m d K u (k + 1) c X =
      ((modeStep ext m d K c (X.take u)).1 ++
          (runSegments ext m d K u k (modeStep ext m d K c (X.take u)).2 (X.drop u)).1,
        (runSegments ext m d K u k (modeStep ext m d K c (X.take u)).2 (X.drop u)).2) := rfl

/-- Run of the empty string (R130). -/
@[simp] theorem runMode_nil (ext : Externals) (m : Mode) (d : Direction) (K : Bytes) (u : Nat) (c : Bytes) :
    runMode ext m d K u c [] = ([], c) := by
  simp [runMode]

/-- The sizes Step works at: a segment no longer than the block, and the whole block but in CFB (R122). -/
structure SegmentFits (m : Mode) (u B : Nat) : Prop where
  atMost : u ≤ B
  whole : m ≠ .cfb → u = B

/-- Step keeps the lengths of R120. -/
theorem modeStep_lengths {ext : Externals} (he : ExternalsLawful ext) {m : Mode} {u B : Nat} (hu : SegmentFits m u B)
    (d : Direction) (K : Bytes) {c x : Bytes} (hc : c.length = B) (hx : x.length = u) :
    (modeStep ext m d K c x).1.length = u ∧ (modeStep ext m d K c x).2.length = B := by
  have := hu.atMost
  have hw := hu.whole
  cases m <;> cases d <;>
    simp only [modeStep, he.encLength, he.decLength, xorBytes_length, shiftIn_length, List.length_take, ne_eq,
      reduceCtorEq, not_false_eq_true, forall_const, not_true_eq_false, IsEmpty.forall_iff] at hw ⊢ <;> omega

/-- Run over whole segments keeps the lengths. -/
theorem runSegments_lengths {ext : Externals} (he : ExternalsLawful ext) {m : Mode} {u B : Nat} (hu : SegmentFits m u B)
    (d : Direction) (K : Bytes) (k : Nat) {c X : Bytes} (hc : c.length = B) (hX : k * u ≤ X.length) :
    (runSegments ext m d K u k c X).1.length = k * u ∧ (runSegments ext m d K u k c X).2.length = B := by
  induction k generalizing c X with
  | zero => simp [hc]
  | succ k ih =>
    have hk : (k + 1) * u = k * u + u := Nat.succ_mul k u
    obtain ⟨h1, h2⟩ := modeStep_lengths he hu d K (x := X.take u) hc (by simp; omega)
    obtain ⟨h3, h4⟩ := ih (X := X.drop u) h2 (by simp; omega)
    rw [runSegments_succ]
    exact ⟨by simp only [List.length_append, h1, h3]; omega, h4⟩

/-- Run over a whole number of segments answers as many bytes as it is given, and a register of one block. -/
theorem runMode_lengths {ext : Externals} (he : ExternalsLawful ext) {m : Mode} {u B : Nat} (hu : SegmentFits m u B)
    (d : Direction) (K : Bytes) {c X : Bytes} (hc : c.length = B) (hX : X.length % u = 0) :
    (runMode ext m d K u c X).1.length = X.length ∧ (runMode ext m d K u c X).2.length = B := by
  have h : X.length / u * u = X.length := Nat.div_mul_cancel (Nat.dvd_of_mod_eq_zero hX)
  obtain ⟨h1, h2⟩ := runSegments_lengths he hu d K (X.length / u) hc (le_of_eq h)
  exact ⟨h1.trans h, h2⟩

end Sys2Proof.Machine
end

