-- ==== Sys2Proof/Laws/Invariant.lean ====
section
/-! SUPPORT. The vocabulary of Safety: what a lawful slot gives the mode engine, and how the conditions claims are stated with
answer to the checks of the commands (10_state.md R40 to R46; 42_streaming.md R140; 43_config.md R180). -/

namespace Sys2Proof.Machine

/-- A slot never created is lawful. -/
theorem freshSlot_lawful (p : Params) : SlotLawful p (freshSlot p) where
  inputEmpty := rfl
  origin := .inl ⟨rfl, rfl, rfl, rfl, rfl, rfl, rfl⟩
  activeKey := by intro h; cases h
  activeChain := by intro h; cases h
  erasedKey := by intro; simp [freshSlot]
  erasedChain := by intro; simp [freshSlot]

/-- Every slot number names a lawful slot. -/
theorem getSlot_lawful {s : State} (h : s.Inv) (n : Nat) : SlotLawful s.params (getSlot s n) := by
  by_cases hn : n < s.slots.length
  · exact h.slotsLawful _ (getSlot_mem hn)
  · rw [getSlot, List.getD, List.getElem?_eq_none (Nat.le_of_not_lt hn)]
    exact freshSlot_lawful _

/-- A live transform is Active and holds the snapshot of its creation. -/
theorem liveTransform_snapshot {p : Params} {sl : Slot} {m : Mode} {pd : Padding} (h : SlotLawful p sl)
    (hl : liveTransform sl = some (m, pd)) : sl.st = .active ∧ SnapshotLawful p sl m pd := by
  obtain ⟨h1, h2, h3⟩ := liveTransform_iff.mp hl
  refine ⟨h1, ?_⟩
  rcases h.origin with h | ⟨m', pd', h⟩
  · rw [h.cleared] at h1; cases h1
  · have hm := h.modeHeld
    have hp := h.paddingHeld
    rw [h2] at hm; rw [h3] at hp
    cases hm; cases hp
    exact h

/-- A snapshot's segment size is one Step works at (R122). -/
theorem snapshot_segmentFits {p : Params} {sl : Slot} {m : Mode} {pd : Padding} (h : SnapshotLawful p sl m pd) :
    SegmentFits m sl.u (sl.blockBits.toNat / 8) := by
  have hs := h.segment
  constructor
  · rw [hs]
    cases m <;> simp only [segmentSize, le_refl]
    exact Nat.div_le_div_right (h.feedbackFits rfl)
  · intro hm
    rw [hs]
    cases m <;> first | rfl | exact absurd rfl hm

/-- A snapshot's segment size divides its block size, which is at least one byte (R151, R180). -/
theorem snapshot_segment_dvd {p : Params} {sl : Slot} {m : Mode} {pd : Padding} (hp : paramsLawful p = true)
    (h : SnapshotLawful p sl m pd) : sl.u ∣ sl.blockBits.toNat / 8 ∧ 1 ≤ sl.blockBits.toNat / 8 := by
  have hb := legal_bounds (paramsLawful_parts hp).2.1 h.blockLegal
  refine ⟨?_, by omega⟩
  rw [h.segment]
  cases m <;> simp only [segmentSize, dvd_refl]
  have hs := h.feedbackSupported rfl
  simp only [supportedCfb, Bool.or_eq_true, Bool.and_eq_true, decide_eq_true_eq] at hs
  rcases hs with h | ⟨h, -⟩ <;> rw [h]
  simp

/-- Run in a live slot answers as many bytes as it is given and a register of one block. -/
theorem liveRun_lengths {s : State} (h : s.Inv) {n : Nat} {m : Mode} {pd : Padding}
    (hl : liveTransform (getSlot s n) = some (m, pd)) (d : Direction) {X : Bytes}
    (hX : X.length % (getSlot s n).u = 0) :
    (runMode (externals s.params) m d (getSlot s n).key (getSlot s n).u (getSlot s n).chain X).1.length = X.length ∧
      (runMode (externals s.params) m d (getSlot s n).key (getSlot s n).u (getSlot s n).chain X).2.length =
        (getSlot s n).blockBits.toNat / 8 := by
  obtain ⟨h1, h2⟩ := liveTransform_snapshot (getSlot_lawful h n) hl
  exact runMode_lengths (externals_lawful _) (snapshot_segmentFits h2) _ _ ((getSlot_lawful h n).activeChain h1) hX

/-! ### The conditions of claims and the checks of commands -/

theorem allAdmitted_iff (s : State) (k : AccessKind) (a n : Nat) :
    allAdmitted s k a n ↔ admitsRange s.params k a n = true := by
  simp only [admitsRange, List.all_eq_true, List.mem_range, allAdmitted]

theorem not_allAdmitted {s : State} {k : AccessKind} {a n : Nat} (h : ¬ allAdmitted s k a n) :
    admitsRange s.params k a n = false := by
  rw [allAdmitted_iff] at h
  simpa using h

theorem liveSlot_transform {s : State} {n : Nat} {m : Mode} {pd : Padding} (h : LiveSlot s n m pd) :
    liveTransform (getSlot s n) = some (m, pd) :=
  liveTransform_iff.mpr ⟨h.active, h.modeHeld, h.paddingHeld⟩

/-- The operands of TBLOCK and TFINAL where R140's checks pass. -/
theorem transformOperands_accepted {s : State} (h : OperandsAccepted s) :
    transformOperands false false s =
      .ok { inAddr := inputAddressOf s, inCount := inputCountOf s, outA := u32 s.args.arg4
            outL := (s32 s.args.arg5).toNat, outOff := (s32 s.args.arg6).toNat } :=
  transformOperands_ok_iff.mpr ⟨rfl, rfl, h.inLength, h.outLength, h.inOffset, h.inCount, h.outOffset, h.inFits,
    h.outFits, h.rangeFits, rfl⟩

/-- R53's output check on accepted operands. -/
theorem outputOverflows_iff {s : State} (h : OperandsAccepted s) (ia ic n : Nat) :
    outputOverflows ⟨ia, ic, u32 s.args.arg4, (s32 s.args.arg5).toNat, (s32 s.args.arg6).toNat⟩ n = true ↔
      ¬ outputFits s n := by
  have h1 := h.outLength
  have h2 := h.outOffset
  simp only [outputOverflows, gt_iff_lt, decide_eq_true_eq, outputFits]
  omega

theorem countedPadding_iff (p : Padding) : countedPadding p = true ↔ p = .pkcs7 ∨ p = .ansix923 ∨ p = .iso10126 := by
  cases p <;> simp [countedPadding]

theorem creationCheck_accepted {s : State} (h : ConfigurationAccepted s) : creationCheck s = .ok () :=
  creationCheck_ok_iff.mpr ⟨fun hm => ⟨h.feedbackFits hm, h.feedbackSupported hm⟩, fun hp =>
    h.countFits ((countedPadding_iff _).mp hp)⟩

/-- A length that is not negative, in bytes, is legal as R10 says of its bits. -/
theorem legalBytes_toNat (t : List SizeEntry) {v : Int} (h : 0 ≤ v) : legalBytes t v.toNat = legal t (8 * v) := by
  rw [legalBytes, show ((v.toNat : Nat) : Int) = v by omega]

theorem explicitKey_accepted {s : State} {n0 : Bool} (h : ExplicitKeyAccepted s n0) :
    explicitKey true n0 s = .ok (some ⟨u32 s.args.arg0, (s32 s.args.arg1).toNat⟩) :=
  explicitKey_ok_iff.mpr (.inr ⟨rfl, h.notNull, _, bufferRange_ok_iff.mpr ⟨h.keyLength, h.keyFits, rfl⟩,
    (legalBytes_toNat _ h.keyLength).trans h.keyLegal, rfl⟩)

theorem explicitIV_accepted {s : State} {n1 : Bool} (h : ExplicitIVAccepted s n1) :
    explicitIV true n1 s = .ok (some ⟨u32 s.args.arg2, (s32 s.args.arg3).toNat⟩) := by
  have h1 := h.ivOneBlock
  exact explicitIV_ok_iff.mpr (.inr ⟨rfl, h.notNull, _, bufferRange_ok_iff.mpr ⟨h.ivLength, h.ivFits, rfl⟩,
    by simp only; omega, rfl⟩)

end Sys2Proof.Machine
end

