-- ==== Sys2Proof/Laws/Memory.lean ====
section
/-! SUPPORT. Host memory (20_memory.md R50, R54): reads after writes, frames, and the canonical form that every operation
keeps. -/

namespace Sys2Proof.Machine

theorem readByte_nil (a : Nat) : readByte [] a = blankByte := rfl

theorem readByte_cons (c : Host.Cell) (m : Memory) (a : Nat) :
    readByte (c :: m) a = if c.1 = a then c.2 else readByte m a := rfl

/-- Below the first listed address nothing is listed. -/
theorem readByte_below (m : Memory) (a : Nat) (h : ∀ c ∈ m, a < c.1) : readByte m a = blankByte := by
  induction m with
  | nil => rfl
  | cons c m ih =>
    have hc := h c (by simp)
    rw [readByte_cons, if_neg (by omega), ih fun d hd => h d (by simp [hd])]

/-- The canonical form, as the two facts proofs use. -/
theorem memory_wf_iff (m : Memory) :
    m.wf = true ↔ m.Pairwise (fun c d => c.1 < d.1) ∧ ∀ c ∈ m, c.1 < 2 ^ 32 ∧ c.2 ≠ blankByte := by
  simp [Memory.wf, List.all_eq_true]

theorem mem_consCell {c : Host.Cell} {a : Nat} {v : Byte} {m : Memory} (h : c ∈ consCell a v m) :
    c = (a, v) ∧ v ≠ blankByte ∨ c ∈ m := by
  unfold consCell at h
  split at h
  · exact .inr h
  · rename_i hv
    rcases List.mem_cons.mp h with rfl | h
    · exact .inl ⟨rfl, hv⟩
    · exact .inr h

/-- A byte listed after a store was stored or was listed before. -/
theorem mem_writeByte {c : Host.Cell} {a : Nat} {v : Byte} {m : Memory} (h : c ∈ writeByte m a v) :
    c = (a, v) ∧ v ≠ blankByte ∨ c ∈ m := by
  induction m with
  | nil => exact mem_consCell h
  | cons d m ih =>
    unfold writeByte at h
    split at h
    · exact mem_consCell h
    · split at h
      · rcases mem_consCell h with h | h
        · exact .inl h
        · exact .inr (by simp [h])
      · rcases List.mem_cons.mp h with rfl | h
        · exact .inr (by simp)
        · rcases ih h with h | h
          · exact .inl h
          · exact .inr (by simp [h])

theorem pairwise_consCell {a : Nat} {v : Byte} {m : Memory} (hm : m.Pairwise fun c d => c.1 < d.1)
    (ha : ∀ c ∈ m, a < c.1) : (consCell a v m).Pairwise fun c d => c.1 < d.1 := by
  unfold consCell
  split
  · exact hm
  · exact List.pairwise_cons.mpr ⟨ha, hm⟩

theorem pairwise_writeByte {m : Memory} (a : Nat) (v : Byte) (hm : m.Pairwise fun c d => c.1 < d.1) :
    (writeByte m a v).Pairwise fun c d => c.1 < d.1 := by
  induction m with
  | nil => exact pairwise_consCell .nil (by simp)
  | cons d m ih =>
    obtain ⟨hd, ht⟩ := List.pairwise_cons.mp hm
    unfold writeByte
    split
    · rename_i h
      exact pairwise_consCell hm fun c hc => by
        rcases List.mem_cons.mp hc with rfl | hc
        · exact h
        · exact lt_trans h (hd c hc)
    · split
      · rename_i h1 h2
        exact pairwise_consCell ht fun c hc => h2 ▸ hd c hc
      · refine List.pairwise_cons.mpr ⟨fun c hc => ?_, ih ht⟩
        rcases mem_writeByte hc with ⟨rfl, -⟩ | hc
        · show d.1 < a
          omega
        · exact hd c hc

/-- A store at a host address keeps the canonical form. -/
theorem writeByte_wf {m : Memory} {a : Nat} (v : Byte) (hm : m.wf = true) (ha : a < 2 ^ 32) :
    (writeByte m a v).wf = true := by
  rw [memory_wf_iff] at hm ⊢
  refine ⟨pairwise_writeByte a v hm.1, fun c hc => ?_⟩
  rcases mem_writeByte hc with ⟨rfl, hv⟩ | hc
  · exact ⟨ha, hv⟩
  · exact hm.2 c hc

/-- Storing a byte string inside the 2^32 host addresses keeps the canonical form. -/
theorem memWrite_wf {m : Memory} {a : Nat} {v : Bytes} (hm : m.wf = true) (ha : a + v.length ≤ 2 ^ 32) :
    (memWrite m a v).wf = true := by
  induction v generalizing m a with
  | nil => exact hm
  | cons b v ih =>
    simp only [List.length_cons] at ha
    exact ih (writeByte_wf b hm (by omega)) (by omega)

theorem readByte_consCell {m : Memory} {a : Nat} {v : Byte} (x : Nat) (ha : ∀ c ∈ m, a < c.1) :
    readByte (consCell a v m) x = if x = a then v else readByte m x := by
  unfold consCell
  by_cases hv : v = blankByte
  · rw [if_pos hv]
    split
    · next h => rw [h, hv, readByte_below m a ha]
    · rfl
  · rw [if_neg hv, readByte_cons]
    simp only [eq_comm]

/-- A read after a store: the stored byte at its address, every other byte as before. -/
theorem readByte_writeByte {m : Memory} (hm : m.Pairwise fun c d => c.1 < d.1) (a : Nat) (v : Byte) (x : Nat) :
    readByte (writeByte m a v) x = if x = a then v else readByte m x := by
  induction m with
  | nil => exact readByte_consCell x (by simp)
  | cons d m ih =>
    obtain ⟨hd, ht⟩ := List.pairwise_cons.mp hm
    unfold writeByte
    split
    · rename_i h
      exact readByte_consCell x fun c hc => by
        rcases List.mem_cons.mp hc with rfl | hc
        · exact h
        · exact lt_trans h (hd c hc)
    · split
      · rename_i h1 h2
        rw [readByte_consCell x fun c hc => h2 ▸ hd c hc, readByte_cons]
        split
        · rfl
        · rw [if_neg (by omega)]
      · rename_i h1 h2
        rw [readByte_cons, readByte_cons, ih ht]
        split
        · next h => rw [if_neg (by omega)]
        · rfl

/-- A store leaves every other byte alone, whatever the form of the memory. -/
theorem readByte_writeByte_ne (m : Memory) (a : Nat) (v : Byte) {x : Nat} (hx : x ≠ a) :
    readByte (writeByte m a v) x = readByte m x := by
  have hcons : ∀ m' : Memory, readByte (consCell a v m') x = readByte m' x := fun m' => by
    unfold consCell
    split
    · rfl
    · rw [readByte_cons, if_neg (by exact fun h => hx h.symm)]
  induction m with
  | nil => exact hcons []
  | cons d m ih =>
    unfold writeByte
    split
    · exact hcons _
    · split
      · rw [hcons, readByte_cons, if_neg (by omega)]
      · rw [readByte_cons, readByte_cons, ih]

/-- MemWrite leaves every byte outside `addr … addr+len-1` alone. -/
theorem readByte_memWrite_outside (m : Memory) (a : Nat) (v : Bytes) {x : Nat} (hx : x < a ∨ a + v.length ≤ x) :
    readByte (memWrite m a v) x = readByte m x := by
  induction v generalizing m a with
  | nil => rfl
  | cons b v ih =>
    simp only [List.length_cons] at hx
    rw [memWrite, ih _ _ (by omega), readByte_writeByte_ne _ _ _ (by omega)]

theorem memWrite_pairwise {m : Memory} (a : Nat) (v : Bytes) (hm : m.Pairwise fun c d => c.1 < d.1) :
    (memWrite m a v).Pairwise fun c d => c.1 < d.1 := by
  induction v generalizing m a with
  | nil => exact hm
  | cons b v ih => exact ih _ (pairwise_writeByte a b hm)

/-- MemWrite puts byte `i` of the string at `addr + i` (R54). -/
theorem readByte_memWrite_inside {m : Memory} (hm : m.Pairwise fun c d => c.1 < d.1) (a : Nat) (v : Bytes) (i : Nat)
    (hi : i < v.length) : readByte (memWrite m a v) (a + i) = v[i] := by
  induction v generalizing m a i with
  | nil => simp at hi
  | cons b v ih =>
    cases i with
    | zero =>
      rw [memWrite, readByte_memWrite_outside _ _ _ (by omega), readByte_writeByte hm]
      simp
    | succ i =>
      have h := ih (pairwise_writeByte a b hm) (a + 1) i (by simpa using hi)
      rw [memWrite, show a + (i + 1) = a + 1 + i by omega, h]
      simp

@[simp] theorem memRead_length (m : Memory) (a n : Nat) : (memRead m a n).length = n := by simp [memRead]

@[simp] theorem memRead_zero (m : Memory) (a : Nat) : memRead m a 0 = [] := rfl

/-- MemRead after MemWrite of the same range gives the string back. -/
theorem memRead_memWrite {m : Memory} (hm : m.Pairwise fun c d => c.1 < d.1) (a : Nat) (v : Bytes) :
    memRead (memWrite m a v) a v.length = v := by
  apply List.ext_getElem (by simp)
  intro i h1 h2
  simp [memRead, readByte_memWrite_inside hm a v i h2]

/-- Admission of a range, byte by byte (R55). -/
theorem admitsRange_iff (p : Params) (k : AccessKind) (a n : Nat) :
    admitsRange p k a n = true ↔ ∀ x, a ≤ x → x < a + n → admits p k x = true := by
  simp only [admitsRange, List.all_eq_true, List.mem_range]
  constructor
  · intro h x h1 h2
    have := h (x - a) (by omega)
    rwa [show a + (x - a) = x by omega] at this
  · intro h i hi
    exact h (a + i) (by omega) (by omega)

/-- A byte of the engine's window is never admitted (R56). -/
theorem admits_not_window {p : Params} {k : AccessKind} {x : Nat} (h : admits p k x = true) : inWindow p x = false := by
  unfold admits at h
  simp only [Bool.and_eq_true, Bool.not_eq_true'] at h
  exact h.1

end Sys2Proof.Machine
end

