-- ==== Sys2Proof/Laws/PerInstr.lean ====
section
/-! SUPPORT. One lemma per command: the opcode byte of its encoding is the one R73 assigns to it (30_encoding.md R71, R73). -/

namespace Sys2Proof.Laws.EncodedOpcode

/-- The word of a command has the command's opcode in bits 7 to 0. -/
def Statement (i : Instr) : Prop := opcode (encode i) = opOf i

theorem setmode : Statement .setmode := opcode_packWord _ _ _ _ _ _
theorem setpadding : Statement .setpadding := opcode_packWord _ _ _ _ _ _
theorem setkeysize : Statement .setkeysize := opcode_packWord _ _ _ _ _ _
theorem setblocksize : Statement .setblocksize := opcode_packWord _ _ _ _ _ _
theorem setfeedback : Statement .setfeedback := opcode_packWord _ _ _ _ _ _
theorem setkey (n0 : Bool) : Statement (.setkey n0) := opcode_packWord _ _ _ _ _ _
theorem setiv (n0 : Bool) : Statement (.setiv n0) := opcode_packWord _ _ _ _ _ _
theorem getkey (n0 : Bool) : Statement (.getkey n0) := opcode_packWord _ _ _ _ _ _
theorem getiv (n0 : Bool) : Statement (.getiv n0) := opcode_packWord _ _ _ _ _ _
theorem crenc (slot : Nat) (n0 n1 kx ix : Bool) : Statement (.crenc slot n0 n1 kx ix) := opcode_packWord _ _ _ _ _ _
theorem crdec (slot : Nat) (n0 n1 kx ix : Bool) : Statement (.crdec slot n0 n1 kx ix) := opcode_packWord _ _ _ _ _ _
theorem tblock (slot : Nat) (n0 n1 : Bool) : Statement (.tblock slot n0 n1) := opcode_packWord _ _ _ _ _ _
theorem tfinal (slot : Nat) (n0 n1 : Bool) : Statement (.tfinal slot n0 n1) := opcode_packWord _ _ _ _ _ _
theorem clear (slot : Nat) : Statement (.clear slot) := opcode_packWord _ _ _ _ _ _
theorem query (slot : Nat) : Statement (.query slot) := opcode_packWord _ _ _ _ _ _

end Sys2Proof.Laws.EncodedOpcode
end

