-- ==== Sys2Proof/Tests/Slice0.lean ====
section
/-! SUPPORT. Tests. The words and the expected values are those of 30_encoding.md and of 95_test_vectors.md (VP, VM and VC, over
its toy instance TOY, section 2), written down from there. The second part shows a state for the hypotheses of each statement of
Certificates/Slice0/Obligations.lean. -/

namespace Sys2Proof.Tests

open Sys2Proof Sys2Proof.Machine

/-! ### Well-formedness: a slot number of nine bits is refused (R71) -/

theorem test_crenc_slot_256_ill_formed : ¬ (Instr.crenc 256 false false false false).WellFormed := by decide
theorem test_crdec_slot_256_ill_formed : ¬ (Instr.crdec 256 false false false false).WellFormed := by decide
theorem test_tblock_slot_256_ill_formed : ¬ (Instr.tblock 256 false false).WellFormed := by decide
theorem test_tfinal_slot_256_ill_formed : ¬ (Instr.tfinal 256 false false).WellFormed := by decide
theorem test_clear_slot_256_ill_formed : ¬ (Instr.clear 256).WellFormed := by decide
theorem test_query_slot_256_ill_formed : ¬ (Instr.query 256).WellFormed := by decide
theorem test_slot_255_well_formed : (Instr.tfinal 255 true true).WellFormed := by decide

/-! ### Decoding: a word of each command, written out from R71 and R73 -/

theorem test_decode_setmode : decode 0x00000001#32 = .ok .setmode := by decide
theorem test_decode_setpadding : decode 0x00000002#32 = .ok .setpadding := by decide
theorem test_decode_setkeysize : decode 0x00000003#32 = .ok .setkeysize := by decide
theorem test_decode_setblocksize : decode 0x00000004#32 = .ok .setblocksize := by decide
theorem test_decode_setfeedback : decode 0x00000005#32 = .ok .setfeedback := by decide
theorem test_decode_setkey : decode 0x00010006#32 = .ok (.setkey true) := by decide
theorem test_decode_setiv : decode 0x00000007#32 = .ok (.setiv false) := by decide
theorem test_decode_getkey : decode 0x00010008#32 = .ok (.getkey true) := by decide
theorem test_decode_getiv : decode 0x00000009#32 = .ok (.getiv false) := by decide
theorem test_decode_crenc : decode 0x00070310#32 = .ok (.crenc 3 true true true false) := by decide
theorem test_decode_crdec : decode 0x000C0111#32 = .ok (.crdec 1 false false true true) := by decide
theorem test_decode_tblock : decode 0x00020220#32 = .ok (.tblock 2 false true) := by decide
theorem test_decode_tfinal : decode 0x0001FF21#32 = .ok (.tfinal 255 true false) := by decide
theorem test_decode_clear : decode 0x00000322#32 = .ok (.clear 3) := by decide
theorem test_decode_query : decode 0x00008023#32 = .ok (.query 128) := by decide

/-- VC1 to VC4: unassigned opcodes. -/
theorem test_decode_unassigned :
    [0x00000000#32, 0x0000000A#32, 0x00000024#32, 0x000000FF#32].map decode =
      [.error (.unassignedOpcode 0), .error (.unassignedOpcode 0x0A), .error (.unassignedOpcode 0x24),
        .error (.unassignedOpcode 0xFF)] := by decide

/-- VC5 to VC10: a bit the format does not use. -/
theorem test_decode_unused_bit :
    [0x00000101#32, 0x00020006#32, 0x00040220#32, 0x00100010#32, 0x00010022#32, 0x80000023#32].map decode =
      [.error (.unusedBitSet 0x01), .error (.unusedBitSet 0x06), .error (.unusedBitSet 0x20),
        .error (.unusedBitSet 0x10), .error (.unusedBitSet 0x22), .error (.unusedBitSet 0x23)] := by decide

/-- R85's example through the numbering of the opcode table. -/
theorem test_table_word_tblock : decodeTableWord 32 0x00020220 = some (.tblock 2 false true) := by decide
theorem test_table_word_illegal : decodeTableWord 32 0x80000023 = none := by decide

/-! ### The toy instance TOY (95_test_vectors.md section 2) and its baseline state S0 -/

/-- T8's Enc. -/
def toyEnc (K X : Bytes) : Bytes :=
  (List.range X.length).map fun i => X.getD ((i + 1) % X.length) 0 ^^^ K.getD (i % K.length) 0

/-- T8's Dec. -/
def toyDec (K Y : Bytes) : Bytes :=
  (List.range Y.length).map fun j =>
    Y.getD ((j + Y.length - 1) % Y.length) 0 ^^^ K.getD (((j + Y.length - 1) % Y.length) % K.length) 0

/-- The counter draw. -/
def toyDraw (at_ n : Nat) : Bytes := (List.range n).map fun i => BitVec.ofNat 8 (0xD0 + at_ + i)

/-- TOY's collaborators. -/
def toyExt : Externals :=
  { enc := toyEnc
    dec := toyDec
    isWeak := fun K => decide (K = zeros K.length)
    drawBytes := toyDraw
    drawKey := toyDraw }

/-- TOY's parameters. -/
def toyParams : Params :=
  { alg := .other, keySizes := [⟨64, 128, 64⟩], blockSizes := [⟨64, 128, 64⟩], cfbFullBlock := [64, 128], numSlots := 4
    defaultKeyBits := 64, defaultBlockBits := 64, defaultFeedbackBits := 8, smeBase := 0x40000000#32
    memMap := [⟨0, 0x10000, true, true⟩] }

def toyKey : Bytes := [0x0F, 0x1E, 0x2D, 0x3C, 0x4B, 0x5A, 0x69, 0x78]
def toyIV : Bytes := [0xA0, 0xA1, 0xA2, 0xA3, 0xA4, 0xA5, 0xA6, 0xA7]

/-- The 16 input bytes of VM1 to VM6. -/
def toyInput : Bytes :=
  [0x10, 0x11, 0x12, 0x13, 0x14, 0x15, 0x16, 0x17, 0x18, 0x19, 0x1A, 0x1B, 0x1C, 0x1D, 0x1E, 0x1F]

/-- The configuration of S0, with a mode and a padding. -/
def toyCfg (m : Mode) (pd : Padding) : Cfg :=
  { key := toyKey, keyBits := 64, iv := toyIV, blockBits := 64, feedbackBits := 8, mode := m, padding := pd }

/-- A state of TOY: configuration, slot 0, memory, the arguments from ARG0 on; slots 1 to 3 never created. -/
def toyState (c : Cfg) (sl : Slot) (mem : Memory) (a : List Word) : State :=
  { params := toyParams, cfg := c, slots := [sl, freshSlot toyParams, freshSlot toyParams, freshSlot toyParams]
    args := ⟨a.getD 0 0, a.getD 1 0, a.getD 2 0, a.getD 3 0, a.getD 4 0, a.getD 5 0, a.getD 6 0, a.getD 7 0⟩
    err := 0, result0 := 0, result1 := 0, mem := mem, draws := 16, pending := [], lastRead := 0 }

/-- S0 with the given arguments. -/
def s0 (a : List Word) : State := toyState (toyCfg .cbc .pkcs7) (freshSlot toyParams) [] a

/-- S0 with memory at one address. -/
def s0mem (addr : Nat) (v : Bytes) (a : List Word) : State :=
  toyState (toyCfg .cbc .pkcs7) (freshSlot toyParams) (memWrite [] addr v) a

/-- A state whose slot 0 is a live transform, with input bytes at 0x2000 and the operands of R140. -/
def live (m : Mode) (pd : Padding) (d : Direction) (input : Bytes) (a : List Word) : State :=
  toyState (toyCfg m pd) (createdSlot (toyCfg m pd) d toyKey toyIV) (memWrite [] 0x2000 input) a

/-- The arguments of TBLOCK and TFINAL: the whole input at 0x2000, `outL` bytes of output at 0x3000. -/
def ftArgs (count outL : Word) : List Word := [0x2000, count, 0, count, 0x3000, outL, 0]

/-- What a command's outcome shows: an error, or a view of what it commits with its RESULT0. -/
def view {α : Type} (f : State → α) (r : Result) : Except ErrorKind (α × Word) := r.map fun c => (f c.state, c.r0)

/-! ### Padding codec: VP vectors -/

theorem test_pad_vp3_vp4 :
    pad .pkcs7 [] [1, 2, 3, 4, 5, 6, 7] 8 = .ok [1, 2, 3, 4, 5, 6, 7, 1] ∧
      pad .pkcs7 [] [1, 2, 3, 4, 5, 6, 7, 8] 8 = .ok [1, 2, 3, 4, 5, 6, 7, 8, 8, 8, 8, 8, 8, 8, 8, 8] := by decide
theorem test_pad_vp6_vp10 :
    pad .ansix923 [] [1, 2, 3] 8 = .ok [1, 2, 3, 0, 0, 0, 0, 5] ∧
      pad .zeros [] [1, 2, 3] 8 = .ok [1, 2, 3, 0, 0, 0, 0, 0] := by decide
theorem test_pad_vp12_vp14_vp17 :
    pad .zeros [] [1, 2, 3, 4, 5, 6, 7, 8] 8 = .ok [1, 2, 3, 4, 5, 6, 7, 8] ∧
      pad .nopad [] [1, 2, 3] 8 = .error .invalidDataLength ∧
      pad .iso10126 [0xEE, 0xEE, 0xEE, 0xEE] [1, 2, 3] 8 = .ok [1, 2, 3, 0xEE, 0xEE, 0xEE, 0xEE, 5] := by decide
theorem test_unpad_pkcs7_vp18_to_vp23 :
    unpad .pkcs7 [1, 2, 3, 5, 5, 5, 5, 5] 8 = .ok [1, 2, 3] ∧ unpad .pkcs7 [8, 8, 8, 8, 8, 8, 8, 8] 8 = .ok [] ∧
      unpad .pkcs7 [1, 2, 3, 5, 5, 5, 4, 5] 8 = .error .invalidPadding ∧
      unpad .pkcs7 [1, 2, 3, 4, 5, 6, 7, 0] 8 = .error .invalidPadding ∧
      unpad .pkcs7 [1, 2, 3, 4, 5, 6, 7, 9] 8 = .error .invalidPadding ∧
      unpad .pkcs7 [] 8 = .error .invalidPadding := by decide
theorem test_unpad_others_vp25_to_vp32 :
    unpad .ansix923 [1, 2, 3, 0, 0, 0, 0, 5] 8 = .ok [1, 2, 3] ∧
      unpad .ansix923 [1, 2, 3, 0, 0, 7, 0, 5] 8 = .error .invalidPadding ∧
      unpad .ansix923 [1, 2, 3, 4, 5, 6, 7, 1] 8 = .ok [1, 2, 3, 4, 5, 6, 7] ∧
      unpad .iso10126 [1, 2, 3, 0x11, 0x22, 0x33, 0x44, 5] 8 = .ok [1, 2, 3] ∧
      unpad .iso10126 [1, 2, 3, 4, 5, 6, 7, 9] 8 = .error .invalidPadding ∧
      unpad .zeros [1, 2, 3, 0, 0, 0, 0, 0] 8 = .ok [1, 2, 3, 0, 0, 0, 0, 0] := by decide

/-! ### Mode engine: VM vectors -/

theorem test_toy_enc_example : toyEnc toyKey toyIV = [0xAE, 0xBC, 0x8E, 0x98, 0xEE, 0xFC, 0xCE, 0xD8] := by decide
theorem test_run_ecb_vm1_vm2 :
    runMode toyExt .ecb .encrypt toyKey 8 toyIV toyInput =
        ([0x1E, 0x0C, 0x3E, 0x28, 0x5E, 0x4C, 0x7E, 0x68, 0x16, 0x04, 0x36, 0x20, 0x56, 0x44, 0x76, 0x60], toyIV) ∧
      (runMode toyExt .ecb .decrypt toyKey 8 toyIV toyInput).1 =
        [0x6F, 0x1F, 0x0F, 0x3F, 0x2F, 0x5F, 0x4F, 0x7F, 0x67, 0x17, 0x07, 0x37, 0x27, 0x57, 0x47, 0x77] := by decide
theorem test_run_cbc_vm3 :
    runMode toyExt .cbc .encrypt toyKey 8 toyIV toyInput =
      ([0xBF, 0xAE, 0x9D, 0x8C, 0xFB, 0xEA, 0xD9, 0xC8, 0xB8, 0x99, 0xBA, 0xDB, 0xBC, 0x9D, 0xBE, 0xDF],
        [0xB8, 0x99, 0xBA, 0xDB, 0xBC, 0x9D, 0xBE, 0xDF]) := by decide
theorem test_run_cbc_vm4 :
    runMode toyExt .cbc .decrypt toyKey 8 toyIV toyInput =
      ([0xCF, 0xBE, 0xAD, 0x9C, 0x8B, 0xFA, 0xE9, 0xD8, 0x77, 0x06, 0x15, 0x24, 0x33, 0x42, 0x51, 0x60],
        [0x18, 0x19, 0x1A, 0x1B, 0x1C, 0x1D, 0x1E, 0x1F]) := by decide
theorem test_run_ofb_vm5_vm6 :
    runMode toyExt .ofb .encrypt toyKey 8 toyIV toyInput =
        ([0xBE, 0xAD, 0x9C, 0x8B, 0xFA, 0xE9, 0xD8, 0xCF, 0xAB, 0x89, 0xAF, 0xC9, 0xAB, 0x89, 0xAF, 0xC9],
          [0xB3, 0x90, 0xB5, 0xD2, 0xB7, 0x94, 0xB1, 0xD6]) ∧
      runMode toyExt .ofb .decrypt toyKey 8 toyIV toyInput = runMode toyExt .ofb .encrypt toyKey 8 toyIV toyInput := by
  decide
theorem test_run_cfb8_vm7_vm8 :
    runMode toyExt .cfb .encrypt toyKey 1 toyIV [0x10, 0x11, 0x12] =
        ([0xBE, 0xBC, 0xBE], [0xA3, 0xA4, 0xA5, 0xA6, 0xA7, 0xBE, 0xBC, 0xBE]) ∧
      runMode toyExt .cfb .decrypt toyKey 1 toyIV [0x10, 0x11, 0x12] =
        ([0xBE, 0xBC, 0xBE], [0xA3, 0xA4, 0xA5, 0xA6, 0xA7, 0x10, 0x11, 0x12]) := by decide
theorem test_run_cfb64_vm9 :
    runMode toyExt .cfb .encrypt toyKey 8 toyIV toyInput =
      ([0xBE, 0xAD, 0x9C, 0x8B, 0xFA, 0xE9, 0xD8, 0xCF, 0xBA, 0x9B, 0xBC, 0xDD, 0xBE, 0x9F, 0xB8, 0xD9],
        [0xBA, 0x9B, 0xBC, 0xDD, 0xBE, 0x9F, 0xB8, 0xD9]) := by decide

/-! ### Commands: VC vectors, each one command on one state -/

/-- VC11. -/
theorem test_setmode_vc11 : view (fun t => t.cfg.mode) (setmodeResult (s0 [4])) = .ok (.cfb, 0) := by decide
/-- VC12 to VC14. -/
theorem test_setmode_reserved :
    [0#32, 5#32, -1#32].map (fun v => view (fun t => t.cfg.mode) (setmodeResult (s0 [v]))) =
      [.error .argumentRange, .error .argumentRange, .error .argumentRange] := by decide
/-- VC15, VC16. -/
theorem test_setpadding_vc15_vc16 :
    view (fun t => t.cfg.padding) (setpaddingResult (s0 [6])) = .error .argumentRange ∧
      view (fun t => t.cfg.padding) (setpaddingResult (s0 [5])) = .ok (.iso10126, 0) := by decide
/-- VC17, VC19, VC21, VC22. -/
theorem test_setkeysize_illegal :
    [0#32, 96#32, 192#32, -64#32].map (fun v => view (fun t => t.cfg.key) (setkeysizeResult toyExt (s0 [v]))) =
      [.error .invalidKeySize, .error .invalidKeySize, .error .invalidKeySize, .error .invalidKeySize] := by decide
/-- VC18: the draw replaces the key also at the current size. -/
theorem test_setkeysize_vc18 :
    view (fun t => (t.cfg.key, t.cfg.keyBits)) (setkeysizeResult toyExt (s0 [64])) =
      .ok (([0xE0, 0xE1, 0xE2, 0xE3, 0xE4, 0xE5, 0xE6, 0xE7], 64), 0) := by decide
/-- VC23, VC25, VC26. -/
theorem test_setblocksize_vc23_vc25_vc26 :
    view (fun t => (t.cfg.iv, t.draws)) (setblocksizeResult toyExt (s0 [64])) = .ok ((toyIV, 16), 0) ∧
      view (fun t => t.cfg.iv) (setblocksizeResult toyExt (s0 [72])) = .error .invalidBlockSize ∧
      view (fun t => t.cfg.iv) (setblocksizeResult toyExt (s0 [0])) = .error .invalidBlockSize := by decide
/-- VC24. -/
theorem test_setblocksize_vc24 :
    view (fun t => (t.cfg.blockBits, t.cfg.feedbackBits, t.cfg.iv.take 2, t.cfg.iv.length))
      (setblocksizeResult toyExt (s0 [128])) = .ok ((128, 8, [0xE0, 0xE1], 16), 0) := by decide
/-- VC27, VC29. -/
theorem test_setfeedback_bounds :
    view (fun t => t.cfg.feedbackBits) (setfeedbackResult (s0 [1])) = .ok (1, 0) ∧
      view (fun t => t.cfg.feedbackBits) (setfeedbackResult (s0 [64])) = .ok (64, 0) := by decide
/-- VC30 to VC32. -/
theorem test_setfeedback_errors :
    [0#32, 65#32, -8#32].map (fun v => view (fun t => t.cfg.feedbackBits) (setfeedbackResult (s0 [v]))) =
      [.error .invalidFeedbackSize, .error .invalidFeedbackSize, .error .invalidFeedbackSize] := by decide
/-- VC33. -/
theorem test_setkey_vc33 :
    view (fun t => (t.cfg.keyBits, t.cfg.key)) (setkeyResult toyExt false (s0mem 0x1200 toyInput [0x1200, 16])) =
      .ok ((128, toyInput), 0) := by decide
/-- VC34 to VC42: WeakKey, three illegal sizes, ArgumentRange, ArgumentNull, ArgumentOverflow, two BusErrors. -/
theorem test_setkey_errors :
    [setkeyResult toyExt false (s0 [0x1400, 8]), setkeyResult toyExt false (s0 [0x1000, 7]),
        setkeyResult toyExt false (s0 [0x1000, 0]), setkeyResult toyExt false (s0 [0x1000, 24]),
        setkeyResult toyExt false (s0 [0x1000, -1]), setkeyResult toyExt true (s0 []),
        setkeyResult toyExt false (s0 [0xFFFFFFFC, 8]), setkeyResult toyExt false (s0 [0xFFF8, 16]),
        setkeyResult toyExt false (s0 [0x40000000, 8])].map (view fun t => t.cfg.key) =
      [.error .weakKey, .error .invalidKeySize, .error .invalidKeySize, .error .invalidKeySize, .error .argumentRange,
        .error .argumentNull, .error .argumentOverflow, .error .busError, .error .busError] := by decide
/-- R176's effect. -/
theorem test_setiv :
    view (fun t => t.cfg.iv) (setivResult false (s0mem 0x1100 toyKey [0x1100, 8])) = .ok (toyKey, 0) := by decide
/-- VC43, VC44: the length is checked in ECB too. -/
theorem test_setiv_vc43_vc44 :
    view (fun t => t.cfg.iv)
        (setivResult false (toyState (toyCfg .ecb .pkcs7) (freshSlot toyParams) [] [0x1100, 7])) = .error .invalidIVSize ∧
      view (fun t => t.cfg.iv) (setivResult false (s0 [0x1100, 0])) = .error .invalidIVSize := by decide
/-- VC45. -/
theorem test_getkey_vc45 :
    view (fun t => memRead t.mem 0x3000 9) (copyOut (s0 []).cfg.key false (s0 [0x3000, 16])) = .ok (toyKey ++ [0], 8) := by
  decide
/-- VC46. -/
theorem test_getkey_vc46 :
    view (fun t => t.mem) (copyOut (s0 []).cfg.key false (s0 [0x3000, 7])) = .error .argumentOverflow := by decide
/-- VC47. -/
theorem test_getiv_vc47 :
    view (fun t => memRead t.mem 0x3000 8) (copyOut (s0 []).cfg.iv false (s0 [0x3000, 8])) = .ok (toyIV, 8) := by decide
/-- VC48. -/
theorem test_getiv_vc48 : view (fun t => t.mem) (copyOut (s0 []).cfg.iv true (s0 [])) = .error .argumentNull := by decide
/-- VC62 (its creation): explicit key and IV, configuration unchanged. -/
theorem test_crenc_vc62 :
    view (fun t => ((getSlot t 0).key, (getSlot t 0).chain, t.cfg.key))
      (creationResult toyExt .encrypt 0 false false true true (s0mem 0x1200 toyIV [0x1200, 8, 0x1300, 8])) =
      .ok ((toyIV, zeros 8, toyKey), 0) := by decide
/-- VC56 to VC61, VC63, VC64. -/
theorem test_crenc_errors :
    [creationResult toyExt .encrypt 4 false false false false (s0 []),
        creationResult toyExt .encrypt 0 true false true false (s0 []),
        creationResult toyExt .encrypt 0 false true false true (s0 []),
        creationResult toyExt .encrypt 0 false true false false (s0 []),
        creationResult toyExt .encrypt 0 false false true false (s0 [0x1400, 8]),
        creationResult toyExt .encrypt 0 false false false true (s0 [0, 0, 0x1100, 16]),
        creationResult toyExt .encrypt 0 false false true true (s0mem 0x1200 toyIV [0x1200, 8, 0x10000, 8]),
        creationResult toyExt .encrypt 0 false false true true (s0 [0x1200, 7, 0x1300, 9])].map
      (view fun t => (getSlot t 0).st) =
      [.error .argumentRange, .error .invalidKeySize, .error .invalidIVSize, .ok (.active, 0), .error .weakKey,
        .error .invalidIVSize, .error .busError, .error .invalidKeySize] := by decide
/-- VC50 (its creation): a CFB8 decryptor in slot 1. -/
theorem test_crdec_vc50 :
    view (fun t => ((getSlot t 1).dir, (getSlot t 1).mode, (getSlot t 1).u))
      (creationResult toyExt .decrypt 1 false false false false
        (toyState (toyCfg .cfb .pkcs7) (freshSlot toyParams) [] [])) = .ok ((.decrypt, some .cfb, 1), 0) := by decide
/-- VC52, VC54, VC55: the feedback size matters in CFB only. -/
theorem test_crdec_feedback :
    [creationResult toyExt .decrypt 0 false false false false
          (toyState { toyCfg .cfb .pkcs7 with feedbackBits := 16 } (freshSlot toyParams) [] []),
        creationResult toyExt .decrypt 0 false false false false
          (toyState { toyCfg .ofb .pkcs7 with feedbackBits := 16 } (freshSlot toyParams) [] []),
        creationResult toyExt .decrypt 0 false false false false
          (toyState { toyCfg .cfb .pkcs7 with feedbackBits := 128 } (freshSlot toyParams) [] [])].map
      (view fun t => (getSlot t 0).st) =
      [.error .feedbackSizeUnsupported, .ok (.active, 0), .error .invalidFeedbackSize] := by decide
/-- VC65. -/
theorem test_tblock_vc65 :
    view (fun t => (memRead t.mem 0x3000 16, (getSlot t 0).chain))
      (tblockResult toyExt 0 false false (live .cbc .pkcs7 .encrypt toyInput (ftArgs 16 64))) =
      .ok (([0xBF, 0xAE, 0x9D, 0x8C, 0xFB, 0xEA, 0xD9, 0xC8, 0xB8, 0x99, 0xBA, 0xDB, 0xBC, 0x9D, 0xBE, 0xDF],
        [0xB8, 0x99, 0xBA, 0xDB, 0xBC, 0x9D, 0xBE, 0xDF]), 16) := by decide
/-- VC67, VC95 to VC102. -/
theorem test_tblock_errors :
    [tblockResult toyExt 0 false false (live .cbc .pkcs7 .encrypt [] (ftArgs 13 64)),
        tblockResult toyExt 0 false false (live .cbc .pkcs7 .encrypt [] (ftArgs 16 8)),
        tblockResult toyExt 0 false false (live .cbc .pkcs7 .encrypt [] [0x2000, 16, 0, 16, 0x3000, 24, 16]),
        tblockResult toyExt 0 false false (live .cbc .pkcs7 .encrypt [] [0x2000, 16, 12, 8, 0x3000, 64, 0]),
        tblockResult toyExt 0 false false (live .cbc .pkcs7 .encrypt [] [0x2000, 16, 0, -8, 0x3000, 64, 0]),
        tblockResult toyExt 0 true true (live .cbc .pkcs7 .encrypt [] (ftArgs 16 64)),
        tblockResult toyExt 0 true true (s0 (ftArgs 16 64)),
        tblockResult toyExt 0 false false (live .cbc .pkcs7 .encrypt [] (ftArgs 13 8)),
        tblockResult toyExt 0 false false (live .cbc .pkcs7 .encrypt [] [0x2000, 16, 0, 16, 0xFFF8, 16, 0])].map
      (view fun t => t.mem) =
      [.error .invalidInputLength, .error .argumentOverflow, .error .argumentOverflow, .error .argumentOverflow,
        .error .argumentRange, .error .argumentNull, .error .objectDisposed, .error .invalidInputLength,
        .error .busError] := by decide
/-- VC72: a whole block gains a block of padding; the slot is Finalized and erased. -/
theorem test_tfinal_vc72 :
    view (fun t => (memRead t.mem 0x3000 16, (getSlot t 0).st, (getSlot t 0).key, (getSlot t 0).chain))
      (tfinalResult toyExt 0 false false (live .cbc .pkcs7 .encrypt [1, 2, 3, 4, 5, 6, 7, 8] (ftArgs 8 64))) =
      .ok (([0xAC, 0xBF, 0x8A, 0x9D, 0xE8, 0xFB, 0xC6, 0xD9, 0xB8, 0x9C, 0xB8, 0xDC, 0xB8, 0x94, 0xB8, 0xDC],
        .finalized, zeros 8, zeros 8), 16) := by decide
/-- VC82 to VC88: the ISO10126 draw, a decryption, then InvalidPadding, InvalidDataLength, InvalidPadding, an empty Zeros
decryption, InvalidDataLength. -/
theorem test_tfinal_vc82_to_vc88 :
    [tfinalResult toyExt 0 false false (live .cbc .iso10126 .encrypt [1, 2, 3, 4, 5] (ftArgs 5 64)),
        tfinalResult toyExt 0 false false
          (live .cbc .pkcs7 .decrypt [0xAC, 0xBF, 0x8A, 0x9D, 0xED, 0xFF, 0xCD, 0xD9] (ftArgs 8 64)),
        tfinalResult toyExt 0 false false
          (live .cbc .pkcs7 .decrypt [0xAC, 0xBF, 0x8A, 0x9D, 0xED, 0xFF, 0xCC, 0xD9] (ftArgs 8 64)),
        tfinalResult toyExt 0 false false (live .cbc .pkcs7 .decrypt [] (ftArgs 5 64)),
        tfinalResult toyExt 0 false false (live .cbc .pkcs7 .decrypt [] (ftArgs 0 64)),
        tfinalResult toyExt 0 false false (live .cbc .zeros .decrypt [] (ftArgs 0 64)),
        tfinalResult toyExt 0 false false (live .cbc .nopad .decrypt [] (ftArgs 12 64))].map
      (view fun t => memRead t.mem 0x3000 8) =
      [.ok ([0xAC, 0xBF, 0x8A, 0x9D, 0x0E, 0x1D, 0xCD, 0xD9], 8), .ok ([1, 2, 3, 4, 5, 0, 0, 0], 5),
        .error .invalidPadding, .error .invalidDataLength, .error .invalidPadding, .ok (zeros 8, 0),
        .error .invalidDataLength] := by decide
/-- R160: CLEAR of an Active slot erases it and keeps its mode. -/
theorem test_clear_active :
    view (fun t => ((getSlot t 0).st, (getSlot t 0).key, (getSlot t 0).chain, (getSlot t 0).mode))
      (clearResult 0 (live .cfb .pkcs7 .encrypt [] [])) = .ok ((.cleared, zeros 8, zeros 8, some .cfb), 0) := by decide
/-- VC92, and R141's range. -/
theorem test_clear_vc92 :
    view (fun t => (getSlot t 3).st) (clearResult 3 (s0 [])) = .ok (.cleared, 0) ∧
      view (fun t => (getSlot t 3).st) (clearResult 4 (s0 [])) = .error .argumentRange := by decide
/-- VC50 (its query): RESULT0 and RESULT1 of a CFB8 decryptor. -/
theorem test_query_vc50 :
    (queryResult 0 (live .cfb .pkcs7 .decrypt [] [])).map (fun c => (c.r0, c.r1)) =
      .ok (0x02040101#32, 0x00010001#32) := by decide
/-- VC93, VC49 (its query). -/
theorem test_query_vc93_vc49 :
    (queryResult 3 (s0 [])).map (fun c => (c.r0, c.r1)) = .ok (0#32, 0#32) ∧
      (queryResult 0 (live .cbc .pkcs7 .encrypt [] [])).map (fun c => (c.r0, c.r1)) =
        .ok (0x02010001#32, 0x00080008#32) := by decide

/-- P3's first command word through `step`: CLEAR 2 written to CMD runs. -/
theorem test_step_clear :
    (match step ((s0 []).withFetchWord 32 0x00000222) with
      | .next t => (t.err, t.pending)
      | .fault _ => (1, [])
      | .refused _ => (1, [])) = (0, []) := by decide

/-! ### Witnesses: for each statement with hypotheses, a state and operands that meet them -/

/-- `s` with one host event waiting. -/
def waiting (s : State) (e : HostEvent) : State := { s with pending := [e] }

/-- R220: a reset during GETKEY leaves the key in host memory where the command commits, and host memory as it was where the
reset discards the command; STATUS and ARG are zero either way. -/
theorem test_reset_during_getkey :
    (match step (waiting (s0 [0x3000, 8]) (.resetDuring 0x00000008#32 true)),
        step (waiting (s0 [0x3000, 8]) (.resetDuring 0x00000008#32 false)) with
      | .next t, .next u => (memRead t.mem 0x3000 8, t.args, u.mem, u.args)
      | _, _ => ([], zeroArgs, [], zeroArgs)) = (toyKey, zeroArgs, [], zeroArgs) := by decide
/-- R220: a reset discards a word that is no command too, so no error is pending. -/
theorem test_reset_discards_illegal :
    (match step (waiting (s0 []) (.resetDuring 0xFFFFFFFF#32 false)) with
      | .next t => (t.err, t.pending)
      | .fault _ => (1, [])
      | .refused _ => (1, [])) = (0, []) := by decide

/-- TOY as a DES instance, whose all-zero key is weak (R8). -/
def desState (mem : Memory) (a : List Word) : State :=
  { toyState (toyCfg .cbc .pkcs7) (freshSlot toyParams) mem a with params := { toyParams with alg := .des } }

theorem toy_key_legal : legalBytes toyParams.keySizes 8 = true := by decide
theorem toy_block_legal : legal toyParams.blockSizes ((64#32).toNat : Nat) = true := by decide
theorem toy_cfb_supported : supportedCfb toyParams (64#32).toNat (8#32).toNat = true := by decide

theorem created_lawful (m : Mode) (pd : Padding) (d : Direction) :
    SlotLawful toyParams (createdSlot (toyCfg m pd) d toyKey toyIV) where
  inputEmpty := rfl
  origin := .inr ⟨m, pd, rfl, rfl, toy_block_legal, rfl, fun _ => toy_cfb_supported,
    fun _ => show (8#32).toNat ≤ (64#32).toNat by decide, fun _ => show (64#32).toNat / 8 ≤ 255 by decide⟩
  activeKey := fun _ => toy_key_legal
  activeChain := fun _ => show toyIV.length = (64#32).toNat / 8 by decide
  erasedKey := fun h => absurd rfl h
  erasedChain := fun h => absurd rfl h

theorem toy_params_lawful : paramsLawful toyParams = true := by decide

theorem toy_inv (m : Mode) (pd : Padding) {sl : Slot} (mem : Memory) (a : List Word) (h : SlotLawful toyParams sl)
    (hm : mem.wf = true) : (toyState (toyCfg m pd) sl mem a).Inv where
  instanceLawful := toy_params_lawful
  cfgLawful := ⟨toy_key_legal, rfl, rfl, toy_block_legal, show toyIV.length = (64#32).toNat / 8 by decide,
    show 1 ≤ (8#32).toNat by decide⟩
  slotCount := rfl
  slotsLawful := by
    intro x hx
    simp only [toyState, List.mem_cons, List.not_mem_nil, or_false] at hx
    rcases hx with rfl | rfl | rfl | rfl
    · exact h
    all_goals exact freshSlot_lawful toyParams
  memoryCanonical := hm

theorem s0_inv (a : List Word) : (s0 a).Inv := toy_inv _ _ _ a (freshSlot_lawful _) rfl

theorem live_inv (m : Mode) (pd : Padding) (d : Direction) (a : List Word) : (live m pd d [] a).Inv :=
  toy_inv _ _ _ a (created_lawful m pd d) rfl

theorem live_slot (m : Mode) (pd : Padding) (d : Direction) (x : Bytes) (a : List Word) :
    LiveSlot (live m pd d x a) 0 m pd :=
  ⟨show 0 < 4 by decide, rfl, rfl, rfl⟩

theorem admitted {s : State} {k : AccessKind} {a n : Nat} (h : admitsRange s.params k a n = true) :
    allAdmitted s k a n := (allAdmitted_iff s k a n).mpr h

theorem not_admitted {s : State} {k : AccessKind} {a n : Nat} (h : admitsRange s.params k a n = false) :
    ¬ allAdmitted s k a n := fun h' => by
  rw [(allAdmitted_iff s k a n).mp h'] at h
  cases h

/-- R140's checks (c) to (g) pass on the argument registers. -/
def argsAccepted (a : ArgFile) : Bool :=
  decide (0 ≤ s32 a.arg1) && decide (0 ≤ s32 a.arg5) && decide (0 ≤ s32 a.arg2) && decide (0 ≤ s32 a.arg3) &&
    decide (0 ≤ s32 a.arg6) && decide ((u32 a.arg0 : Int) + s32 a.arg1 ≤ 2 ^ 32) &&
    decide ((u32 a.arg4 : Int) + s32 a.arg5 ≤ 2 ^ 32) && decide (s32 a.arg2 + s32 a.arg3 ≤ s32 a.arg1)

theorem accepted (s : State) (h : argsAccepted s.args = true) : OperandsAccepted s := by
  simp only [argsAccepted, Bool.and_eq_true, decide_eq_true_eq] at h
  obtain ⟨⟨⟨⟨⟨⟨⟨h1, h2⟩, h3⟩, h4⟩, h5⟩, h6⟩, h7⟩, h8⟩ := h
  exact ⟨h1, h2, h3, h4, h5, h6, h7, h8⟩

/-- Operands whose input runs past the admitted bytes. -/
def ftInOutside : List Word := [0xFFF9, 8, 0, 8, 0x3000, 64, 0]
/-- Operands whose output runs past the admitted bytes. -/
def ftOutOutside : List Word := [0x2000, 8, 0, 8, 0xFFF9, 64, 0]

/-- A CBC decryptor's Run over eight bytes answers eight. -/
theorem cbc_decrypt_length {X : Bytes} (hX : X.length = 8) :
    (runMode (externals toyParams) .cbc .decrypt toyKey 8 toyIV X).1.length = 8 :=
  (runMode_lengths (externals_lawful toyParams) ⟨le_refl 8, fun _ => rfl⟩ .decrypt toyKey (c := toyIV) rfl
    (by rw [hX])).1.trans hX

theorem witness_DecodeOfEncode : (Instr.crdec 255 true true true true).WellFormed ∧ (Instr.query 0).WellFormed := by decide
theorem witness_EncodeOfDecode : decode 0x000FFF11#32 = .ok (.crdec 255 true true true true) := by decide
theorem witness_DecodeSelectsByMask :
    (0x20, 0xFFFC00FF#32) ∈ opcodeTable ∧ ∀ r ∈ opcodeTable, 0x00000024#32 &&& r.2 ≠ BitVec.ofNat 32 r.1 := by decide
theorem witness_StepRunsDecodedCommand :
    (waiting (s0 []) (.windowWrite 0x00C#12 32 0x00000322#32)).pending = [.windowWrite 0x00C#12 32 0x00000322#32] ∧
      decode 0x00000322#32 = .ok (.clear 3) ∧ decode 0x00000024#32 = .error (.unassignedOpcode 0x24) := by decide
theorem witness_WindowRegistersRead :
    [0x000#12, 0x004#12, 0x008#12, 0x00C#12, 0x010#12, 0x014#12, 0x018#12, 0x01C#12, 0x020#12, 0x024#12, 0x028#12, 0x02C#12,
        0x030#12, 0x034#12, 0x038#12, 0x03C#12, 0x040#12, 0x044#12, 0x048#12, 0x04C#12, 0xFFC#12].all (fun o =>
      decide ((waiting (s0 []) (.windowRead o 32)).pending = [.windowRead o 32]) && decide (o.toNat % 4 = 0) &&
        decide ((s0 []).params.numSlots ≤ 256)) = true := by decide
theorem witness_MisalignedWindowAccessRefused :
    ∀ e ∈ [HostEvent.windowWrite 0x010#12 8 1, .windowRead 0x011#12 32, .windowRead 0xFFF#12 32],
      (waiting (s0 []) e).pending = [e] := by decide
theorem witness_WindowWritesSetArguments :
    [0x000#12, 0x008#12, 0x010#12, 0x014#12, 0x018#12, 0x01C#12, 0x020#12, 0x024#12, 0x028#12, 0x02C#12, 0x030#12,
        0xFFC#12].all (fun o =>
      decide ((waiting (s0 []) (.windowWrite o 32 7)).pending = [.windowWrite o 32 7]) && decide (o ≠ 0x00C#12)) =
        true := by decide
theorem witness_CommandsKeepHostRegisters : ∃ t, exec (.clear 0) (s0 []) = .next t := exec_next _ _
theorem witness_StepKeepsInstance : ∃ t, step (waiting (s0 []) .reset) = .next t := ⟨_, rfl⟩
theorem witness_FailedCommandChangesOnlyStatus : ∃ t, exec (.clear 4) (s0 []) = .next t ∧ t.err ≠ 0 :=
  ⟨_, rfl, by decide⟩
theorem witness_WrittenErrorCodes : ∃ t, exec (.query 4) (s0 []) = .next t := exec_next _ _
theorem witness_DrawsOnlyWhereNamed : ∃ t, exec .setkeysize (s0 [64]) = .next t ∧ t.draws ≠ (s0 [64]).draws :=
  ⟨_, rfl, by decide⟩
theorem witness_OtherSlotsUntouched :
    ∃ t, exec (.clear 0) (s0 []) = .next t ∧ ∀ slot, Instr.clear 0 = .clear slot → 1 ≠ slot :=
  ⟨_, rfl, fun slot h => by cases h; decide⟩
theorem witness_OtherCommandsKeepMemory :
    ∃ t, exec (.query 0) (s0 []) = .next t ∧ ∀ n0, Instr.query 0 ≠ .getkey n0 ∧ Instr.query 0 ≠ .getiv n0 :=
  ⟨_, rfl, fun n0 => by simp⟩
theorem witness_UnadmittedBytesUnchanged :
    (s0 []).Inv ∧ (∃ t, exec (.getkey false) (s0 [0x3000, 8]) = .next t) ∧
      admits (s0 []).params .write 0x10000 = false ∧ (s0 []).params.smeBase.toNat ≤ 0x40000FFF :=
  ⟨s0_inv [], exec_next _ _, by decide, by decide⟩
theorem witness_StoringCommandsMemoryFrame :
    (s0 [0x3000, 8]).Inv ∧ fbBuffer false (s0 [0x3000, 8]) = .ok ⟨0x3000, 8⟩ ∧
      (∃ t, exec (.getkey false) (s0 [0x3000, 8]) = .next t) ∧ fbBuffer true (s0 []) = .error .argumentNull ∧
      (live .cbc .pkcs7 .encrypt [] (ftArgs 8 8)).Inv ∧
      (∃ o, transformOperands false false (live .cbc .pkcs7 .encrypt [] (ftArgs 8 8)) = .ok o) ∧
      (∃ t, exec (.tblock 0 false false) (live .cbc .pkcs7 .encrypt [] (ftArgs 8 8)) = .next t) ∧
      transformOperands true false (s0 []) = .error .argumentNull :=
  ⟨s0_inv _, by decide, exec_next _ _, by decide, live_inv _ _ _ _, ⟨_, rfl⟩, exec_next _ _, by decide⟩
theorem witness_ResetEventValues :
    (waiting (s0 []) .reset).pending = [.reset] ∧
      (waiting (s0 []) (.resetDuring 0x00000008#32 false)).pending = [.resetDuring 0x00000008#32 false] ∧
      (waiting (s0 []) (.resetDuring 0x00000008#32 true)).pending = [.resetDuring 0x00000008#32 true] ∧
      ∃ t, step { waiting (s0 []) (.resetDuring 0x00000008#32 true) with
        pending := [.windowWrite 0x00C#12 32 0x00000008#32] } = .next t :=
  ⟨rfl, rfl, rfl, _, rfl⟩
theorem witness_StepKeepsInvariant : (s0 []).Inv ∧ ∃ t, step (s0 []) = .next t := ⟨s0_inv [], _, rfl⟩
theorem witness_SetmodeWritesMode :
    [1#32, 2#32, 3#32, 4#32, 0#32, 5#32].map (fun v => s32 (s0 [v]).args.arg0) = [1, 2, 3, 4, 0, 5] := by decide
theorem witness_SetpaddingWritesPadding :
    [1#32, 2#32, 3#32, 4#32, 5#32, 0#32, 6#32].map (fun v => s32 (s0 [v]).args.arg0) = [1, 2, 3, 4, 5, 0, 6] := by decide
theorem witness_SetkeysizeDrawsKey :
    [64#32, 128#32, 63#32, 192#32].map (fun v => legal (s0 [v]).params.keySizes (s32 (s0 [v]).args.arg0)) =
      [true, true, false, false] := by decide
theorem witness_SetblocksizeRedrawsIV :
    legal (s0 [64]).params.blockSizes (s32 (s0 [64]).args.arg0) = true ∧
      s32 (s0 [64]).args.arg0 = ((s0 [64]).cfg.blockBits.toNat : Int) ∧
      legal (s0 [128]).params.blockSizes (s32 (s0 [128]).args.arg0) = true ∧
      s32 (s0 [128]).args.arg0 ≠ ((s0 [128]).cfg.blockBits.toNat : Int) ∧
      legal (s0 [72]).params.blockSizes (s32 (s0 [72]).args.arg0) = false := by decide
theorem witness_SetfeedbackWritesSize :
    (1 ≤ s32 (s0 [1]).args.arg0 ∧ s32 (s0 [64]).args.arg0 ≤ ((s0 [64]).cfg.blockBits.toNat : Int)) ∧
      s32 (s0 [0]).args.arg0 < 1 ∧ ((s0 [65]).cfg.blockBits.toNat : Int) < s32 (s0 [65]).args.arg0 := by decide
theorem witness_SetkeyWritesKey :
    (0 ≤ s32 (s0 [0xFFF8, 8]).args.arg1 ∧
        (u32 (s0 [0xFFF8, 8]).args.arg0 : Int) + s32 (s0 [0xFFF8, 8]).args.arg1 ≤ 2 ^ 32 ∧
        legal (s0 []).params.keySizes (8 * s32 (s0 [0xFFF8, 8]).args.arg1) = true ∧
        isWeakKey (s0 []).params.alg (memRead (s0 []).mem 0xFFF8 8) = false) ∧
      allAdmitted (s0 [0xFFF8, 8]) .read 0xFFF8 8 :=
  ⟨by decide, admitted (by decide)⟩
theorem witness_SetivWritesIV :
    (0 ≤ s32 (s0 [0xFFF8, 8]).args.arg1 ∧
        (u32 (s0 [0xFFF8, 8]).args.arg0 : Int) + s32 (s0 [0xFFF8, 8]).args.arg1 ≤ 2 ^ 32 ∧
        s32 (s0 [0xFFF8, 8]).args.arg1 = (((s0 []).cfg.blockBits.toNat / 8 : Nat) : Int)) ∧
      allAdmitted (s0 [0xFFF8, 8]) .read 0xFFF8 8 :=
  ⟨by decide, admitted (by decide)⟩
theorem witness_GetCommandsCopyOut :
    (0 ≤ s32 (s0 [0xFFF8, 8]).args.arg1 ∧
        (u32 (s0 [0xFFF8, 8]).args.arg0 : Int) + s32 (s0 [0xFFF8, 8]).args.arg1 ≤ 2 ^ 32 ∧
        ((s0 []).cfg.key.length : Int) ≤ s32 (s0 [0xFFF8, 8]).args.arg1 ∧
        ((s0 []).cfg.iv.length : Int) ≤ s32 (s0 [0xFFF8, 8]).args.arg1) ∧
      allAdmitted (s0 [0xFFF8, 8]) .write 0xFFF8 8 :=
  ⟨by decide, admitted (by decide)⟩
theorem witness_BufferOperandErrors :
    s32 (s0 [0, -1]).args.arg1 < 0 ∧ 0 ≤ s32 (s0 [0xFFFFFFFF, 2]).args.arg1 ∧
      2 ^ 32 < (u32 (s0 [0xFFFFFFFF, 2]).args.arg0 : Int) + s32 (s0 [0xFFFFFFFF, 2]).args.arg1 := by decide
theorem witness_BufferCommandErrors :
    (∀ a ∈ [[0x3000, 7], [0xFFF9, 8], [0x3000, 8]], 0 ≤ s32 (s0 a).args.arg1 ∧
        (u32 (s0 a).args.arg0 : Int) + s32 (s0 a).args.arg1 ≤ 2 ^ 32) ∧
      legal (s0 []).params.keySizes (8 * s32 (s0 [0x3000, 7]).args.arg1) = false ∧
      s32 (s0 [0x3000, 7]).args.arg1 ≠ (((s0 []).cfg.blockBits.toNat / 8 : Nat) : Int) ∧
      s32 (s0 [0x3000, 7]).args.arg1 < ((s0 []).cfg.key.length : Int) ∧
      s32 (s0 [0x3000, 7]).args.arg1 < ((s0 []).cfg.iv.length : Int) ∧
      legal (s0 []).params.keySizes (8 * s32 (s0 [0xFFF9, 8]).args.arg1) = true ∧
      ((s0 []).cfg.key.length : Int) ≤ s32 (s0 [0xFFF9, 8]).args.arg1 ∧
      ¬ allAdmitted (s0 [0xFFF9, 8]) .read 0xFFF9 8 ∧ ¬ allAdmitted (s0 [0xFFF9, 8]) .write 0xFFF9 8 :=
  ⟨by decide, by decide, by decide, by decide, by decide, by decide, by decide, not_admitted (by decide),
    not_admitted (by decide)⟩
/-- The weak-key clauses of BufferCommandErrors and CreationMemoryErrors: the all-zero key of a DES instance. -/
theorem witness_weak_key :
    legal (desState [] [0x3000, 8]).params.keySizes (8 * s32 (desState [] [0x3000, 8]).args.arg1) = true ∧
      allAdmitted (desState [] [0x3000, 8]) .read 0x3000 8 ∧
      isWeakKey (desState [] [0x3000, 8]).params.alg (memRead (desState [] [0x3000, 8]).mem 0x3000 8) = true ∧
      ConfigurationAccepted (desState [] [0x3000, 8]) ∧ ExplicitKeyAccepted (desState [] [0x3000, 8]) false :=
  ⟨by decide, admitted (by decide), by decide, ⟨fun h => (by cases h), fun h => (by cases h), fun _ => by decide⟩,
    ⟨rfl, by decide, by decide, by decide⟩⟩
theorem witness_ConfigurationWritesOnlyItsFields :
    ∃ t, exec .setmode (s0 [0]) = .next t ∧ t.err ≠ 0 := ⟨_, rfl, by decide⟩
theorem witness_ConfigurationNeverChangesSlots :
    ∃ t, exec .setmode (s0 [4]) = .next t ∧ t.cfg ≠ (s0 [4]).cfg := ⟨_, rfl, by decide⟩

theorem cfg_accepted (m : Mode) (pd : Padding) (sl : Slot) (mem : Memory) (a : List Word) :
    ConfigurationAccepted (toyState (toyCfg m pd) sl mem a) :=
  ⟨fun _ => show (8#32).toNat ≤ (64#32).toNat by decide, fun _ => toy_cfb_supported,
    fun _ => show (64#32).toNat / 8 ≤ 255 by decide⟩

theorem witness_CreationMakesActiveSlot :
    3 < (s0 []).params.numSlots ∧ ConfigurationAccepted (s0 [0x1200, 8, 0x1300, 8]) ∧
      ExplicitKeyAccepted (s0 [0x1200, 8, 0x1300, 8]) false ∧ ExplicitIVAccepted (s0 [0x1200, 8, 0x1300, 8]) false ∧
      allAdmitted (s0 [0x1200, 8, 0x1300, 8]) .read 0x1200 8 ∧ allAdmitted (s0 [0x1200, 8, 0x1300, 8]) .read 0x1300 8 ∧
      isWeakKey (s0 []).params.alg (memRead (s0 []).mem 0x1200 8) = false :=
  ⟨by decide, cfg_accepted _ _ _ _ _, ⟨rfl, by decide, by decide, by decide⟩, ⟨rfl, by decide, by decide, by decide⟩,
    admitted (by decide), admitted (by decide), by decide⟩
theorem witness_CreationErrors :
    (s32 (s0 [0, -1]).args.arg1 < 0 ∧ s32 (s0 [0, 0, 0, -1]).args.arg3 < 0 ∧
        2 ^ 32 < (u32 (s0 [0xFFFFFFFF, 2]).args.arg0 : Int) + s32 (s0 [0xFFFFFFFF, 2]).args.arg1 ∧
        2 ^ 32 < (u32 (s0 [0, 0, 0xFFFFFFFF, 2]).args.arg2 : Int) + s32 (s0 [0, 0, 0xFFFFFFFF, 2]).args.arg3 ∧
        legal (s0 []).params.keySizes (8 * s32 (s0 [0, 7]).args.arg1) = false ∧
        s32 (s0 [0, 0, 0, 9]).args.arg3 ≠ (((s0 []).cfg.blockBits.toNat / 8 : Nat) : Int)) ∧
      ExplicitKeyAccepted (s0 [0x1200, 8, 0x1300, 8]) false ∧ ExplicitIVAccepted (s0 [0x1200, 8, 0x1300, 8]) false :=
  ⟨by decide, ⟨rfl, by decide, by decide, by decide⟩, ⟨rfl, by decide, by decide, by decide⟩⟩
/-- The configuration clauses of CreationErrors: a feedback size over the block, one not supported, a block of 256 bytes. -/
theorem witness_CreationErrors_configuration :
    (toyCfg .cfb .pkcs7).mode = .cfb ∧
      { toyCfg .cfb .pkcs7 with feedbackBits := 65 }.blockBits.toNat <
        { toyCfg .cfb .pkcs7 with feedbackBits := 65 }.feedbackBits.toNat ∧
      supportedCfb toyParams (toyCfg .cfb .pkcs7).blockBits.toNat
        { toyCfg .cfb .pkcs7 with feedbackBits := 16 }.feedbackBits.toNat = false ∧
      255 < { toyCfg .cbc .pkcs7 with blockBits := 2048 }.blockBits.toNat / 8 := by decide
theorem witness_CreationMemoryErrors :
    ConfigurationAccepted (s0 [0xFFF9, 8, 0xFFF9, 8]) ∧ ExplicitKeyAccepted (s0 [0xFFF9, 8, 0xFFF9, 8]) false ∧
      ExplicitIVAccepted (s0 [0xFFF9, 8, 0xFFF9, 8]) false ∧
      ¬ allAdmitted (s0 [0xFFF9, 8, 0xFFF9, 8]) .read 0xFFF9 8 ∧ allAdmitted (s0 [0x1200, 8, 0xFFF9, 8]) .read 0x1200 8 :=
  ⟨cfg_accepted _ _ _ _ _, ⟨rfl, by decide, by decide, by decide⟩, ⟨rfl, by decide, by decide, by decide⟩,
    not_admitted (by decide), admitted (by decide)⟩
theorem witness_CreationKeepsConfiguration :
    (∃ t, exec (.crenc 0 false false false false) (s0 []) = .next t) ∧
      ∃ t, exec (.crdec 0 false false true false) (s0 []) = .next t := ⟨exec_next _ _, exec_next _ _⟩
theorem witness_MissingSlotRaisesArgumentRange : (s0 []).params.numSlots ≤ 4 := by decide
theorem witness_TblockTransformsSegments :
    LiveSlot (live .cbc .pkcs7 .decrypt [] (ftArgs 8 8)) 0 .cbc .pkcs7 ∧
      OperandsAccepted (live .cbc .pkcs7 .decrypt [] (ftArgs 8 8)) ∧
      (inputCountOf (live .cbc .pkcs7 .decrypt [] (ftArgs 8 8)) %
          (getSlot (live .cbc .pkcs7 .decrypt [] (ftArgs 8 8)) 0).u = 0 ∧
        s32 (live .cbc .pkcs7 .decrypt [] (ftArgs 8 8)).args.arg6 + 8 ≤
          s32 (live .cbc .pkcs7 .decrypt [] (ftArgs 8 8)).args.arg5) ∧
      allAdmitted (live .cbc .pkcs7 .decrypt [] (ftArgs 8 8)) .read 0x2000 8 ∧
      allAdmitted (live .cbc .pkcs7 .decrypt [] (ftArgs 8 8)) .write 0x3000 8 :=
  ⟨live_slot _ _ _ _ _, accepted _ (by decide), by decide, admitted (by decide), admitted (by decide)⟩
theorem witness_TransformOperandErrors :
    LiveSlot (live .cbc .pkcs7 .encrypt [] []) 0 .cbc .pkcs7 ∧
      (s32 (live .cbc .pkcs7 .encrypt [] [0, 0, 0, -1]).args.arg3 < 0 ∧
        2 ^ 32 < (u32 (live .cbc .pkcs7 .encrypt [] [0xFFFFFFFF, 2]).args.arg0 : Int) +
          s32 (live .cbc .pkcs7 .encrypt [] [0xFFFFFFFF, 2]).args.arg1 ∧
        s32 (live .cbc .pkcs7 .encrypt [] [0, 8, 1, 8]).args.arg1 <
          s32 (live .cbc .pkcs7 .encrypt [] [0, 8, 1, 8]).args.arg2 +
            s32 (live .cbc .pkcs7 .encrypt [] [0, 8, 1, 8]).args.arg3) :=
  ⟨live_slot _ _ _ _ _, by decide⟩
theorem witness_TblockErrors :
    OperandsAccepted (live .cbc .pkcs7 .encrypt [] (ftArgs 5 8)) ∧
      inputCountOf (live .cbc .pkcs7 .encrypt [] (ftArgs 5 8)) %
        (getSlot (live .cbc .pkcs7 .encrypt [] (ftArgs 5 8)) 0).u ≠ 0 ∧
      OperandsAccepted (live .cbc .pkcs7 .encrypt [] ftInOutside) ∧
      ¬ allAdmitted (live .cbc .pkcs7 .encrypt [] ftInOutside) .read 0xFFF9 8 ∧
      OperandsAccepted (live .cbc .pkcs7 .encrypt [] (ftArgs 8 7)) ∧
      s32 (live .cbc .pkcs7 .encrypt [] (ftArgs 8 7)).args.arg5 < 8 ∧
      OperandsAccepted (live .cbc .pkcs7 .encrypt [] ftOutOutside) ∧
      ¬ allAdmitted (live .cbc .pkcs7 .encrypt [] ftOutOutside) .write 0xFFF9 8 :=
  ⟨accepted _ (by decide), by decide, accepted _ (by decide), not_admitted (by decide), accepted _ (by decide),
    by decide, accepted _ (by decide), not_admitted (by decide)⟩
theorem witness_TfinalEncryptCompletes :
    (live .cbc .zeros .encrypt [] (ftArgs 5 8)).Inv ∧ LiveSlot (live .cbc .zeros .encrypt [] (ftArgs 5 8)) 0 .cbc .zeros ∧
      OperandsAccepted (live .cbc .zeros .encrypt [] (ftArgs 5 8)) ∧
      (pad .zeros [] (inputBytesOf (live .cbc .zeros .encrypt [] (ftArgs 5 8)))
          (blockBytes (getSlot (live .cbc .zeros .encrypt [] (ftArgs 5 8)) 0)) = .ok (zeros 8) ∧
        s32 (live .cbc .zeros .encrypt [] (ftArgs 5 8)).args.arg6 + 8 ≤
          s32 (live .cbc .zeros .encrypt [] (ftArgs 5 8)).args.arg5) ∧
      allAdmitted (live .cbc .zeros .encrypt [] (ftArgs 5 8)) .read 0x2000 5 ∧
      allAdmitted (live .cbc .zeros .encrypt [] (ftArgs 5 8)) .write 0x3000 8 :=
  ⟨live_inv _ _ _ _, live_slot _ _ _ _ _, accepted _ (by decide), by decide, admitted (by decide), admitted (by decide)⟩
/-- The ISO10126 clause: the filler of five bytes in a block of eight is two drawn bytes. -/
theorem witness_TfinalEncryptCompletes_iso10126 :
    ∃ filler D, filler = drawnBytes 16 2 ∧ pad .iso10126 filler (zeros 5) 8 = .ok D ∧ D.length = 8 :=
  ⟨_, _, rfl, rfl, by simp [padCount]⟩
theorem witness_TfinalDecryptCompletes :
    (live .cbc .zeros .decrypt [] (ftArgs 8 8)).Inv ∧ LiveSlot (live .cbc .zeros .decrypt [] (ftArgs 8 8)) 0 .cbc .zeros ∧
      OperandsAccepted (live .cbc .zeros .decrypt [] (ftArgs 8 8)) ∧
      ∃ Z, unpad .zeros (runMode (externals toyParams) .cbc .decrypt toyKey 8 toyIV
          (inputBytesOf (live .cbc .zeros .decrypt [] (ftArgs 8 8)))).1 8 = .ok Z ∧ Z.length = 8 ∧
        allAdmitted (live .cbc .zeros .decrypt [] (ftArgs 8 8)) .write 0x3000 8 :=
  ⟨live_inv _ _ _ _, live_slot _ _ _ _ _, accepted _ (by decide), _, rfl,
    cbc_decrypt_length (by decide), admitted (by decide)⟩
theorem witness_TfinalErrors :
    (live .cbc .pkcs7 .decrypt [] (ftArgs 5 8)).Inv ∧ OperandsAccepted (live .cbc .pkcs7 .decrypt [] (ftArgs 5 8)) ∧
      inputCountOf (live .cbc .pkcs7 .decrypt [] (ftArgs 5 8)) % 8 ≠ 0 ∧
      OperandsAccepted (live .cbc .pkcs7 .decrypt [] ftInOutside) ∧
      ¬ allAdmitted (live .cbc .pkcs7 .decrypt [] ftInOutside) .read 0xFFF9 8 ∧
      OperandsAccepted (live .cbc .pkcs7 .decrypt [] (ftArgs 0 0)) ∧
      (∀ Z, unpad .pkcs7 (runMode (externals toyParams) .cbc .decrypt toyKey 8 toyIV []).1 8 ≠ .ok Z) ∧
      OperandsAccepted (live .cbc .zeros .encrypt [] (ftArgs 8 7)) ∧
      pad .zeros [] (inputBytesOf (live .cbc .zeros .encrypt [] (ftArgs 8 7))) 8 = .ok (zeros 8) ∧
      OperandsAccepted (live .cbc .zeros .encrypt [] ftOutOutside) ∧
      ¬ allAdmitted (live .cbc .zeros .encrypt [] ftOutOutside) .write 0xFFF9 8 :=
  ⟨live_inv _ _ _ _, accepted _ (by decide), by decide, accepted _ (by decide), not_admitted (by decide),
    accepted _ (by decide), fun Z h => (by rw [runMode_nil] at h; cases h), accepted _ (by decide), by decide,
    accepted _ (by decide), not_admitted (by decide)⟩
/-- The output clauses of TfinalErrors for a decryptor: eight bytes that do not fit seven, and eight not admitted. -/
theorem witness_TfinalErrors_decryptor :
    ∃ Z, unpad .zeros (runMode (externals toyParams) .cbc .decrypt toyKey 8 toyIV
        (inputBytesOf (live .cbc .zeros .decrypt [] (ftArgs 8 7)))).1 8 = .ok Z ∧ Z.length = 8 ∧
      ¬ outputFits (live .cbc .zeros .decrypt [] (ftArgs 8 7)) 8 ∧
      ¬ allAdmitted (live .cbc .zeros .decrypt [] ftOutOutside) .write 0xFFF9 8 :=
  ⟨_, rfl, cbc_decrypt_length (by decide),
    by unfold outputFits; decide, not_admitted (by decide)⟩
theorem witness_FinalizedSlotIsDisposed :
    (getSlot (s0 []) 3).st ≠ .active ∧ (s0 []).slots.length = (s0 []).params.numSlots ∧
      ∃ t, exec (.tfinal 0 false false) (live .cbc .nopad .encrypt [] (ftArgs 0 0)) = .next t ∧ t.err = 0 :=
  ⟨by decide, by decide, _, rfl, by decide⟩
theorem witness_ClearErasesSlot : 3 < (s0 []).params.numSlots := by decide
theorem witness_QueryReportsSlot :
    3 < (s0 []).params.numSlots ∧ (getSlot (live .cbc .pkcs7 .encrypt [] []) 0).u < 65536 := by decide
theorem witness_SlotLifecycle :
    ∃ t, exec (.clear 0) (live .cbc .pkcs7 .encrypt [] []) = .next t ∧ t.err = 0 ∧
      (getSlot t 0).st ≠ (getSlot (live .cbc .pkcs7 .encrypt [] []) 0).st := ⟨_, rfl, by decide, by decide⟩
theorem witness_TransformsIgnoreDraws :
    (∃ t, exec (.tblock 0 false false) (live .cbc .pkcs7 .encrypt [] (ftArgs 8 8)) = .next t) ∧
      (getSlot (live .cbc .pkcs7 .encrypt [] []) 0).padding ≠ some .iso10126 := ⟨exec_next _ _, by decide⟩
theorem witness_PadAppends : (zeros 8).length % 8 = 0 ∧ (zeros 5).length % 8 ≠ 0 := by decide
theorem witness_PaddedLengthIsWhole :
    fillerCount .iso10126 (zeros 5).length 8 = [1, 2].length ∧
      ∃ Dp, pad .iso10126 [1, 2] (zeros 5) 8 = .ok Dp := ⟨by decide, _, rfl⟩
theorem witness_UnpadUndoesPad :
    fillerCount .pkcs7 (zeros 255).length 255 = 0 ∧ fillerCount .iso10126 (zeros 0).length 1 = 0 ∧
      (∃ Dp, pad .pkcs7 [] (zeros 5) 255 = .ok Dp) ∧ ∃ Dp, pad .zeros [] (zeros 5) 8 = .ok Dp :=
  ⟨rfl, rfl, ⟨_, rfl⟩, ⟨_, rfl⟩⟩
theorem witness_UnpadPkcs7Accepts :
    8 ≤ (rep 8 8).length ∧ unpad .pkcs7 (rep 8 8) 8 = .ok [] ∧ unpad .pkcs7 (zeros 8) 8 = .error .invalidPadding := by decide
theorem witness_UnpadCountedAccepts :
    8 ≤ (zeros 7 ++ [8]).length ∧ unpad .ansix923 (zeros 7 ++ [8]) 8 = .ok [] ∧
      unpad .iso10126 (zeros 7 ++ [8]) 8 = .ok [] := by decide
theorem witness_RunOverSegments : (zeros 16).length % 8 = 0 ∧ (zeros 8).length = 8 := by decide
theorem witness_FullBlockCfb : toyIV.length = (zeros 8).length ∧ (toyExt.enc toyKey toyIV).length = toyIV.length := by
  decide
theorem witness_DecryptUndoesEncrypt :
    legalBytes toyParams.keySizes toyKey.length = true ∧ legalBytes toyParams.blockSizes 8 = true ∧ toyIV.length = 8 ∧
      (zeros 16).length % 8 = 0 ∧ (zeros 3).length % 1 = 0 ∧
      ∃ Y c1, runMode (externals toyParams) .cfb .encrypt toyKey 1 toyIV (zeros 3) = (Y, c1) :=
  ⟨by decide, by decide, by decide, by decide, by decide, _, _, rfl⟩
theorem witness_FinalDecryptUndoesFinalEncrypt :
    paramsLawful toyParams = true ∧
      SnapshotLawful toyParams (createdSlot (toyCfg .cfb .pkcs7) .encrypt toyKey toyIV) .cfb .pkcs7 ∧
      toyIV.length = blockBytes (createdSlot (toyCfg .cfb .pkcs7) .encrypt toyKey toyIV) ∧
      ∃ C, finalEncrypt (externals toyParams) .cfb .pkcs7 (createdSlot (toyCfg .cfb .pkcs7) .encrypt toyKey toyIV) []
        (zeros 5) = .ok C :=
  ⟨by decide, ⟨rfl, rfl, by decide, rfl, fun _ => by decide, fun _ => by decide, fun _ => by decide⟩, by decide, _, rfl⟩

end Sys2Proof.Tests
end

/-! Proofs for the family 00_scope.md: the frame of a command (R6, R9, R32), said once over all fifteen, and what every step
keeps of the parameters (R6). -/

namespace Sys2Proof.Machine

/-! ### What every command leaves alone -/

/-- The commands that may draw random bytes (R9): SETKEYSIZE, SETBLOCKSIZE, and TFINAL on an encryptor under ISO10126. -/
def MayDraw (i : Instr) (s : State) : Prop :=
  i = .setkeysize ∨ i = .setblocksize ∨
    ∃ slot n0 n1, i = .tfinal slot n0 n1 ∧ (getSlot s slot).dir = .encrypt ∧ (getSlot s slot).padding = some .iso10126

/-- How the state `t` after the command `i` agrees with the state `s` before it, whatever the command: the argument registers
(R32), the parameters (R6), the host's events and its last read, and the drawn bytes but for the commands R9 names. -/
structure CommandFrame (i : Instr) (s t : State) : Prop where
  args : t.args = s.args
  params : t.params = s.params
  pending : t.pending = s.pending
  lastRead : t.lastRead = s.lastRead
  draws : t.draws = s.draws ∨ MayDraw i s

/-- TFINAL draws something only as an encryptor under ISO10126 (R106). -/
theorem finalDraws_eq_zero_or (p : Padding) (sl : Slot) (L : Nat) :
    finalDraws p sl L = 0 ∨ sl.dir = .encrypt ∧ p = .iso10126 := by
  unfold finalDraws
  split
  · next hd => cases p <;> simp [fillerCount, hd]
  · exact .inl rfl

/-- What a completed TFINAL adds to the drawn bytes is nothing, or is added where R9 names it. -/
theorem tfinal_draws (s : State) (slot : Nat) (n0 n1 : Bool) {m : Mode} {p : Padding} (L : Nat)
    (hl : liveTransform (getSlot s slot) = some (m, p)) :
    s.draws + finalDraws p (getSlot s slot) L = s.draws ∨ MayDraw (.tfinal slot n0 n1) s := by
  obtain ⟨-, -, hp⟩ := liveTransform_iff.mp hl
  rcases finalDraws_eq_zero_or p (getSlot s slot) L with h0 | ⟨hd, rfl⟩
  · exact .inl (by rw [h0, Nat.add_zero])
  · exact .inr (.inr (.inr ⟨slot, n0, n1, rfl, hd, hp⟩))

/-- What a command commits keeps the frame: each of the fifteen, by what it commits. -/
theorem resultOf_ok_frame {i : Instr} {s : State} {c : Completed} (h : resultOf i s = .ok c) :
    CommandFrame i s c.state := by
  cases i with
  | setmode => obtain ⟨_, -, rfl⟩ := setmodeResult_ok h; exact ⟨rfl, rfl, rfl, rfl, .inl rfl⟩
  | setpadding => obtain ⟨_, -, rfl⟩ := setpaddingResult_ok h; exact ⟨rfl, rfl, rfl, rfl, .inl rfl⟩
  | setkeysize => obtain ⟨-, rfl⟩ := setkeysizeResult_ok h; exact ⟨rfl, rfl, rfl, rfl, .inr (.inl rfl)⟩
  | setblocksize =>
    obtain ⟨-, ⟨-, rfl⟩ | ⟨-, rfl⟩⟩ := setblocksizeResult_ok h
    · exact ⟨rfl, rfl, rfl, rfl, .inl rfl⟩
    · exact ⟨rfl, rfl, rfl, rfl, .inr (.inr (.inl rfl))⟩
  | setfeedback => obtain ⟨-, -, rfl⟩ := setfeedbackResult_ok h; exact ⟨rfl, rfl, rfl, rfl, .inl rfl⟩
  | setkey n0 => obtain ⟨_, -, -, -, -, rfl⟩ := setkeyResult_ok h; exact ⟨rfl, rfl, rfl, rfl, .inl rfl⟩
  | setiv n0 => obtain ⟨_, -, -, -, rfl⟩ := setivResult_ok h; exact ⟨rfl, rfl, rfl, rfl, .inl rfl⟩
  | getkey n0 => obtain ⟨_, -, -, -, rfl⟩ := copyOut_ok h; exact ⟨rfl, rfl, rfl, rfl, .inl rfl⟩
  | getiv n0 => obtain ⟨_, -, -, -, rfl⟩ := copyOut_ok h; exact ⟨rfl, rfl, rfl, rfl, .inl rfl⟩
  | crenc slot n0 n1 kx ix =>
    obtain ⟨-, _, _, -, -, -, -, -, -, rfl⟩ := creationResult_ok h
    exact ⟨rfl, rfl, rfl, rfl, .inl rfl⟩
  | crdec slot n0 n1 kx ix =>
    obtain ⟨-, _, _, -, -, -, -, -, -, rfl⟩ := creationResult_ok h
    exact ⟨rfl, rfl, rfl, rfl, .inl rfl⟩
  | tblock slot n0 n1 =>
    obtain ⟨-, _, _, _, -, -, -, -, -, -, rfl⟩ := tblockResult_ok h
    exact ⟨rfl, rfl, rfl, rfl, .inl rfl⟩
  | tfinal slot n0 n1 =>
    obtain ⟨-, _, _, _, _, hl, -, -, -, -, -, -, rfl⟩ := tfinalResult_ok h
    exact ⟨rfl, rfl, rfl, rfl, tfinal_draws s slot n0 n1 _ hl⟩
  | clear slot => obtain ⟨-, rfl⟩ := clearResult_ok h; exact ⟨rfl, rfl, rfl, rfl, .inl rfl⟩
  | query slot => obtain ⟨-, rfl⟩ := queryResult_ok h; exact ⟨rfl, rfl, rfl, rfl, .inl rfl⟩

/-- A command raises an error over the state before it, or completes with what it commits (R201). -/
theorem exec_cases {i : Instr} {s t : State} (h : exec i s = .next t) :
    (∃ e, resultOf i s = .error e ∧ t = raise e s) ∨ ∃ c, resultOf i s = .ok c ∧ t = complete c :=
  report_next (exec_eq_report i s ▸ h)

/-- Every command keeps the frame, whether it raises or completes. -/
theorem exec_frame {i : Instr} {s t : State} (h : exec i s = .next t) : CommandFrame i s t := by
  obtain ⟨_, -, rfl⟩ | ⟨c, hc, rfl⟩ := exec_cases h
  · exact ⟨rfl, rfl, rfl, rfl, .inl rfl⟩
  · obtain ⟨hargs, hparams, hpending, hlast, hdraws⟩ := resultOf_ok_frame hc
    exact ⟨hargs, hparams, hpending, hlast, hdraws⟩

/-! ### What every event leaves of the parameters -/

/-- A word written to CMD is run as a command or refused as none; neither changes the parameters (R6, R72). -/
theorem runCommand_params {s t : State} {w : Word} (h : runCommand s w = .next t) : t.params = s.params := by
  unfold runCommand at h
  split at h
  · exact (exec_frame h).params
  · cases h; rfl

theorem windowWrite_params {s t : State} {o : BitVec 12} {width : Nat} {v : Word}
    (h : windowWrite s o width v = .next t) : t.params = s.params := by
  unfold windowWrite at h
  split at h
  · split at h
    · exact runCommand_params h
    · cases h; exact writeRegister_params s o v
  · cases h; rfl

/-- A reset during a command keeps the parameters, both where the command commits first and where it is discarded (R220). -/
theorem resetDuringCommand_params {s t : State} {w : Word} {commits : Bool}
    (h : resetDuringCommand s w commits = .next t) : t.params = s.params := by
  obtain ⟨r, hr, hcase⟩ := resetDuringCommand_cases s w commits
  cases hr.symm.trans h
  obtain ⟨-, rfl⟩ | ⟨-, hrun⟩ := hcase
  · exact platformReset_params _
  · exact (platformReset_params r).trans (runCommand_params hrun)

/-- No host event changes the parameters (R6). -/
theorem takeEvent_params {s t : State} {e : HostEvent} (h : takeEvent s e = .next t) : t.params = s.params := by
  cases e with
  | windowWrite offset width value => exact windowWrite_params h
  | windowRead offset width => cases h; rfl
  | memStore address value => cases h; exact hostStore_params s address value
  | memLoad address => cases h; rfl
  | reset => cases h; rfl
  | resetDuring command commits => exact resetDuringCommand_params h

/-! ### The obligations -/

/-- Settles O10: a step is idle or takes one event, and no event changes the parameters. -/
theorem stepKeepsInstance : Obligations.StepKeepsInstance := by
  intro s t h
  obtain ⟨-, hidle⟩ | ⟨e, rest, -, htake⟩ := step_cases s
  · cases hidle.symm.trans h; rfl
  · have hkept := takeEvent_params (htake.symm.trans h)
    exact hkept

/-- Settles O14, by the frame that every command keeps. -/
theorem drawsOnlyWhereNamed : Obligations.DrawsOnlyWhereNamed := by
  intro i s t h hdrawn
  exact (exec_frame h).draws.resolve_left hdrawn

end Sys2Proof.Machine

/-! Proofs for the family 10_state.md: what a window access reads and writes (R30 to R37), what a command leaves of the
configuration and of the slots (R27, R47), and the invariant that every step keeps (R20 to R24, R40 to R46). -/

namespace Sys2Proof.Machine

/-! ### One event, and the window accesses among them -/

/-- A step takes the event that waits first (R61). -/
theorem step_of_pending {s : State} {e : HostEvent} {rest : List HostEvent} (h : s.pending = e :: rest) :
    step s = takeEvent { s with pending := rest } e := by
  simp only [step, nextEvent, h]

theorem windowAccepts_aligned {offset : BitVec 12} (h : offset.toNat % 4 = 0) : windowAccepts offset 32 = true := by
  simp [windowAccepts, h]

/-- An aligned 32-bit read latches the register at its offset and changes nothing else. -/
theorem step_windowRead {s : State} {offset : BitVec 12} {rest : List HostEvent}
    (h : s.pending = .windowRead offset 32 :: rest) (ha : offset.toNat % 4 = 0) :
    step s = .next { s with pending := rest, lastRead := readRegister s offset } := by
  simp only [step_of_pending h, takeEvent, windowRead, windowAccepts_aligned ha, if_true]
  rfl

/-- Past the last configuration mirror every offset is reserved and reads 0 (R37, R70). -/
theorem readRegister_reserved (s : State) {offset : BitVec 12} (h : 0x04C ≤ offset.toNat) :
    readRegister s offset = 0 := by
  unfold readRegister
  split
  case h_19 => rfl
  all_goals omega

/-- PARAMS as a number: the four fields of R31 do not overlap. -/
theorem paramsWord_toNat {p : Params} (h : p.numSlots ≤ 256) :
    (paramsWord p).toNat = p.numSlots + 4096 * algCode p.alg := by
  have ha : algCode p.alg < 2 ^ 4 := by cases p.alg <;> decide
  have hn : p.numSlots < 2 ^ 9 := by omega
  simp only [paramsWord, BitVec.toNat_append, BitVec.toNat_ofNat, Nat.mod_eq_of_lt ha, Nat.mod_eq_of_lt hn,
    ← Nat.shiftLeft_add_eq_or_of_lt hn]
  simp only [Nat.zero_mod, Nat.zero_mul, Nat.zero_or, Nat.or_zero, Nat.shiftLeft_eq]
  omega

/-- An aligned 32-bit write elsewhere than to CMD is a register write. -/
theorem windowWrite_register (s : State) {offset : BitVec 12} (v : Word) (ha : offset.toNat % 4 = 0)
    (hc : offset ≠ cmdOffset) : windowWrite s offset 32 v = .next (writeRegister s offset v) := by
  simp [windowWrite, windowAccepts_aligned ha, hc]

/-- Below ARG0 and past ARG7 a register write has no effect (R30, R31, R34 to R37). -/
theorem writeRegister_ignored (s : State) {offset : BitVec 12} (v : Word)
    (h : offset.toNat < 0x010 ∨ 0x030 ≤ offset.toNat) : writeRegister s offset v = s := by
  unfold writeRegister
  split
  case h_9 => rfl
  all_goals omega

/-- Outside CMD and the argument registers a write has no effect, refused (R58) or not. -/
theorem windowWrite_ignored (s : State) {offset : BitVec 12} (width : Nat) (v : Word)
    (h : offset.toNat < 0x010 ∨ 0x030 ≤ offset.toNat) (hc : offset ≠ cmdOffset) :
    windowWrite s offset width v = .next s := by
  rw [windowWrite, if_neg hc, writeRegister_ignored s v h, ite_self]

/-- An aligned 32-bit write elsewhere than to CMD, as a step. -/
theorem step_windowWrite {s : State} {offset : BitVec 12} {v : Word} {rest : List HostEvent}
    (h : s.pending = .windowWrite offset 32 v :: rest) (ha : offset.toNat % 4 = 0) (hc : offset ≠ cmdOffset) :
    step s = .next (writeRegister { s with pending := rest } offset v) :=
  (step_of_pending h).trans (windowWrite_register _ v ha hc)

/-! ### What a command leaves of the configuration and the slots -/

/-- The slot a command may write: that of a creation, a transform or a CLEAR (R47). QUERY names one and only reads it. -/
def writtenSlot : Instr → Option Nat
  | .crenc slot _ _ _ _ => some slot
  | .crdec slot _ _ _ _ => some slot
  | .tblock slot _ _ => some slot
  | .tfinal slot _ _ => some slot
  | .clear slot => some slot
  | _ => none

/-- How `t` differs from `s` in its slots after the command `i`: not at all, or in the slot `i` writes, the configuration then
being as before. -/
def SlotFrame (i : Instr) (s t : State) : Prop :=
  t.slots = s.slots ∨ ∃ n sl, writtenSlot i = some n ∧ t.slots = s.slots.set n sl ∧ t.cfg = s.cfg

/-- What a command commits keeps the slot frame. -/
theorem resultOf_ok_slotFrame {i : Instr} {s : State} {c : Completed} (h : resultOf i s = .ok c) :
    SlotFrame i s c.state := by
  cases i with
  | setmode => obtain ⟨_, -, rfl⟩ := setmodeResult_ok h; exact .inl rfl
  | setpadding => obtain ⟨_, -, rfl⟩ := setpaddingResult_ok h; exact .inl rfl
  | setkeysize => obtain ⟨-, rfl⟩ := setkeysizeResult_ok h; exact .inl rfl
  | setblocksize => obtain ⟨-, ⟨-, rfl⟩ | ⟨-, rfl⟩⟩ := setblocksizeResult_ok h <;> exact .inl rfl
  | setfeedback => obtain ⟨-, -, rfl⟩ := setfeedbackResult_ok h; exact .inl rfl
  | setkey n0 => obtain ⟨_, -, -, -, -, rfl⟩ := setkeyResult_ok h; exact .inl rfl
  | setiv n0 => obtain ⟨_, -, -, -, rfl⟩ := setivResult_ok h; exact .inl rfl
  | getkey n0 => obtain ⟨_, -, -, -, rfl⟩ := copyOut_ok h; exact .inl rfl
  | getiv n0 => obtain ⟨_, -, -, -, rfl⟩ := copyOut_ok h; exact .inl rfl
  | crenc slot n0 n1 kx ix =>
    obtain ⟨-, _, _, -, -, -, -, -, -, rfl⟩ := creationResult_ok h
    exact .inr ⟨slot, _, rfl, rfl, rfl⟩
  | crdec slot n0 n1 kx ix =>
    obtain ⟨-, _, _, -, -, -, -, -, -, rfl⟩ := creationResult_ok h
    exact .inr ⟨slot, _, rfl, rfl, rfl⟩
  | tblock slot n0 n1 =>
    obtain ⟨-, _, _, _, -, -, -, -, -, -, rfl⟩ := tblockResult_ok h
    exact .inr ⟨slot, _, rfl, rfl, rfl⟩
  | tfinal slot n0 n1 =>
    obtain ⟨-, _, _, _, _, -, -, -, -, -, -, -, rfl⟩ := tfinalResult_ok h
    exact .inr ⟨slot, _, rfl, rfl, rfl⟩
  | clear slot => obtain ⟨-, rfl⟩ := clearResult_ok h; exact .inr ⟨slot, _, rfl, rfl, rfl⟩
  | query slot => obtain ⟨-, rfl⟩ := queryResult_ok h; exact .inl rfl

/-- Every command keeps the slot frame, whether it raises or completes. -/
theorem exec_slotFrame {i : Instr} {s t : State} (h : exec i s = .next t) : SlotFrame i s t := by
  obtain ⟨_, -, rfl⟩ | ⟨c, hc, rfl⟩ := exec_cases h
  · exact .inl rfl
  · exact resultOf_ok_slotFrame hc

/-- A command reads a slot it does not write as before. -/
theorem exec_getSlot_ne {i : Instr} {s t : State} {k : Nat} (h : exec i s = .next t) (hk : writtenSlot i ≠ some k) :
    getSlot t k = getSlot s k := by
  obtain hslots | ⟨n, sl, hn, hslots, -⟩ := exec_slotFrame h
  · simp only [getSlot, hslots, (exec_frame h).params]
  · have hne : k ≠ n := fun hkn => hk (hkn ▸ hn)
    calc getSlot t k = getSlot (setSlot s n sl) k := by
            simp only [getSlot, setSlot_slots, setSlot_params, hslots, (exec_frame h).params]
      _ = getSlot s k := getSlot_setSlot_ne s sl hne

/-! ### Sizes in their registers (R21, R23, R24) -/

theorem toNat_ofInt_word {v : Int} (h0 : 0 ≤ v) (h1 : v < 2 ^ 32) : ((BitVec.ofInt 32 v).toNat : Int) = v := by
  rw [BitVec.toNat_ofInt]
  omega

theorem toNat_ofNat_word {n : Nat} (h : (n : Int) < 2 ^ 32) : (BitVec.ofNat 32 n).toNat = n := by
  rw [BitVec.toNat_ofNat]
  omega

/-- A legal size in bits is eight times its size in bytes (R6, R10). -/
theorem legalBytes_of_legal {t : List SizeEntry} {v : Int} (ht : t.all entryLawful = true) (h : legal t v = true) :
    legalBytes t (v / 8).toNat = true := by
  have hb := legal_bounds ht h
  rw [legalBytes, show (8 * ((v / 8).toNat : Int)) = v by omega]
  exact h

/-! ### The configuration's invariant under each write of it -/

theorem CfgLawful.withModes {p : Params} {c : Cfg} (h : CfgLawful p c) (m : Mode) (pd : Padding) :
    CfgLawful p { c with mode := m, padding := pd } :=
  ⟨h.keyLegal, h.keyStrong, h.keyBitsAgree, h.blockLegal, h.ivLength, h.feedbackPositive⟩

theorem CfgLawful.withKey {p : Params} {c : Cfg} (h : CfgLawful p c) {K : Bytes} {bits : Word}
    (hlegal : legalBytes p.keySizes K.length = true) (hstrong : isWeakKey p.alg K = false)
    (hbits : bits.toNat = 8 * K.length) : CfgLawful p { c with key := K, keyBits := bits } :=
  ⟨hlegal, hstrong, hbits, h.blockLegal, h.ivLength, h.feedbackPositive⟩

theorem CfgLawful.withBlock {p : Params} {c : Cfg} (h : CfgLawful p c) {bits : Word} {iv : Bytes}
    (hlegal : legal p.blockSizes (bits.toNat : Nat) = true) (hiv : iv.length = bits.toNat / 8) :
    CfgLawful p { c with blockBits := bits, iv := iv } :=
  ⟨h.keyLegal, h.keyStrong, h.keyBitsAgree, hlegal, hiv, h.feedbackPositive⟩

theorem CfgLawful.withFeedback {p : Params} {c : Cfg} (h : CfgLawful p c) {bits : Word} (hpos : 1 ≤ bits.toNat) :
    CfgLawful p { c with feedbackBits := bits } :=
  ⟨h.keyLegal, h.keyStrong, h.keyBitsAgree, h.blockLegal, h.ivLength, hpos⟩

/-- The key and the IV drawn at reset are those the default sizes ask for (R220). -/
theorem resetCfg_lawful {p : Params} (hp : paramsLawful p = true) (drawn : Nat) : CfgLawful p (resetCfg p drawn) := by
  obtain ⟨hkeys, hblocks, -, -, hkey, hblock, hfb, hfbBlock, -⟩ := paramsLawful_parts hp
  have hk := legal_bounds hkeys hkey
  have hb := legal_bounds hblocks hblock
  have hkBits := toNat_ofNat_word hk.2.1
  have hbBits := toNat_ofNat_word hb.2.1
  have hfBits : (BitVec.ofNat 32 p.defaultFeedbackBits).toNat = p.defaultFeedbackBits := toNat_ofNat_word (by omega)
  refine ⟨?_, drawnKey_strong _ _ _, ?_, ?_, ?_, ?_⟩ <;>
    simp only [resetCfg, drawnKey_length, drawnBytes_length, hkBits, hbBits, hfBits]
  · exact legalBytes_of_legal hkeys hkey
  · omega
  · exact hblock
  · exact hfb

/-! ### The slots' invariant under each write of a slot -/

theorem SnapshotLawful.erased {p : Params} {sl : Slot} {m : Mode} {pd : Padding} (h : SnapshotLawful p sl m pd)
    (st : SlotState) : SnapshotLawful p (erasedSlot sl st) m pd :=
  ⟨h.modeHeld, h.paddingHeld, h.blockLegal, h.segment, h.feedbackSupported, h.feedbackFits, h.countFits⟩

theorem NeverCreated.erased {sl : Slot} (h : NeverCreated sl) : NeverCreated (erasedSlot sl .cleared) :=
  ⟨rfl, h.dirZero, h.modeZero, h.paddingZero, h.blockZero, h.feedbackZero, h.segmentZero⟩

/-- A slot erased out of Active keeps only the origin of its fields to prove. -/
theorem erasedSlot_lawful {p : Params} {sl : Slot} {st : SlotState} (hst : st ≠ .active)
    (ho : NeverCreated (erasedSlot sl st) ∨ ∃ m pd, SnapshotLawful p (erasedSlot sl st) m pd) :
    SlotLawful p (erasedSlot sl st) where
  inputEmpty := rfl
  origin := ho
  activeKey := fun h => absurd h hst
  activeChain := fun h => absurd h hst
  erasedKey := fun _ => by simp
  erasedChain := fun _ => by simp

/-- CLEAR leaves a lawful slot, whatever it held (R160). -/
theorem SlotLawful.cleared {p : Params} {sl : Slot} (h : SlotLawful p sl) : SlotLawful p (erasedSlot sl .cleared) := by
  refine erasedSlot_lawful (by decide) ?_
  obtain hnever | ⟨m, pd, hsnap⟩ := h.origin
  · exact .inl hnever.erased
  · exact .inr ⟨m, pd, hsnap.erased _⟩

/-- TFINAL leaves a lawful slot: what it ends was a live transform (R150). -/
theorem SlotLawful.finalized {p : Params} {sl : Slot} {m : Mode} {pd : Padding} (h : SlotLawful p sl)
    (hl : liveTransform sl = some (m, pd)) : SlotLawful p (erasedSlot sl .finalized) :=
  erasedSlot_lawful (by decide) (.inr ⟨m, pd, (liveTransform_snapshot h hl).2.erased _⟩)

/-- A live slot takes a new chaining register of one block (R142). -/
theorem SlotLawful.withChain {p : Params} {sl : Slot} (h : SlotLawful p sl) (hact : sl.st = .active) {c : Bytes}
    (hc : c.length = sl.blockBits.toNat / 8) : SlotLawful p { sl with chain := c } where
  inputEmpty := h.inputEmpty
  origin := by
    obtain hnever | ⟨m, pd, hsnap⟩ := h.origin
    · exact absurd (hnever.cleared.symm.trans hact) (by decide)
    · exact .inr ⟨m, pd, hsnap.modeHeld, hsnap.paddingHeld, hsnap.blockLegal, hsnap.segment, hsnap.feedbackSupported,
        hsnap.feedbackFits, hsnap.countFits⟩
  activeKey := h.activeKey
  activeChain := fun _ => hc
  erasedKey := h.erasedKey
  erasedChain := fun hne => absurd hact hne

/-- Creation makes a lawful slot of a lawful configuration that passes R180's checks. -/
theorem createdSlot_lawful {s : State} (hcfg : CfgLawful s.params s.cfg) (hcheck : creationCheck s = .ok ())
    (d : Direction) {K IV : Bytes} (hK : legalBytes s.params.keySizes K.length = true)
    (hIV : IV.length = s.cfg.blockBits.toNat / 8) : SlotLawful s.params (createdSlot s.cfg d K IV) := by
  obtain ⟨hcfb, hcount⟩ := creationCheck_ok_iff.mp hcheck
  exact
    { inputEmpty := rfl
      origin := .inr ⟨s.cfg.mode, s.cfg.padding, rfl, rfl, hcfg.blockLegal, rfl, fun hm => (hcfb hm).2,
        fun hm => (hcfb hm).1, hcount⟩
      activeKey := fun _ => hK
      activeChain := fun _ => hIV
      erasedKey := fun h => absurd rfl h
      erasedChain := fun h => absurd rfl h }

/-- The key a creation takes has a legal size, explicit or the configuration's (R180). -/
theorem creationKey_legal {s : State} {kx n0 : Bool} {kb : Option Buffer} (hcfg : CfgLawful s.params s.cfg)
    (h : explicitKey kx n0 s = .ok kb) : legalBytes s.params.keySizes (operandOr s s.cfg.key kb).length = true := by
  obtain ⟨-, rfl⟩ | ⟨-, -, b, -, hlegal, rfl⟩ := explicitKey_ok_iff.mp h
  · exact hcfg.keyLegal
  · simpa only [operandOr, memRead_length] using hlegal

/-- The IV a creation takes is one block, explicit or the configuration's (R180). -/
theorem creationIV_length {s : State} {ix n1 : Bool} {ib : Option Buffer} (hcfg : CfgLawful s.params s.cfg)
    (h : explicitIV ix n1 s = .ok ib) : (operandOr s s.cfg.iv ib).length = s.cfg.blockBits.toNat / 8 := by
  obtain ⟨-, rfl⟩ | ⟨-, -, b, -, hlen, rfl⟩ := explicitIV_ok_iff.mp h
  · exact hcfg.ivLength
  · simpa only [operandOr, memRead_length] using hlen

/-! ### The machine's invariant under each kind of write -/

/-- The invariant speaks of the parameters, the configuration, the slots and host memory alone. -/
theorem State.Inv.congr {s t : State} (h : s.Inv) (hp : t.params = s.params) (hc : t.cfg = s.cfg)
    (hsl : t.slots = s.slots) (hm : t.mem = s.mem) : t.Inv where
  instanceLawful := by rw [hp]; exact h.instanceLawful
  cfgLawful := by rw [hp, hc]; exact h.cfgLawful
  slotCount := by rw [hp, hsl]; exact h.slotCount
  slotsLawful := by rw [hp, hsl]; exact h.slotsLawful
  memoryCanonical := by rw [hm]; exact h.memoryCanonical

theorem State.Inv.withCfg {s : State} (h : s.Inv) {c : Cfg} (hc : CfgLawful s.params c) : (withCfg s c).Inv :=
  ⟨h.instanceLawful, hc, h.slotCount, h.slotsLawful, h.memoryCanonical⟩

theorem State.Inv.withMem {s : State} (h : s.Inv) {m : Memory} (hm : m.wf = true) : State.Inv { s with mem := m } :=
  ⟨h.instanceLawful, h.cfgLawful, h.slotCount, h.slotsLawful, hm⟩

theorem State.Inv.setSlot {s : State} (h : s.Inv) (n : Nat) {sl : Slot} (hsl : SlotLawful s.params sl) :
    (setSlot s n sl).Inv where
  instanceLawful := h.instanceLawful
  cfgLawful := h.cfgLawful
  slotCount := by simpa using h.slotCount
  slotsLawful := fun x hx => by
    obtain hx | rfl := List.mem_or_eq_of_mem_set hx
    · exact h.slotsLawful x hx
    · exact hsl
  memoryCanonical := h.memoryCanonical

/-- A reset of a lawful machine leaves a lawful one (R220, R221). -/
theorem State.Inv.platformReset {s : State} (h : s.Inv) : (platformReset s).Inv where
  instanceLawful := h.instanceLawful
  cfgLawful := resetCfg_lawful h.instanceLawful s.draws
  slotCount := List.length_replicate
  slotsLawful := fun x hx => by
    obtain rfl := List.eq_of_mem_replicate hx
    exact freshSlot_lawful s.params
  memoryCanonical := h.memoryCanonical

/-! ### Every command keeps the invariant -/

theorem setkeysizeResult_inv {s : State} {c : Completed} (h : s.Inv)
    (hr : setkeysizeResult (externals s.params) s = .ok c) : c.state.Inv := by
  obtain ⟨hlegal, rfl⟩ := setkeysizeResult_ok hr
  have hkeys := (paramsLawful_parts h.instanceLawful).1
  have hb := legal_bounds hkeys hlegal
  have hbits := toNat_ofInt_word (v := scalarOperand s) (by omega) hb.2.1
  refine (h.withCfg (h.cfgLawful.withKey ?_ (drawnKey_strong s.params.alg s.draws (scalarOperand s / 8).toNat)
    (bits := BitVec.ofInt 32 (scalarOperand s)) ?_)).congr rfl rfl rfl rfl
  · rw [drawnKey_length]
    exact legalBytes_of_legal hkeys hlegal
  · rw [drawnKey_length]
    omega

theorem setblocksizeResult_inv {s : State} {c : Completed} (h : s.Inv)
    (hr : setblocksizeResult (externals s.params) s = .ok c) : c.state.Inv := by
  obtain ⟨hlegal, ⟨-, rfl⟩ | ⟨-, rfl⟩⟩ := setblocksizeResult_ok hr
  · exact h
  · have hb := legal_bounds (paramsLawful_parts h.instanceLawful).2.1 hlegal
    have hbits := toNat_ofInt_word (v := scalarOperand s) (by omega) hb.2.1
    refine (h.withCfg (h.cfgLawful.withBlock (bits := BitVec.ofInt 32 (scalarOperand s))
      (iv := drawnBytes s.draws (scalarOperand s / 8).toNat) ?_ ?_)).congr rfl rfl rfl rfl
    · rw [hbits]
      exact hlegal
    · rw [drawnBytes_length]
      omega

theorem setfeedbackResult_inv {s : State} {c : Completed} (h : s.Inv) (hr : setfeedbackResult s = .ok c) :
    c.state.Inv := by
  obtain ⟨hlo, hhi, rfl⟩ := setfeedbackResult_ok hr
  have hword := s.cfg.blockBits.isLt
  have hbits := toNat_ofInt_word (v := scalarOperand s) (by omega) (by omega)
  exact h.withCfg (h.cfgLawful.withFeedback (by omega))

theorem setkeyResult_inv {n0 : Bool} {s : State} {c : Completed} (h : s.Inv)
    (hr : setkeyResult (externals s.params) n0 s = .ok c) : c.state.Inv := by
  obtain ⟨b, -, hlegal, -, hstrong, rfl⟩ := setkeyResult_ok hr
  have hb := legal_bounds (paramsLawful_parts h.instanceLawful).1 hlegal
  have hbits : (BitVec.ofNat 32 (8 * b.len)).toNat = 8 * b.len := toNat_ofNat_word (by omega)
  refine h.withCfg (h.cfgLawful.withKey ?_ hstrong ?_) <;> rw [memRead_length]
  · exact hlegal
  · exact hbits

theorem setivResult_inv {n0 : Bool} {s : State} {c : Completed} (h : s.Inv) (hr : setivResult n0 s = .ok c) :
    c.state.Inv := by
  obtain ⟨b, -, hlen, -, rfl⟩ := setivResult_ok hr
  exact h.withCfg (h.cfgLawful.withBlock h.cfgLawful.blockLegal (by rw [memRead_length, hlen]))

/-- GETKEY and GETIV store inside the host addresses (R52). -/
theorem copyOut_inv {data : Bytes} {n0 : Bool} {s : State} {c : Completed} (h : s.Inv)
    (hr : copyOut data n0 s = .ok c) : c.state.Inv := by
  obtain ⟨b, hb, hfits, -, rfl⟩ := copyOut_ok hr
  have hinside := bufferOperand_inside hb
  exact h.withMem (memWrite_wf h.memoryCanonical (by omega))

theorem creationResult_inv {d : Direction} {slot : Nat} {n0 n1 kx ix : Bool} {s : State} {c : Completed} (h : s.Inv)
    (hr : creationResult (externals s.params) d slot n0 n1 kx ix s = .ok c) : c.state.Inv := by
  obtain ⟨-, kb, ib, hkey, hiv, hcheck, -, -, -, rfl⟩ := creationResult_ok hr
  exact h.setSlot slot
    (createdSlot_lawful h.cfgLawful hcheck d (creationKey_legal h.cfgLawful hkey) (creationIV_length h.cfgLawful hiv))

/-- TBLOCK stores as many bytes as it reads, so its output range is the one R53 checks. -/
theorem tblockResult_inv {slot : Nat} {n0 n1 : Bool} {s : State} {c : Completed} (h : s.Inv)
    (hr : tblockResult (externals s.params) slot n0 n1 s = .ok c) : c.state.Inv := by
  obtain ⟨-, m, pd, o, hlive, hop, hwhole, -, hfits, -, rfl⟩ := tblockResult_ok hr
  obtain ⟨hactive, -⟩ := liveTransform_snapshot (getSlot_lawful h slot) hlive
  obtain ⟨hout, hchain⟩ := liveRun_lengths h hlive (getSlot s slot).dir (X := memRead s.mem o.inAddr o.inCount)
    (by rwa [memRead_length])
  have hinside := outputRange_inside hop hfits
  rw [memRead_length] at hout
  exact (h.setSlot slot ((getSlot_lawful h slot).withChain hactive hchain)).withMem
    (memWrite_wf h.memoryCanonical (by rwa [hout]))

theorem tfinalResult_inv {slot : Nat} {n0 n1 : Bool} {s : State} {c : Completed} (h : s.Inv)
    (hr : tfinalResult (externals s.params) slot n0 n1 s = .ok c) : c.state.Inv := by
  obtain ⟨-, m, pd, o, Z, hlive, hop, -, -, -, hfits, -, rfl⟩ := tfinalResult_ok hr
  exact ((h.setSlot slot ((getSlot_lawful h slot).finalized hlive)).withMem
    (memWrite_wf h.memoryCanonical (outputRange_inside hop hfits))).congr rfl rfl rfl rfl

/-- What a command commits meets the invariant. -/
theorem resultOf_ok_inv {i : Instr} {s : State} {c : Completed} (h : s.Inv) (hr : resultOf i s = .ok c) :
    c.state.Inv := by
  cases i with
  | setmode => obtain ⟨m, -, rfl⟩ := setmodeResult_ok hr; exact h.withCfg (h.cfgLawful.withModes m _)
  | setpadding => obtain ⟨pd, -, rfl⟩ := setpaddingResult_ok hr; exact h.withCfg (h.cfgLawful.withModes _ pd)
  | setkeysize => exact setkeysizeResult_inv h hr
  | setblocksize => exact setblocksizeResult_inv h hr
  | setfeedback => exact setfeedbackResult_inv h hr
  | setkey n0 => exact setkeyResult_inv h hr
  | setiv n0 => exact setivResult_inv h hr
  | getkey n0 => exact copyOut_inv h hr
  | getiv n0 => exact copyOut_inv h hr
  | crenc slot n0 n1 kx ix => exact creationResult_inv h hr
  | crdec slot n0 n1 kx ix => exact creationResult_inv h hr
  | tblock slot n0 n1 => exact tblockResult_inv h hr
  | tfinal slot n0 n1 => exact tfinalResult_inv h hr
  | clear slot => obtain ⟨-, rfl⟩ := clearResult_ok hr; exact h.setSlot slot (getSlot_lawful h slot).cleared
  | query slot => obtain ⟨-, rfl⟩ := queryResult_ok hr; exact h

/-- An error changes nothing the invariant speaks of, and reporting a completion changes no more (R201). -/
theorem exec_inv {i : Instr} {s t : State} (h : s.Inv) (ht : exec i s = .next t) : t.Inv := by
  obtain ⟨_, -, rfl⟩ | ⟨c, hc, rfl⟩ := exec_cases ht
  · exact h.congr rfl rfl rfl rfl
  · exact (resultOf_ok_inv h hc).congr rfl rfl rfl rfl

/-! ### Every event keeps the invariant -/

theorem runCommand_inv {s t : State} {w : Word} (h : s.Inv) (ht : runCommand s w = .next t) : t.Inv := by
  unfold runCommand at ht
  split at ht
  · exact exec_inv h ht
  · cases ht
    exact h.congr rfl rfl rfl rfl

theorem windowWrite_inv {s t : State} {offset : BitVec 12} {width : Nat} {v : Word} (h : s.Inv)
    (ht : windowWrite s offset width v = .next t) : t.Inv := by
  unfold windowWrite at ht
  split at ht
  · split at ht
    · exact runCommand_inv h ht
    · cases ht
      exact h.congr (by simp) (by simp) (by simp) (by simp)
  · cases ht
    exact h

/-- A host's store is at a 32-bit address (R50). -/
theorem hostStore_inv {s : State} (h : s.Inv) (a : Word) (v : Byte) : (hostStore s a v).Inv := by
  unfold hostStore
  split
  · exact h
  · exact h.withMem (writeByte_wf v h.memoryCanonical a.isLt)

theorem resetDuringCommand_inv {s t : State} {w : Word} {commits : Bool} (h : s.Inv)
    (ht : resetDuringCommand s w commits = .next t) : t.Inv := by
  obtain ⟨r, hr, hcase⟩ := resetDuringCommand_cases s w commits
  cases hr.symm.trans ht
  obtain ⟨-, rfl⟩ | ⟨-, hrun⟩ := hcase
  · exact h.platformReset
  · exact (runCommand_inv h hrun).platformReset

theorem takeEvent_inv {s t : State} {e : HostEvent} (h : s.Inv) (ht : takeEvent s e = .next t) : t.Inv := by
  cases e with
  | windowWrite offset width value => exact windowWrite_inv h ht
  | windowRead offset width => cases ht; exact h.congr rfl rfl rfl rfl
  | memStore address value => cases ht; exact hostStore_inv h address value
  | memLoad address => cases ht; exact h.congr rfl rfl rfl rfl
  | reset => cases ht; exact h.platformReset
  | resetDuring command commits => exact resetDuringCommand_inv h ht

/-! ### The obligations -/

/-- Settles O21: a step is idle or takes one event, and every event keeps the invariant. -/
theorem stepKeepsInvariant : Obligations.StepKeepsInvariant := by
  intro s t h ht
  obtain ⟨-, hidle⟩ | ⟨e, rest, -, htake⟩ := step_cases s
  · cases hidle.symm.trans ht
    exact h
  · have htaken : State.Inv { s with pending := rest } := h.congr rfl rfl rfl rfl
    exact takeEvent_inv htaken (htake.symm.trans ht)

/-- Settles O9, by the frame that every command keeps. -/
theorem commandsKeepHostRegisters : Obligations.CommandsKeepHostRegisters := by
  intro i s t h
  obtain ⟨hargs, hparams, hpending, hlast, -⟩ := exec_frame h
  exact ⟨hargs, hparams, hpending, hlast⟩

/-- Settles O15: the slots a command does not name are not the one it writes. -/
theorem otherSlotsUntouched : Obligations.OtherSlotsUntouched := by
  intro i s t k h hcreate htransform hclear
  refine exec_getSlot_ne h fun hk => ?_
  cases i with
  | crenc slot n0 n1 kx ix => exact hcreate slot n0 n1 kx ix (.inl rfl) (Option.some.inj hk).symm
  | crdec slot n0 n1 kx ix => exact hcreate slot n0 n1 kx ix (.inr rfl) (Option.some.inj hk).symm
  | tblock slot n0 n1 => exact htransform slot n0 n1 (.inl rfl) (Option.some.inj hk).symm
  | tfinal slot n0 n1 => exact htransform slot n0 n1 (.inr rfl) (Option.some.inj hk).symm
  | clear slot => exact hclear slot rfl (Option.some.inj hk).symm
  | setmode | setpadding | setkeysize | setblocksize | setfeedback | setkey | setiv | getkey | getiv | query => cases hk

/-- Settles O33: a command that writes a slot keeps the configuration. -/
theorem configurationNeverChangesSlots : Obligations.ConfigurationNeverChangesSlots := by
  intro s t i h hcfg
  obtain hslots | ⟨n, sl, -, -, hkept⟩ := exec_slotFrame h
  · exact hslots
  · exact absurd hkept hcfg

/-- Settles O6: a read latches the register at its offset, and each register holds what its rule says. -/
theorem windowRegistersRead : Obligations.WindowRegistersRead := by
  intro s offset rest h ha
  refine ⟨_, step_windowRead h ha, rfl, ?_, ?params, ?_, ?_, ?_, ?_, ?_, ?_, ?_, ?_, ?_, ?_, ?_, ?_, ?mode, ?padding, ?_, ?_,
    ?_, readRegister_reserved s⟩
  case params =>
    rintro rfl hn
    refine (paramsWord_toNat hn).trans ?_
    cases s.params.alg <;> rfl
  case mode =>
    rintro rfl
    show ((modeCode s.cfg.mode).zeroExtend 32).toNat = _
    cases s.cfg.mode <;> rfl
  case padding =>
    rintro rfl
    show ((paddingCode s.cfg.padding).zeroExtend 32).toNat = _
    cases s.cfg.padding <;> rfl
  all_goals
    rintro rfl
    rfl

/-- Settles O8: a write elsewhere than to CMD is a register write, and past the argument registers that is none. -/
theorem windowWritesSetArguments : Obligations.WindowWritesSetArguments := by
  intro s offset v rest h
  refine ⟨?_, ?_, ?_, ?_, ?_, ?_, ?_, ?_, ?ignored⟩
  case ignored => exact fun hout hcmd => (step_of_pending h).trans (windowWrite_ignored _ 32 v hout hcmd)
  all_goals
    rintro rfl
    exact step_windowWrite h (by decide) (by decide)

end Sys2Proof.Machine

/-! Proofs for the family 20_memory.md: what a command may store in host memory (R50, R55, R56), the window accesses that are
refused (R58), and the checks of a buffer operand (R52). -/

namespace Sys2Proof.Machine

/-! ### What a command leaves of host memory -/

/-- The commands that store in host memory (R50): GETKEY, GETIV, TBLOCK and TFINAL. -/
def StoresMemory (i : Instr) : Prop :=
  (∃ n0, i = .getkey n0 ∨ i = .getiv n0) ∨ ∃ slot n0 n1, i = .tblock slot n0 n1 ∨ i = .tfinal slot n0 n1

/-- How `t` differs from `s` in host memory after the command `i`: not at all, or, where `i` stores, by one byte string. From a
lawful state every byte of that string is admitted for writing (R55); without the invariant TBLOCK's check, which is made of
`inCount` bytes, would say nothing of the length of the mode engine's output. -/
def MemoryFrame (i : Instr) (s t : State) : Prop :=
  t.mem = s.mem ∨
    StoresMemory i ∧ ∃ addr data, t.mem = memWrite s.mem addr data ∧
      (s.Inv → admitsRange s.params .write addr data.length = true)

/-- GETKEY and GETIV store the string whose range they check (R177, R178). -/
theorem copyOut_stores {data : Bytes} {n0 : Bool} {s : State} {c : Completed} (h : copyOut data n0 s = .ok c) :
    ∃ addr, c.state.mem = memWrite s.mem addr data ∧ admitsRange s.params .write addr data.length = true := by
  obtain ⟨b, -, -, hadmit, rfl⟩ := copyOut_ok h
  exact ⟨b.addr, rfl, hadmit⟩

/-- TBLOCK checks a range of `inCount` bytes, and from a lawful state that is the length of what it stores (R142). -/
theorem tblockResult_stores {slot : Nat} {n0 n1 : Bool} {s : State} {c : Completed}
    (h : tblockResult (externals s.params) slot n0 n1 s = .ok c) :
    ∃ addr data, c.state.mem = memWrite s.mem addr data ∧
      (s.Inv → admitsRange s.params .write addr data.length = true) := by
  obtain ⟨-, m, pd, o, hlive, -, hwhole, -, -, hadmit, rfl⟩ := tblockResult_ok h
  refine ⟨outputAddress o, _, rfl, fun hinv => ?_⟩
  obtain ⟨hout, -⟩ := liveRun_lengths hinv hlive (getSlot s slot).dir (X := memRead s.mem o.inAddr o.inCount)
    (by rwa [memRead_length])
  rwa [hout, memRead_length]

/-- What a command commits keeps the memory frame. -/
theorem resultOf_ok_memoryFrame {i : Instr} {s : State} {c : Completed} (h : resultOf i s = .ok c) :
    MemoryFrame i s c.state := by
  cases i with
  | setmode => obtain ⟨_, -, rfl⟩ := setmodeResult_ok h; exact .inl rfl
  | setpadding => obtain ⟨_, -, rfl⟩ := setpaddingResult_ok h; exact .inl rfl
  | setkeysize => obtain ⟨-, rfl⟩ := setkeysizeResult_ok h; exact .inl rfl
  | setblocksize => obtain ⟨-, ⟨-, rfl⟩ | ⟨-, rfl⟩⟩ := setblocksizeResult_ok h <;> exact .inl rfl
  | setfeedback => obtain ⟨-, -, rfl⟩ := setfeedbackResult_ok h; exact .inl rfl
  | setkey n0 => obtain ⟨_, -, -, -, -, rfl⟩ := setkeyResult_ok h; exact .inl rfl
  | setiv n0 => obtain ⟨_, -, -, -, rfl⟩ := setivResult_ok h; exact .inl rfl
  | getkey n0 =>
    obtain ⟨addr, hmem, hadmit⟩ := copyOut_stores h
    exact .inr ⟨.inl ⟨n0, .inl rfl⟩, addr, _, hmem, fun _ => hadmit⟩
  | getiv n0 =>
    obtain ⟨addr, hmem, hadmit⟩ := copyOut_stores h
    exact .inr ⟨.inl ⟨n0, .inr rfl⟩, addr, _, hmem, fun _ => hadmit⟩
  | crenc slot n0 n1 kx ix => obtain ⟨-, _, _, -, -, -, -, -, -, rfl⟩ := creationResult_ok h; exact .inl rfl
  | crdec slot n0 n1 kx ix => obtain ⟨-, _, _, -, -, -, -, -, -, rfl⟩ := creationResult_ok h; exact .inl rfl
  | tblock slot n0 n1 => exact .inr ⟨.inr ⟨slot, n0, n1, .inl rfl⟩, tblockResult_stores h⟩
  | tfinal slot n0 n1 =>
    obtain ⟨-, _, _, o, Z, -, -, -, -, -, -, hadmit, rfl⟩ := tfinalResult_ok h
    exact .inr ⟨.inr ⟨slot, n0, n1, .inr rfl⟩, outputAddress o, Z, rfl, fun _ => hadmit⟩
  | clear slot => obtain ⟨-, rfl⟩ := clearResult_ok h; exact .inl rfl
  | query slot => obtain ⟨-, rfl⟩ := queryResult_ok h; exact .inl rfl

/-- Every command keeps the memory frame, whether it raises or completes. -/
theorem exec_memoryFrame {i : Instr} {s t : State} (h : exec i s = .next t) : MemoryFrame i s t := by
  obtain ⟨_, -, rfl⟩ | ⟨c, hc, rfl⟩ := exec_cases h
  · exact .inl rfl
  · exact resultOf_ok_memoryFrame hc

/-- QUERY writes STATUS and RESULT alone (R162). -/
theorem exec_query_frame {slot : Nat} {s t : State} (h : exec (.query slot) s = .next t) :
    t = { s with err := t.err, result0 := t.result0, result1 := t.result1 } := by
  obtain ⟨_, -, rfl⟩ | ⟨c, hc, rfl⟩ := exec_cases h
  · rfl
  · obtain ⟨-, rfl⟩ := queryResult_ok hc
    rfl

/-! ### Bytes that are not admitted -/

/-- A byte of the engine's window is admitted for no access (R56). -/
theorem admits_window {p : Params} (k : AccessKind) {a : Nat}
    (h : p.smeBase.toNat ≤ a ∧ a ≤ p.smeBase.toNat + 0xFFF) : admits p k a = false := by
  have hwin : inWindow p a = true := by simpa [inWindow] using h
  exact Bool.eq_false_of_not_eq_true fun hadmit => absurd ((admits_not_window hadmit).symm.trans hwin) Bool.false_ne_true

/-- Storing in an admitted range leaves a byte that is not admitted alone (R55). -/
theorem readByte_memWrite_unadmitted (m : Memory) {p : Params} {addr a : Nat} {data : Bytes}
    (hrange : admitsRange p .write addr data.length = true) (ha : admits p .write a = false) :
    readByte (memWrite m addr data) a = readByte m a := by
  refine readByte_memWrite_outside m addr data ?_
  by_contra hinside
  have hadmit := (admitsRange_iff p .write addr data.length).mp hrange a (by omega) (by omega)
  exact absurd (ha.symm.trans hadmit) Bool.false_ne_true

/-! ### Refused window accesses -/

/-- An access of another width, or at a misaligned offset, is not accepted (R58). -/
theorem windowAccepts_refused {offset : BitVec 12} {width : Nat} (h : width ≠ 32 ∨ offset.toNat % 4 ≠ 0) :
    windowAccepts offset width = false := by
  simpa [windowAccepts, imp_iff_not_or] using h

theorem windowWrite_refused (s : State) {offset : BitVec 12} {width : Nat} (v : Word)
    (h : windowAccepts offset width = false) : windowWrite s offset width v = .next s := by
  simp [windowWrite, h]

theorem windowRead_refused (s : State) {offset : BitVec 12} {width : Nat} (h : windowAccepts offset width = false) :
    windowRead s offset width = { s with lastRead := 0 } := by
  simp [windowRead, h]

/-! ### The checks of a buffer operand -/

theorem bufferRange_negative (a : Word) {l : Word} (h : s32 l < 0) : bufferRange a l = .error .argumentRange :=
  if_pos h

theorem bufferRange_wraps {a l : Word} (h0 : 0 ≤ s32 l) (h : 2 ^ 32 < (u32 a : Int) + s32 l) :
    bufferRange a l = .error .argumentOverflow := by
  rw [bufferRange, if_neg (by omega), if_pos h]

@[simp] theorem fbBuffer_null (s : State) : fbBuffer true s = .error .argumentNull := rfl

theorem fbBuffer_present (s : State) : fbBuffer false s = bufferRange s.args.arg0 s.args.arg1 := rfl

/-- Each of the four commands with a buffer operand raises what the operand's checks raise (R175 to R178). -/
theorem exec_of_fbBuffer_error {s : State} {i : Bool → Instr} {n0 : Bool} {e : ErrorKind}
    (hi : i = .setkey ∨ i = .setiv ∨ i = .getkey ∨ i = .getiv) (h : fbBuffer n0 s = .error e) :
    exec (i n0) s = .next (raise e s) := by
  have herr : resultOf (i n0) s = .error e := by
    obtain rfl | rfl | rfl | rfl := hi
    · simp only [resultOf, setkeyResult, h]
    · simp only [resultOf, setivResult, h]
    · simp only [resultOf, copyOut, h]
    · simp only [resultOf, copyOut, h]
  rw [exec_eq_report, herr, report_error]

/-! ### The obligations -/

/-- Settles O16, by the frame of host memory, and QUERY's own. -/
theorem otherCommandsKeepMemory : Obligations.OtherCommandsKeepMemory := by
  intro i s t h
  refine ⟨?_, fun slot hi => exec_query_frame (hi ▸ h)⟩
  rintro ⟨hget, htransform⟩
  obtain hkept | ⟨⟨n0, hi⟩ | ⟨slot, n0, n1, hi⟩, -⟩ := exec_memoryFrame h
  · exact hkept
  · exact absurd hi (not_or.mpr (hget n0))
  · exact absurd hi (not_or.mpr (htransform slot n0 n1))

/-- Settles O17: what a command stores lies in an admitted range, and no byte of the window is admitted. -/
theorem unadmittedBytesUnchanged : Obligations.UnadmittedBytesUnchanged := by
  intro i s t a hinv h ha
  have hbarred : admits s.params .write a = false := ha.elim id (admits_window .write)
  obtain hkept | ⟨-, addr, data, hstored, hadmit⟩ := exec_memoryFrame h
  · rw [hkept]
  · rw [hstored]
    exact readByte_memWrite_unadmitted s.mem (hadmit hinv) hbarred

/-- Settles O7: taking the event of a refused access does nothing more, but for the 0 that a read returns. -/
theorem misalignedWindowAccessRefused : Obligations.MisalignedWindowAccessRefused := by
  intro s offset width rest hbad
  have hrefused := windowAccepts_refused hbad
  constructor
  · intro v h
    exact (step_of_pending h).trans (windowWrite_refused _ v hrefused)
  · intro h
    exact (step_of_pending h).trans (congrArg Host.Outcome.next (windowRead_refused _ hrefused))

/-- Settles O30: the four commands raise what the buffer operand's checks raise, and those come in R52's order. -/
theorem bufferOperandErrors : Obligations.BufferOperandErrors := by
  intro s i hi
  refine ⟨exec_of_fbBuffer_error hi (fbBuffer_null s), fun hneg => ?_, fun hlen hwrap => ?_⟩
  · exact exec_of_fbBuffer_error hi ((fbBuffer_present s).trans (bufferRange_negative _ hneg))
  · exact exec_of_fbBuffer_error hi ((fbBuffer_present s).trans (bufferRange_wraps hlen hwrap))

end Sys2Proof.Machine

/-! Proofs for the family 30_encoding.md: a command as its opcode and the fields its format uses (R71, R73, R74), the masks of R74
as a statement about those fields, and from both that decoding and encoding undo each other (R72, R83). -/

namespace Sys2Proof

open Sys2Proof.Machine

/-! ### A command as its opcode, its format and its fields -/

/-- The format of a command (the format column of R73). -/
def formatOf : Instr → Format
  | .setmode | .setpadding | .setkeysize | .setblocksize | .setfeedback => .fs
  | .setkey _ | .setiv _ | .getkey _ | .getiv _ => .fb
  | .crenc _ _ _ _ _ | .crdec _ _ _ _ _ => .fc
  | .tblock _ _ _ | .tfinal _ _ _ => .ft
  | .clear _ | .query _ => .fl

/-- The fields of a command, 0 where its format has none (R74). -/
def usedFields : Instr → Fields
  | .setmode | .setpadding | .setkeysize | .setblocksize | .setfeedback => ⟨0, false, false, false, false⟩
  | .setkey n0 | .setiv n0 | .getkey n0 | .getiv n0 => ⟨0, n0, false, false, false⟩
  | .crenc slot n0 n1 kx ix | .crdec slot n0 n1 kx ix => ⟨slot, n0, n1, kx, ix⟩
  | .tblock slot n0 n1 | .tfinal slot n0 n1 => ⟨slot, n0, n1, false, false⟩
  | .clear slot | .query slot => ⟨slot, false, false, false, false⟩

/-- The fields a format uses, the others 0 (R74). -/
def Format.keep (fmt : Format) (f : Fields) : Fields :=
  match fmt with
  | .fs => ⟨0, false, false, false, false⟩
  | .fb => ⟨0, f.n0, false, false, false⟩
  | .fc => f
  | .ft => ⟨f.slot, f.n0, f.n1, false, false⟩
  | .fl => ⟨f.slot, false, false, false, false⟩

/-- `packWord` on a record of fields. -/
def packFields (op : Nat) (f : Fields) : Word := packWord op f.slot f.n0 f.n1 f.kx f.ix

/-- Every command is encoded as its opcode and its fields, packed. -/
theorem encode_eq_packFields (i : Instr) : encode i = packFields (opOf i) (usedFields i) := by
  cases i <;> rfl

/-- A command is well-formed when its SLOT field has a byte's value (R71). -/
theorem wellFormed_iff (i : Instr) : i.WellFormed ↔ (usedFields i).slot < 256 := by
  cases i <;> simp [usedFields]

theorem opOf_lt (i : Instr) : opOf i < 256 := by
  cases i <;> simp [opOf]

/-- A command's own fields are among those its format uses. -/
theorem keep_usedFields (i : Instr) : (formatOf i).keep (usedFields i) = usedFields i := by
  cases i <;> rfl

theorem keep_slot_le (fmt : Format) (f : Fields) : (fmt.keep f).slot ≤ f.slot := by
  cases fmt <;> simp [Format.keep]

/-! ### The opcode table -/

/-- What a row of `assigned` makes of any fields: a command with the row's opcode and format that holds the fields used. -/
theorem assigned_some {op : Nat} {fmt : Format} {make : Fields → Instr} (h : assigned op = some (fmt, make))
    (f : Fields) : opOf (make f) = op ∧ formatOf (make f) = fmt ∧ usedFields (make f) = fmt.keep f := by
  unfold assigned at h
  split at h <;> cases h <;> exact ⟨rfl, rfl, rfl⟩

/-- Every command has its row in `assigned`, and that row makes it of its own fields. -/
theorem assigned_opOf (i : Instr) : ∃ make, assigned (opOf i) = some (formatOf i, make) ∧ make (usedFields i) = i := by
  cases i <;> exact ⟨_, rfl, rfl⟩

/-- Every command has its row in `opcodeTable`, with the mask of its format. -/
theorem mem_opcodeTable_opOf (i : Instr) : (opOf i, (formatOf i).mask) ∈ opcodeTable := by
  cases i <;> simp [opOf, formatOf, Format.mask, opcodeTable]

/-- Every row of `opcodeTable` is one of `assigned`, with its format's mask. -/
theorem assigned_of_mem_opcodeTable {r : Nat × Word} (h : r ∈ opcodeTable) :
    ∃ fmt make, assigned r.1 = some (fmt, make) ∧ r.2 = fmt.mask := by
  simp only [opcodeTable, List.mem_cons, List.not_mem_nil, or_false] at h
  rcases h with rfl | rfl | rfl | rfl | rfl | rfl | rfl | rfl | rfl | rfl | rfl | rfl | rfl | rfl | rfl <;>
    exact ⟨_, _, rfl, rfl⟩

/-! ### The fields of a word and the masks -/

theorem opcode_lt (w : Word) : opcode w < 256 := (w.extractLsb' 0 8).isLt

theorem fieldsOf_slot_lt (w : Word) : (fieldsOf w).slot < 256 := (w.extractLsb' 8 8).isLt

/-- A bit of SLOT is a bit of the word (R71, R76). -/
theorem fieldsOf_slot_bit (w : Word) {j : Nat} (hj : j < 8) : (fieldsOf w).slot.testBit j = w.getLsbD (8 + j) := by
  rw [fieldsOf, BitVec.testBit_toNat, BitVec.getLsbD_extractLsb', decide_eq_true hj, Bool.true_and]

@[simp] theorem fieldsOf_n0 (w : Word) : (fieldsOf w).n0 = w.getLsbD 16 := rfl
@[simp] theorem fieldsOf_n1 (w : Word) : (fieldsOf w).n1 = w.getLsbD 17 := rfl
@[simp] theorem fieldsOf_kx (w : Word) : (fieldsOf w).kx = w.getLsbD 18 := rfl
@[simp] theorem fieldsOf_ix (w : Word) : (fieldsOf w).ix = w.getLsbD 19 := rfl

theorem opcode_packFields {op : Nat} (hop : op < 256) (f : Fields) : opcode (packFields op f) = op :=
  (opcode_packWord _ _ _ _ _ _).trans (Nat.mod_eq_of_lt hop)

theorem fieldsOf_packFields (op : Nat) {f : Fields} (hf : f.slot < 256) : fieldsOf (packFields op f) = f := by
  rw [packFields, fieldsOf_packWord, Nat.mod_eq_of_lt hf]

/-- Bits 7 to 0 belong to OP, which every mask keeps. -/
theorem mask_bit_low (fmt : Format) {i : Nat} (hi : i < 8) : fmt.mask.getLsbD i = true := by
  cases fmt <;> interval_cases i <;> rfl

/-- Above OP, the fields a format uses are the bits its mask drops (R74). -/
theorem packFields_keep_bit (op : Nat) (fmt : Format) (w : Word) {i : Nat} (h8 : 8 ≤ i) (h32 : i < 32) :
    (packFields op (fmt.keep (fieldsOf w))).getLsbD i = (w.getLsbD i && !fmt.mask.getLsbD i) := by
  cases fmt <;> interval_cases i <;>
    simp [-BitVec.getLsbD_eq_getElem, -Nat.testBit_zero, packFields, packWord_bit, Format.keep, Format.mask,
      fieldsOf_slot_bit]

/-- R74's selection says of a word that it is OP and the fields its format uses, and that every other bit is 0. -/
theorem and_mask_eq_iff {op : Nat} (hop : op < 256) (fmt : Format) (w : Word) :
    w &&& fmt.mask = BitVec.ofNat 32 op ↔ w = packFields op (fmt.keep (fieldsOf w)) := by
  rw [BitVec.eq_of_getLsbD_eq_iff, BitVec.eq_of_getLsbD_eq_iff]
  refine forall₂_congr fun i h32 => ?_
  rw [BitVec.getLsbD_and, BitVec.getLsbD_ofNat]
  by_cases hi : i < 8
  · have hpack : (packFields op (fmt.keep (fieldsOf w))).getLsbD i = op.testBit i := by
      rw [packFields, packWord_bit, if_pos hi]
    rw [mask_bit_low fmt hi, hpack, decide_eq_true h32, Bool.and_true, Bool.true_and]
  · rw [packFields_keep_bit op fmt w (by omega) h32, testBit_of_byte hop (by omega)]
    cases w.getLsbD i <;> simp

/-! ### Decoding -/

/-- When a word decodes: its opcode has a row, the row's mask selects it, and the row makes the command of its fields (R72). -/
theorem decode_eq_ok_iff {w : Word} {i : Instr} :
    decode w = .ok i ↔ ∃ fmt make, assigned (opcode w) = some (fmt, make) ∧
      w &&& fmt.mask = BitVec.ofNat 32 (opcode w) ∧ make (fieldsOf w) = i := by
  unfold decode
  cases h : assigned (opcode w) with
  | none => simp
  | some row =>
    obtain ⟨fmt, make⟩ := row
    by_cases hm : w &&& fmt.mask = BitVec.ofNat 32 (opcode w) <;> simp [hm]

/-- The words that decode to a command are its one encoding, and none at all when it is not well-formed. -/
theorem decode_eq_ok_iff_encode {w : Word} {i : Instr} : decode w = .ok i ↔ i.WellFormed ∧ encode i = w := by
  constructor
  · intro h
    obtain ⟨fmt, make, hrow, hmask, rfl⟩ := decode_eq_ok_iff.mp h
    obtain ⟨hop, -, hfields⟩ := assigned_some hrow (fieldsOf w)
    constructor
    · rw [wellFormed_iff, hfields]
      exact (keep_slot_le fmt _).trans_lt (fieldsOf_slot_lt w)
    · rw [encode_eq_packFields, hop, hfields]
      exact ((and_mask_eq_iff (opcode_lt w) fmt w).mp hmask).symm
  · rintro ⟨hwf, rfl⟩
    obtain ⟨make, hrow, hmake⟩ := assigned_opOf i
    have hop : opcode (encode i) = opOf i := by rw [encode_eq_packFields, opcode_packFields (opOf_lt i)]
    have hfields : fieldsOf (encode i) = usedFields i := by
      rw [encode_eq_packFields, fieldsOf_packFields _ ((wellFormed_iff i).mp hwf)]
    have hmask : encode i &&& (formatOf i).mask = BitVec.ofNat 32 (opOf i) := by
      rw [and_mask_eq_iff (opOf_lt i), hfields, keep_usedFields, encode_eq_packFields]
    exact decode_eq_ok_iff.mpr ⟨formatOf i, make, hop ▸ hrow, hop ▸ hmask, hfields ▸ hmake⟩

/-- A row's mask selects a word exactly when the word decodes to a command of the row's opcode. -/
theorem and_mask_eq_iff_decode {op : Nat} {fmt : Format} {make : Fields → Instr} (hrow : assigned op = some (fmt, make))
    (w : Word) : w &&& fmt.mask = BitVec.ofNat 32 op ↔ ∃ i, decode w = .ok i ∧ opOf i = op := by
  have hmakes := assigned_some hrow
  constructor
  · intro hmask
    have hop : op < 256 := (hmakes (fieldsOf w)).1 ▸ opOf_lt _
    have hw : opcode w = op := by
      rw [(and_mask_eq_iff hop fmt w).mp hmask, opcode_packFields hop]
    subst hw
    exact ⟨make (fieldsOf w), decode_eq_ok_iff.mpr ⟨fmt, make, hrow, hmask, rfl⟩, (hmakes _).1⟩
  · rintro ⟨i, hdec, rfl⟩
    obtain ⟨fmt', make', hrow', hmask, rfl⟩ := decode_eq_ok_iff.mp hdec
    rw [(assigned_some hrow' _).1] at hrow ⊢
    cases hrow'.symm.trans hrow
    exact hmask

/-! ### The obligations of the encoding -/

/-- Settles O2: the encoding of a well-formed command is a word that decodes to it. -/
theorem decodeOfEncode : Obligations.DecodeOfEncode :=
  fun _ hwf => decode_eq_ok_iff_encode.mpr ⟨hwf, rfl⟩

/-- Settles O3: a word that decodes is the encoding of a well-formed command. -/
theorem encodeOfDecode : Obligations.EncodeOfDecode :=
  fun _ _ hdec => decode_eq_ok_iff_encode.mp hdec

/-- Settles O4: each row is one of `assigned`, and a command that decodes has its row in the table, which selects its word. -/
theorem decodeSelectsByMask : Obligations.DecodeSelectsByMask := by
  intro w
  have hselect : ∀ r ∈ opcodeTable, w &&& r.2 = BitVec.ofNat 32 r.1 ↔ ∃ i, decode w = .ok i ∧ opOf i = r.1 := by
    intro r hr
    obtain ⟨fmt, make, hrow, hmask⟩ := assigned_of_mem_opcodeTable hr
    rw [hmask]
    exact and_mask_eq_iff_decode hrow w
  refine ⟨hselect, fun hnone => ?_⟩
  cases hdec : decode w with
  | error e => exact ⟨e, rfl⟩
  | ok i =>
    have hr := mem_opcodeTable_opOf i
    exact absurd ((hselect _ hr).mpr ⟨i, hdec, rfl⟩) (hnone _ hr)

/-- Settles O1: ten closed words, each decoded by evaluation. -/
theorem specWordsDecode : Obligations.SpecWordsDecode := by
  unfold Obligations.SpecWordsDecode
  decide

end Sys2Proof

namespace Sys2Proof.Machine

/-! ### A step that takes a write to CMD -/

theorem runCommand_of_ok {w : Word} {i : Instr} (h : decode w = .ok i) (s : State) : runCommand s w = exec i s := by
  rw [runCommand, h]

/-- A word that is no command raises IllegalCommand (R72). -/
theorem runCommand_of_error {w : Word} {e : DecodeError} (h : decode w = .error e) (s : State) :
    runCommand s w = .next (raise .illegalCommand s) := by
  rw [runCommand, h]

/-- A 32-bit write to CMD runs the word written (R33). -/
theorem windowWrite_cmd (s : State) (w : Word) : windowWrite s cmdOffset 32 w = runCommand s w := by
  rw [windowWrite, if_pos (windowAccepts_aligned rfl), if_pos rfl]

theorem step_cmdWrite {s : State} {w : Word} {rest : List HostEvent}
    (h : s.pending = .windowWrite 0x00C#12 32 w :: rest) : step s = runCommand { s with pending := rest } w :=
  (step_of_pending h).trans (windowWrite_cmd _ w)

/-- Settles O5: the step runs the word written, as its decoding says. -/
theorem stepRunsDecodedCommand : Obligations.StepRunsDecodedCommand := by
  intro s w rest h
  refine ⟨fun i hdec => ?_, fun e hdec => ?_⟩
  · rw [step_cmdWrite h, runCommand_of_ok hdec]
  · rw [step_cmdWrite h, runCommand_of_error hdec]
    rfl

end Sys2Proof.Machine

/-! Proofs for the family 40_padding.md: what Pad appends, what Unpad strips, and that the second undoes the first (R100 to
R109). PKCS7, ANSIX923 and ISO10126 are treated as one through the tails they write: a tail of `n` bytes whose last is `n`. -/

namespace Sys2Proof.Machine

/-! ### Equations of Pad and Unpad -/

/-- None answers whole blocks unchanged (R102). -/
theorem pad_nopad_of_whole {D : Bytes} {P : Nat} (filler : Bytes) (h : D.length % P = 0) :
    pad .nopad filler D P = .ok D := by
  simp [pad, h]

/-- The one way Pad raises (R102). -/
theorem pad_nopad_of_not_whole {D : Bytes} {P : Nat} (filler : Bytes) (h : D.length % P ≠ 0) :
    pad .nopad filler D P = .error .invalidDataLength := by
  simp [pad, h]

theorem pad_pkcs7 (filler D : Bytes) (P : Nat) :
    pad .pkcs7 filler D P = .ok (D ++ rep (padCount D.length P) (BitVec.ofNat 8 (padCount D.length P))) := rfl

theorem pad_zeros (filler D : Bytes) (P : Nat) :
    pad .zeros filler D P = .ok (D ++ zeros (zeroCount D.length P)) := rfl

theorem pad_ansix923 (filler D : Bytes) (P : Nat) :
    pad .ansix923 filler D P =
      .ok (D ++ zeros (padCount D.length P - 1) ++ [BitVec.ofNat 8 (padCount D.length P)]) := rfl

theorem pad_iso10126 (filler D : Bytes) (P : Nat) :
    pad .iso10126 filler D P = .ok (D ++ filler ++ [BitVec.ofNat 8 (padCount D.length P)]) := rfl

@[simp] theorem unpad_nopad (D : Bytes) (P : Nat) : unpad .nopad D P = .ok D := rfl

@[simp] theorem unpad_zeros (D : Bytes) (P : Nat) : unpad .zeros D P = .ok D := rfl

/-! ### The pad counts (R101, R103) -/

theorem padCount_pos {P : Nat} (hP : 1 ≤ P) (L : Nat) : 1 ≤ padCount L P := by
  have := Nat.mod_lt L hP
  unfold padCount
  omega

theorem padCount_le (L P : Nat) : padCount L P ≤ P := Nat.sub_le _ _

/-- The pad count reaches the next whole number of units. -/
theorem add_padCount_mod {P : Nat} (hP : 1 ≤ P) (L : Nat) : (L + padCount L P) % P = 0 := by
  have hlt := Nat.mod_lt L hP
  have hdiv := Nat.div_add_mod L P
  have hsum : L + padCount L P = P * (L / P) + P := by
    unfold padCount
    omega
  simp [hsum]

/-- So does the number of zeros, which is the pad count modulo the unit. -/
theorem add_zeroCount_mod {P : Nat} (hP : 1 ≤ P) (L : Nat) : (L + zeroCount L P) % P = 0 := by
  have h := add_padCount_mod hP L
  rwa [← Nat.add_mod_mod] at h

/-! ### The count byte -/

/-- The last byte is a count exactly when it is the byte of a number from 1 to `P` (R104 to R107). -/
theorem countByte_ok_iff {D : Bytes} {P n : Nat} :
    countByte D P = .ok n ↔ 1 ≤ n ∧ n ≤ P ∧ n ≤ 255 ∧ ∃ F, D = F ++ [BitVec.ofNat 8 n] := by
  rw [← List.getLast?_eq_some_iff]
  unfold countByte
  cases D.getLast? with
  | none => simp
  | some b =>
    have hb := b.isLt
    have byte_eq : b = BitVec.ofNat 8 n ↔ b.toNat = n % 256 := by simp [← BitVec.toNat_inj]
    simp only [Option.some.injEq, byte_eq]
    split
    · simp; omega
    · simp only [Except.ok.injEq]; omega

theorem countByte_error {D : Bytes} {P : Nat} {e : ErrorKind} (h : countByte D P = .error e) : e = .invalidPadding := by
  unfold countByte at h
  split at h
  · cases h; rfl
  · split at h <;> cases h; rfl

/-- The empty string has no count byte (R107 (a)). -/
@[simp] theorem countByte_nil (P : Nat) : countByte [] P = .error .invalidPadding := rfl

/-- Without a count byte, Unpad of a counted padding raises as the count does (R104 to R107). -/
theorem unpad_of_countByte_error {p : Padding} {D : Bytes} {P : Nat} {e : ErrorKind} (hp : countedPadding p = true)
    (h : countByte D P = .error e) : unpad p D P = .error e := by
  cases p with
  | nopad | zeros => cases hp
  | pkcs7 | ansix923 | iso10126 => simp [unpad, h]

/-- InvalidPadding is the one error of Unpad (R107). -/
theorem unpad_error {p : Padding} {D : Bytes} {P : Nat} {e : ErrorKind} (h : unpad p D P = .error e) :
    e = .invalidPadding := by
  cases hc : countByte D P with
  | error e' =>
    cases p with
    | nopad | zeros => cases h
    | pkcs7 | ansix923 | iso10126 =>
      cases (unpad_of_countByte_error rfl hc).symm.trans h
      exact countByte_error hc
  | ok n =>
    cases p with
    | nopad | zeros => cases h
    | pkcs7 | ansix923 =>
      simp only [unpad, hc] at h
      split at h <;> cases h
      rfl
    | iso10126 =>
      simp only [unpad, hc] at h
      cases h

/-! ### The tails of the counted paddings -/

/-- `T` is what the counted padding `p` may append for the count `n` (R104, R105, R106). -/
def CountedTail (p : Padding) (n : Nat) (T : Bytes) : Prop :=
  match p with
  | .nopad => False
  | .pkcs7 => T = rep n (BitVec.ofNat 8 n)
  | .zeros => False
  | .ansix923 => T = zeros (n - 1) ++ [BitVec.ofNat 8 n]
  | .iso10126 => ∃ F : Bytes, F.length = n - 1 ∧ T = F ++ [BitVec.ofNat 8 n]

theorem CountedTail.counted {p : Padding} {n : Nat} {T : Bytes} (h : CountedTail p n T) : countedPadding p = true := by
  cases p with
  | nopad | zeros => exact h.elim
  | pkcs7 | ansix923 | iso10126 => rfl

/-- Every tail ends in its count: ISO10126 asks no more. -/
theorem CountedTail.iso10126 {p : Padding} {n : Nat} {T : Bytes} (h : CountedTail p n T) (hn : 1 ≤ n) :
    ∃ F : Bytes, F.length = n - 1 ∧ T = F ++ [BitVec.ofNat 8 n] := by
  cases p with
  | nopad | zeros => exact h.elim
  | pkcs7 =>
    obtain ⟨k, rfl⟩ := Nat.exists_eq_add_of_le' hn
    exact ⟨rep k (BitVec.ofNat 8 (k + 1)), by simp, h.trans (List.replicate_succ' ..)⟩
  | ansix923 => exact ⟨zeros (n - 1), by simp, h⟩
  | iso10126 => exact h

theorem CountedTail.length_eq {p : Padding} {n : Nat} {T : Bytes} (h : CountedTail p n T) (hn : 1 ≤ n) :
    T.length = n := by
  obtain ⟨F, hF, rfl⟩ := h.iso10126 hn
  simp
  omega

theorem CountedTail.countByte_append {p : Padding} {n P : Nat} {T : Bytes} (h : CountedTail p n T) (Z : Bytes)
    (hn : 1 ≤ n) (hP : n ≤ P) (hb : n ≤ 255) : countByte (Z ++ T) P = .ok n := by
  obtain ⟨F, -, rfl⟩ := h.iso10126 hn
  exact countByte_ok_iff.mpr ⟨hn, hP, hb, Z ++ F, (List.append_assoc ..).symm⟩

/-- A nonempty part of the data at its end ends in the count byte of the data. -/
theorem tail_ends_in_count {Z T : Bytes} {P : Nat} (h : countByte (Z ++ T) P = .ok T.length) :
    ∃ F : Bytes, F.length = T.length - 1 ∧ T = F ++ [BitVec.ofNat 8 T.length] := by
  obtain ⟨hpos, -, -, hlast⟩ := countByte_ok_iff.mp h
  have hne : T ≠ [] := List.ne_nil_of_length_pos hpos
  rw [← List.getLast?_eq_some_iff, List.getLast?_append_of_ne_nil _ hne, List.getLast?_eq_some_iff] at hlast
  obtain ⟨F, hF⟩ := hlast
  exact ⟨F, by have := congrArg List.length hF; simp at this; omega, hF⟩

/-- A check that answers `x` or raises answers `y` exactly when it passes and `y` is `x`. -/
theorem ite_ok_eq_ok_iff {c : Prop} [Decidable c] {e : ErrorKind} {x y : Bytes} :
    (if c then Except.ok x else .error e) = .ok y ↔ c ∧ y = x := by
  by_cases hc : c <;> simp [hc, eq_comm]

/-- On data cut where its count byte says, Unpad answers the part before the cut exactly when the rest is a tail of the
scheme (R104 to R106). -/
theorem unpad_cut_ok_iff {p : Padding} {Z T Z' : Bytes} {P : Nat} (hp : countedPadding p = true)
    (h : countByte (Z ++ T) P = .ok T.length) :
    unpad p (Z ++ T) P = .ok Z' ↔ CountedTail p T.length T ∧ Z' = Z := by
  have hcut : (Z ++ T).length - T.length = Z.length := by simp
  obtain ⟨F, hF, hT⟩ := tail_ends_in_count h
  cases p with
  | nopad | zeros => cases hp
  | pkcs7 =>
    have hall : (T.all fun b => decide (b = BitVec.ofNat 8 T.length)) = true ↔ CountedTail .pkcs7 T.length T := by
      simp [CountedTail, rep, List.eq_replicate_iff]
    simp only [unpad, h, hcut, List.drop_left, List.take_left, ite_ok_eq_ok_iff, hall]
  | ansix923 =>
    have htake : T.take (T.length - 1) = F := by rw [← hF, hT]; simp
    have hall : (F.all fun b => decide (b = 0)) = true ↔ CountedTail .ansix923 T.length T := by
      have htail : CountedTail .ansix923 T.length T ↔
          F ++ [BitVec.ofNat 8 T.length] = zeros (T.length - 1) ++ [BitVec.ofNat 8 T.length] := by
        rw [← hT]; rfl
      rw [htail, List.append_left_inj]
      simp [zeros, List.eq_replicate_iff, hF]
    simp only [unpad, h, hcut, List.drop_left, List.take_left, htake, ite_ok_eq_ok_iff, hall]
  | iso10126 =>
    have htail : CountedTail .iso10126 T.length T := ⟨F, hF, hT⟩
    simp [unpad, h, htail, eq_comm]

/-- Unpad strips every tail of its scheme whose count is at most the unit and fits a byte (R104 to R106). -/
theorem CountedTail.unpad_append {p : Padding} {n P : Nat} {T : Bytes} (h : CountedTail p n T) (Z : Bytes)
    (hn : 1 ≤ n) (hP : n ≤ P) (hb : n ≤ 255) : unpad p (Z ++ T) P = .ok Z := by
  have hcount := h.countByte_append Z hn hP hb
  obtain rfl := h.length_eq hn
  exact (unpad_cut_ok_iff h.counted hcount).mpr ⟨h, rfl⟩

/-- What Unpad accepts under a counted padding, and what it answers (R104 to R107). -/
theorem unpad_ok_iff {p : Padding} {D Z : Bytes} {P : Nat} (hp : countedPadding p = true) (hD : P ≤ D.length) :
    unpad p D P = .ok Z ↔
      ∃ (n : Nat) (T : Bytes), 1 ≤ n ∧ n ≤ P ∧ n ≤ 255 ∧ CountedTail p n T ∧ D = Z ++ T := by
  constructor
  · intro h
    cases hc : countByte D P with
    | error e => cases (unpad_of_countByte_error hp hc).symm.trans h
    | ok n =>
      obtain ⟨hn, hP, hb, -⟩ := countByte_ok_iff.mp hc
      obtain ⟨Z', T, rfl, rfl⟩ : ∃ Z' T, D = Z' ++ T ∧ T.length = n :=
        ⟨_, _, (List.take_append_drop (D.length - n) D).symm, by simp; omega⟩
      obtain ⟨hT, rfl⟩ := (unpad_cut_ok_iff hp hc).mp h
      exact ⟨T.length, T, hn, hP, hb, hT, rfl⟩
  · rintro ⟨n, T, hn, hP, hb, hT, rfl⟩
    exact hT.unpad_append Z hn hP hb

/-! ### What Pad answers -/

/-- Everything Pad can answer: the data under None, added zeros under Zeros, a tail of the pad count otherwise (R102 to
R106). -/
theorem pad_ok_cases {p : Padding} {filler D Dp : Bytes} {P : Nat} (hfill : filler.length = fillerCount p D.length P)
    (h : pad p filler D P = .ok Dp) :
    (p = .nopad ∧ D.length % P = 0 ∧ Dp = D) ∨
    (p = .zeros ∧ Dp = D ++ zeros (zeroCount D.length P)) ∨
    ∃ T, CountedTail p (padCount D.length P) T ∧ Dp = D ++ T := by
  cases p with
  | nopad =>
    by_cases hw : D.length % P = 0
    · cases (pad_nopad_of_whole filler hw).symm.trans h
      exact .inl ⟨rfl, hw, rfl⟩
    · cases (pad_nopad_of_not_whole filler hw).symm.trans h
  | pkcs7 => cases h; exact .inr (.inr ⟨_, rfl, rfl⟩)
  | zeros => cases h; exact .inr (.inl ⟨rfl, rfl⟩)
  | ansix923 => cases h; exact .inr (.inr ⟨_, rfl, List.append_assoc ..⟩)
  | iso10126 => cases h; exact .inr (.inr ⟨_, ⟨filler, hfill, rfl⟩, List.append_assoc ..⟩)

/-! ### The statements -/

/-- Settles O51: every answer of Pad reaches a whole number of units by its count. -/
theorem paddedLengthIsWhole : Obligations.PaddedLengthIsWhole := by
  intro p filler D Dp P hP hfill h
  obtain ⟨-, hw, rfl⟩ | ⟨-, rfl⟩ | ⟨T, hT, rfl⟩ := pad_ok_cases hfill h
  · exact hw
  · rw [List.length_append, zeros_length, add_zeroCount_mod hP]
  · rw [List.length_append, hT.length_eq (padCount_pos hP _), add_padCount_mod hP]

/-- Settles O52: the tail Pad appends is one Unpad strips; under Zeros and None Unpad strips nothing. -/
theorem unpadUndoesPad : Obligations.UnpadUndoesPad := by
  intro p filler D Dp P hP hP255 hfill h
  obtain ⟨rfl, -, rfl⟩ | ⟨rfl, rfl⟩ | ⟨T, hT, rfl⟩ := pad_ok_cases hfill h
  · exact ⟨fun _ => unpad_nopad _ P, nofun⟩
  · exact ⟨fun hz => absurd rfl hz, fun _ => unpad_zeros _ P⟩
  · have hle := padCount_le D.length P
    refine ⟨fun _ => hT.unpad_append D (padCount_pos hP _) hle (hle.trans hP255), ?_⟩
    rintro rfl
    exact hT.elim

/-- Settles O53: the tails of PKCS7 are `n` bytes of value `n`, and Unpad has no other error. -/
theorem unpadPkcs7Accepts : Obligations.UnpadPkcs7Accepts := by
  intro D Z P hD
  refine ⟨?_, fun hno => ?_⟩
  · simp [unpad_ok_iff (p := .pkcs7) rfl hD, CountedTail]
  · cases hu : unpad .pkcs7 D P with
    | error e => rw [unpad_error hu]
    | ok Z' => exact absurd hu (hno Z')

/-- Settles O54: what Unpad accepts, with the tails of ANSIX923 and of ISO10126 written out. -/
theorem unpadCountedAccepts : Obligations.UnpadCountedAccepts := by
  intro D Z P hD
  constructor
  · simp [unpad_ok_iff (p := .ansix923) rfl hD, CountedTail]
  · rw [unpad_ok_iff (p := .iso10126) rfl hD]
    constructor
    · rintro ⟨n, T, hn, hP, hb, ⟨F, hF, rfl⟩, rfl⟩
      exact ⟨n, F, hn, hP, hb, hF, (List.append_assoc ..).symm⟩
    · rintro ⟨n, F, hn, hP, hb, hF, rfl⟩
      exact ⟨n, _, hn, hP, hb, ⟨F, hF, rfl⟩, List.append_assoc ..⟩

/-- Settles O50: the equations of Pad, scheme by scheme. -/
theorem padAppends : Obligations.PadAppends := fun D filler P =>
  ⟨pad_nopad_of_whole filler, pad_nopad_of_not_whole filler, pad_pkcs7 filler D P, pad_zeros filler D P,
    pad_ansix923 filler D P, pad_iso10126 filler D P⟩

/-- Settles O55: the empty string has no count byte; Zeros and None do not look for one. -/
theorem unpadEmptyAndZeros : Obligations.UnpadEmptyAndZeros := fun D P =>
  have hnil {p : Padding} (hp : countedPadding p = true) : unpad p [] P = .error .invalidPadding :=
    unpad_of_countByte_error hp (countByte_nil P)
  ⟨hnil rfl, hnil rfl, hnil rfl, unpad_nopad D P, unpad_zeros D P⟩

end Sys2Proof.Machine

/-! Proofs for the family 41_mode_engine.md: the equations of Step (R123 to R129, R131), Run over a string in pieces (R130), and
that decrypting undoes encrypting (R132), first for one segment and then, segment by segment, for a whole string. -/

namespace Sys2Proof.Machine

/-! ### Equations of Step -/

section
variable (ext : Externals) (K c x : Bytes)

@[simp] theorem modeStep_ecb_encrypt : modeStep ext .ecb .encrypt K c x = (ext.enc K x, c) := rfl

@[simp] theorem modeStep_ecb_decrypt : modeStep ext .ecb .decrypt K c x = (ext.dec K x, c) := rfl

@[simp] theorem modeStep_cbc_encrypt :
    modeStep ext .cbc .encrypt K c x = (ext.enc K (xorBytes x c), ext.enc K (xorBytes x c)) := rfl

@[simp] theorem modeStep_cbc_decrypt : modeStep ext .cbc .decrypt K c x = (xorBytes (ext.dec K x) c, x) := rfl

@[simp] theorem modeStep_cfb_encrypt :
    modeStep ext .cfb .encrypt K c x =
      (xorBytes x ((ext.enc K c).take x.length), c.drop x.length ++ xorBytes x ((ext.enc K c).take x.length)) := rfl

@[simp] theorem modeStep_cfb_decrypt :
    modeStep ext .cfb .decrypt K c x = (xorBytes x ((ext.enc K c).take x.length), c.drop x.length ++ x) := rfl

/-- OFB does the same in both directions (R129). -/
@[simp] theorem modeStep_ofb (d : Direction) :
    modeStep ext .ofb d K c x = (xorBytes x (ext.enc K c), ext.enc K c) := by
  cases d <;> rfl

/-- ECB has no use for the register and leaves it as it is (R123, R124). -/
@[simp] theorem modeStep_ecb_register (d : Direction) : (modeStep ext .ecb d K c x).2 = c := by
  cases d <;> rfl

end

/-! ### Run over a string in pieces -/

/-- Run of one whole segment is one Step (R130). -/
theorem runMode_segment (ext : Externals) (m : Mode) (d : Direction) (K c x : Bytes) (hx : 1 ≤ x.length) :
    runMode ext m d K x.length c x = modeStep ext m d K c x := by
  simp [runMode, Nat.div_self hx, runSegments_succ]

/-- The loop over `k + j` segments is the loop over the first `k`, then the loop over the other `j` from the register the first
one left (R130). -/
theorem runSegments_append (ext : Externals) (m : Mode) (d : Direction) (K : Bytes) {u k : Nat} (j : Nat) {c X : Bytes}
    (X' : Bytes) (hX : X.length = k * u) :
    runSegments ext m d K u (k + j) c (X ++ X') =
      ((runSegments ext m d K u k c X).1 ++ (runSegments ext m d K u j (runSegments ext m d K u k c X).2 X').1,
        (runSegments ext m d K u j (runSegments ext m d K u k c X).2 X').2) := by
  induction k generalizing c X with
  | zero =>
    obtain rfl : X = [] := List.eq_nil_of_length_eq_zero (by simpa using hX)
    simp
  | succ k ih =>
    have hk : X.length = k * u + u := hX.trans (Nat.succ_mul k u)
    have hu : u ≤ X.length := by omega
    have hrest : (X.drop u).length = k * u := by simp [hk]
    rw [Nat.add_right_comm, runSegments_succ, runSegments_succ, List.take_append_of_le_length hu,
      List.drop_append_of_le_length hu, ih hrest]
    simp

/-- Run over two pieces, the first a whole number of segments, is Run over the first and then Run over the second from the
register the first left (R130). -/
theorem runMode_append (ext : Externals) (m : Mode) (d : Direction) (K : Bytes) {u : Nat} (c : Bytes) {X : Bytes}
    (X' : Bytes) (hX : X.length % u = 0) :
    runMode ext m d K u c (X ++ X') =
      ((runMode ext m d K u c X).1 ++ (runMode ext m d K u (runMode ext m d K u c X).2 X').1,
        (runMode ext m d K u (runMode ext m d K u c X).2 X').2) := by
  have hdvd : u ∣ X.length := Nat.dvd_of_mod_eq_zero hX
  have hcount : (X ++ X').length / u = X.length / u + X'.length / u := by
    rw [List.length_append, Nat.add_div_of_dvd_right hdvd]
  rw [runMode, hcount]
  exact runSegments_append ext m d K _ X' (Nat.div_mul_cancel hdvd).symm

/-- In ECB the register at the end of the loop is the one it began with (R132). -/
theorem runSegments_ecb_register (ext : Externals) (d : Direction) (K : Bytes) (u k : Nat) (c X : Bytes) :
    (runSegments ext .ecb d K u k c X).2 = c := by
  induction k generalizing X with
  | zero => rfl
  | succ k ih => simp only [runSegments_succ, modeStep_ecb_register, ih]

/-! ### Decrypting undoes encrypting -/

/-- Step decrypting, from the same register, gives back the segment that Step encrypting was given, and the same new register
(R132, one segment). ECB and CBC rest on the primitive's law (R7), CBC, CFB and OFB on the exclusive or undoing itself. -/
theorem modeStep_decrypt_encrypt {p : Params} {m : Mode} {K c x : Bytes} {u B : Nat} (hu : SegmentFits m u B)
    (hdom : inDomain p K B = true) (hc : c.length = B) (hx : x.length = u) :
    modeStep (externals p) m .decrypt K c (modeStep (externals p) m .encrypt K c x).1 =
      (x, (modeStep (externals p) m .encrypt K c x).2) := by
  have hxB : x.length ≤ B := hx ▸ hu.atMost
  have hwhole (hm : m ≠ .cfb) : x.length = B := hx.trans (hu.whole hm)
  cases m with
  | ecb =>
    rw [← hwhole (by decide)] at hdom
    simp [decrypt_encrypt hdom]
  | cbc =>
    have hblock : (xorBytes x c).length = B := by simp [hwhole (by decide), hc]
    rw [← hblock] at hdom
    simp [decrypt_encrypt hdom, xorBytes_cancel x c (by omega)]
  | cfb =>
    have hstream : x.length ≤ ((encrypt p K c).take x.length).length := by simp; omega
    have hy : (xorBytes x ((encrypt p K c).take x.length)).length = x.length := by
      rw [xorBytes_length, min_eq_left hstream]
    simp only [modeStep_cfb_encrypt, modeStep_cfb_decrypt, externals_enc, hy, xorBytes_cancel x _ hstream]
  | ofb => simp [xorBytes_cancel x (encrypt p K c) (by simp; omega)]

/-- The loop decrypting, from the same register, gives back the segments that the loop encrypting was given, and the same final
register (R132). -/
theorem runSegments_decrypt_encrypt {p : Params} {m : Mode} {K c X : Bytes} {u B k : Nat} (hu : SegmentFits m u B)
    (hdom : inDomain p K B = true) (hc : c.length = B) (hX : X.length = k * u) :
    runSegments (externals p) m .decrypt K u k c (runSegments (externals p) m .encrypt K u k c X).1 =
      (X, (runSegments (externals p) m .encrypt K u k c X).2) := by
  induction k generalizing c X with
  | zero =>
    obtain rfl : X = [] := List.eq_nil_of_length_eq_zero (by simpa using hX)
    rfl
  | succ k ih =>
    have hk : X.length = k * u + u := hX.trans (Nat.succ_mul k u)
    have hseg : (X.take u).length = u := by simp [hk]
    have hrest : (X.drop u).length = k * u := by simp [hk]
    obtain ⟨hy, hc1⟩ := modeStep_lengths (externals_lawful p) hu .encrypt K hc hseg
    rw [runSegments_succ _ _ .encrypt, runSegments_succ, List.take_left' hy, List.drop_left' hy,
      modeStep_decrypt_encrypt hu hdom hc hseg, ih hc1 hrest, List.take_append_drop]

/-- Run decrypting what Run encrypting answered, from the same register, gives the string and the final register back (R132). -/
theorem runMode_decrypt_encrypt {p : Params} {m : Mode} {K c X : Bytes} {u B : Nat} (hu : SegmentFits m u B)
    (hdom : inDomain p K B = true) (hc : c.length = B) (hX : X.length % u = 0) :
    runMode (externals p) m .decrypt K u c (runMode (externals p) m .encrypt K u c X).1 =
      (X, (runMode (externals p) m .encrypt K u c X).2) := by
  obtain ⟨hlen, -⟩ := runMode_lengths (externals_lawful p) hu .encrypt K hc hX
  rw [runMode, hlen]
  exact runSegments_decrypt_encrypt hu hdom hc (Nat.div_mul_cancel (Nat.dvd_of_mod_eq_zero hX)).symm

/-! ### The statements -/

/-- Settles O59: Run decrypting undoes Run encrypting, and in ECB no turn of the loop changes the register. -/
theorem decryptUndoesEncrypt : Obligations.DecryptUndoesEncrypt := by
  intro p m K c0 X Y c1 u B hK hB hatMost hwhole hc hX hrun
  have hback := runMode_decrypt_encrypt ⟨hatMost, hwhole⟩ ((inDomain_iff p K B).mpr ⟨hK, hB⟩) hc hX
  rw [hrun] at hback
  refine ⟨c1, hback, rfl, ?_⟩
  rintro rfl
  exact (congrArg Prod.snd hrun).symm.trans (runSegments_ecb_register ..)

/-- Settles O57: Run of nothing, of one segment and of two pieces. -/
theorem runOverSegments : Obligations.RunOverSegments := by
  intro ext m d K u c
  refine ⟨runMode_nil ext m d K u c, ?_, fun X X' => runMode_append ext m d K c X'⟩
  rintro x hu rfl
  exact runMode_segment ext m d K c x hu

/-- Settles O56: the equations of Step, mode by mode. -/
theorem modeStepEquations : Obligations.ModeStepEquations := fun ext K c x =>
  ⟨modeStep_ecb_encrypt ext K c x, modeStep_ecb_decrypt ext K c x, modeStep_cbc_encrypt ext K c x,
    modeStep_cbc_decrypt ext K c x, congrArg Prod.fst (modeStep_cfb_encrypt ext K c x),
    congrArg Prod.snd (modeStep_cfb_encrypt ext K c x), modeStep_cfb_decrypt ext K c x, modeStep_ofb ext K c x .encrypt,
    (modeStep_ofb ext K c x .decrypt).trans (modeStep_ofb ext K c x .encrypt).symm⟩

/-- Settles O58: at a segment of a whole block the stream block is used whole and the old register is shifted out whole. -/
theorem fullBlockCfb : Obligations.FullBlockCfb := by
  intro ext K c x hc hE
  have hstream : (ext.enc K c).take x.length = ext.enc K c := List.take_of_length_le (by omega)
  have hshift : c.drop x.length = [] := List.drop_of_length_le (by omega)
  simp [hstream, hshift]

end Sys2Proof.Machine

/-! Proofs for the family 42_streaming.md: the checks of TBLOCK and TFINAL in their order and what each commits (R140 to R153),
the life of a slot (R154, R160, R161), QUERY's report (R162), and the round trip of a final chunk (R163). -/

namespace Sys2Proof.Machine

/-! ### A command's outcome as the state it ends in (R201) -/

theorem exec_of_error {i : Instr} {s : State} {e : ErrorKind} (h : resultOf i s = .error e) :
    exec i s = .next (failedWith s (errorCode e)) := by
  rw [exec_eq_report, h]
  rfl

theorem exec_of_ok {i : Instr} {s : State} {c : Completed} (h : resultOf i s = .ok c) :
    exec i s = .next (completedWith c.state c.r0 c.r1) := by
  rw [exec_eq_report, h]
  rfl

/-- No error kind has the code 0, which STATUS.ERR holds after a success (R200). -/
theorem errorCode_ne_zero (e : ErrorKind) : errorCode e ≠ 0 := by
  cases e <;> decide

/-- A command after which STATUS.ERR is 0 has committed. -/
theorem exec_ok_of_err_zero {i : Instr} {s t : State} (h : exec i s = .next t) (herr : t.err = 0) :
    ∃ c, resultOf i s = .ok c ∧ t = complete c := by
  obtain ⟨e, -, rfl⟩ | hok := exec_cases h
  · exact absurd herr (errorCode_ne_zero e)
  · exact hok

/-- A command after which STATUS.ERR is not 0 has raised an error over the state before it. -/
theorem exec_error_of_err_ne_zero {i : Instr} {s t : State} (h : exec i s = .next t) (herr : t.err ≠ 0) :
    ∃ e, resultOf i s = .error e ∧ t = raise e s := by
  obtain herror | ⟨c, -, rfl⟩ := exec_cases h
  · exact herror
  · exact absurd rfl herr

/-! ### The checks of the slot (R141, R142, R150) -/

/-- A slot number that does not exist is refused before any other check, by the commands that write a slot and by QUERY
(R141). -/
theorem resultOf_missing_slot {i : Instr} {slot : Nat} {s : State} (hi : writtenSlot i = some slot ∨ i = .query slot)
    (h : s.params.numSlots ≤ slot) : resultOf i s = .error .argumentRange := by
  have hno : slotExists s slot = false := by simpa [slotExists] using h
  obtain hw | rfl := hi
  · cases i with
    | crenc | crdec => cases hw; simp [resultOf, creationResult, hno]
    | tblock => cases hw; simp [resultOf, tblockResult, hno]
    | tfinal => cases hw; simp [resultOf, tfinalResult, hno]
    | clear => cases hw; simp [resultOf, clearResult, hno]
    | setmode | setpadding | setkeysize | setblocksize | setfeedback | setkey | setiv | getkey | getiv | query => cases hw
  · simp [resultOf, queryResult, hno]

theorem liveTransform_of_not_active {sl : Slot} (h : sl.st ≠ .active) : liveTransform sl = none := by
  cases hl : liveTransform sl with
  | none => rfl
  | some mp => exact absurd (liveTransform_iff.mp hl).1 h

/-- On a slot that exists and is not Active TBLOCK and TFINAL raise ObjectDisposed before they look at their operands (R142,
R150). -/
theorem resultOf_disposed {i : Nat → Bool → Bool → Instr} {slot : Nat} {s : State} (n0 n1 : Bool)
    (hi : i = .tblock ∨ i = .tfinal) (hslot : slot < s.params.numSlots) (hst : (getSlot s slot).st ≠ .active) :
    resultOf (i slot n0 n1) s = .error .objectDisposed := by
  have hexists := (slotExists_iff s slot).mpr hslot
  obtain rfl | rfl := hi
  · simp [resultOf, tblockResult, hexists, liveTransform_of_not_active hst]
  · simp [resultOf, tfinalResult, hexists, liveTransform_of_not_active hst]

/-- On a live slot TBLOCK and TFINAL raise what the checks of their operands raise (R142, R150). -/
theorem resultOf_operandError {i : Nat → Bool → Bool → Instr} {slot : Nat} {n0 n1 : Bool} {s : State} {m : Mode}
    {pd : Padding} {e : ErrorKind} (hi : i = .tblock ∨ i = .tfinal) (hlive : LiveSlot s slot m pd)
    (ho : transformOperands n0 n1 s = .error e) : resultOf (i slot n0 n1) s = .error e := by
  have hexists := (slotExists_iff s slot).mpr hlive.slotExists
  obtain rfl | rfl := hi
  · simp [resultOf, tblockResult, hexists, liveSlot_transform hlive, ho]
  · simp [resultOf, tfinalResult, hexists, liveSlot_transform hlive, ho]

/-! ### The checks of the operands (R140) -/

@[simp] theorem transformOperands_null_input (n1 : Bool) (s : State) :
    transformOperands true n1 s = .error .argumentNull := rfl

@[simp] theorem transformOperands_null_output (s : State) : transformOperands false true s = .error .argumentNull := rfl

/-- R140 (c) to (e): a negative length, offset or count. -/
theorem transformOperands_negative {s : State}
    (h : s32 s.args.arg1 < 0 ∨ s32 s.args.arg5 < 0 ∨ s32 s.args.arg2 < 0 ∨ s32 s.args.arg3 < 0 ∨ s32 s.args.arg6 < 0) :
    transformOperands false false s = .error .argumentRange := by
  rw [transformOperands, if_neg Bool.false_ne_true, if_neg Bool.false_ne_true]
  by_cases hlen : s32 s.args.arg1 < 0 ∨ s32 s.args.arg5 < 0
  · exact if_pos hlen
  by_cases hin : s32 s.args.arg2 < 0 ∨ s32 s.args.arg3 < 0
  · rw [if_neg hlen, if_pos hin]
  · rw [if_neg hlen, if_neg hin, if_pos (by omega)]

/-- R140 (f) and (g): a buffer that wraps, or an input range past its buffer. -/
theorem transformOperands_overflow {s : State} (h1 : 0 ≤ s32 s.args.arg1) (h5 : 0 ≤ s32 s.args.arg5)
    (h2 : 0 ≤ s32 s.args.arg2) (h3 : 0 ≤ s32 s.args.arg3) (h6 : 0 ≤ s32 s.args.arg6)
    (h : 2 ^ 32 < (u32 s.args.arg0 : Int) + s32 s.args.arg1 ∨ 2 ^ 32 < (u32 s.args.arg4 : Int) + s32 s.args.arg5 ∨
      s32 s.args.arg1 < s32 s.args.arg2 + s32 s.args.arg3) :
    transformOperands false false s = .error .argumentOverflow := by
  rw [transformOperands, if_neg Bool.false_ne_true, if_neg Bool.false_ne_true, if_neg (by omega), if_neg (by omega),
    if_neg (by omega)]
  by_cases hwrap : (u32 s.args.arg0 : Int) + s32 s.args.arg1 > 2 ^ 32 ∨ (u32 s.args.arg4 : Int) + s32 s.args.arg5 > 2 ^ 32
  · exact if_pos hwrap
  · rw [if_neg hwrap, if_pos (by omega)]

/-! ### Storing the output (R53, R55) -/

/-- The last checks of TBLOCK and TFINAL on accepted operands before they commit `c`: `n` bytes at the output offset fit the
output buffer (R53) and are admitted for writing (R55). -/
def storeChecked (s : State) (n : Nat) (c : Completed) : Result :=
  if outputOverflows
      ⟨inputAddressOf s, inputCountOf s, u32 s.args.arg4, (s32 s.args.arg5).toNat, (s32 s.args.arg6).toNat⟩ n then
    .error .argumentOverflow
  else if !admitsRange s.params .write (outputAddressOf s) n then .error .busError
  else .ok c

section
variable {s : State} {n : Nat} {c : Completed}

theorem storeChecked_overflow (ho : OperandsAccepted s) (hfit : ¬ outputFits s n) :
    storeChecked s n c = .error .argumentOverflow :=
  if_pos ((outputOverflows_iff ho _ _ n).mpr hfit)

theorem storeChecked_unadmitted (ho : OperandsAccepted s) (hfit : outputFits s n)
    (hw : ¬ allAdmitted s .write (outputAddressOf s) n) : storeChecked s n c = .error .busError := by
  rw [storeChecked, if_neg (fun h => (outputOverflows_iff ho _ _ n).mp h hfit), not_allAdmitted hw]
  rfl

theorem storeChecked_ok (ho : OperandsAccepted s) (hfit : outputFits s n)
    (hw : allAdmitted s .write (outputAddressOf s) n) : storeChecked s n c = .ok c := by
  rw [storeChecked, if_neg (fun h => (outputOverflows_iff ho _ _ n).mp h hfit), (allAdmitted_iff ..).mp hw]
  rfl

end

/-! ### TBLOCK on a live slot with accepted operands (R142, R143) -/

/-- Run over the bytes `X` with a slot's key and segment size from its register: the output and the final register (R130). -/
def slotRun (s : State) (slot : Nat) (m : Mode) (d : Direction) (X : Bytes) : Bytes × Bytes :=
  runMode (externals s.params) m d (getSlot s slot).key (getSlot s slot).u (getSlot s slot).chain X

/-- What TBLOCK commits when Run answers `Yc` (R142). -/
def tblockCommit (s : State) (slot : Nat) (Yc : Bytes × Bytes) : Completed :=
  ⟨{ setSlot s slot { getSlot s slot with chain := Yc.2 } with mem := memWrite s.mem (outputAddressOf s) Yc.1 },
    BitVec.ofNat 32 (inputCountOf s), 0⟩

section
variable {s : State} {slot : Nat} {m : Mode} {pd : Padding}

/-- Past the checks of the slot and of the operands: whole segments, read admission, then the store (R142). -/
theorem resultOf_tblock_live (hlive : LiveSlot s slot m pd) (ho : OperandsAccepted s) :
    resultOf (.tblock slot false false) s =
      if inputCountOf s % (getSlot s slot).u ≠ 0 then .error .invalidInputLength
      else if !admitsRange s.params .read (inputAddressOf s) (inputCountOf s) then .error .busError
      else storeChecked s (inputCountOf s)
        (tblockCommit s slot (slotRun s slot m (getSlot s slot).dir (inputBytesOf s))) := by
  simp only [resultOf, tblockResult, (slotExists_iff s slot).mpr hlive.slotExists, liveSlot_transform hlive,
    transformOperands_accepted ho, Bool.not_true, Bool.false_eq_true, if_false]
  rfl

theorem resultOf_tblock_partial (hlive : LiveSlot s slot m pd) (ho : OperandsAccepted s)
    (hpart : inputCountOf s % (getSlot s slot).u ≠ 0) :
    resultOf (.tblock slot false false) s = .error .invalidInputLength := by
  rw [resultOf_tblock_live hlive ho, if_pos hpart]

theorem resultOf_tblock_unreadable (hlive : LiveSlot s slot m pd) (ho : OperandsAccepted s)
    (hwhole : inputCountOf s % (getSlot s slot).u = 0)
    (hr : ¬ allAdmitted s .read (inputAddressOf s) (inputCountOf s)) :
    resultOf (.tblock slot false false) s = .error .busError := by
  rw [resultOf_tblock_live hlive ho, if_neg (not_not_intro hwhole), not_allAdmitted hr]
  rfl

theorem resultOf_tblock_stores (hlive : LiveSlot s slot m pd) (ho : OperandsAccepted s)
    (hwhole : inputCountOf s % (getSlot s slot).u = 0)
    (hr : allAdmitted s .read (inputAddressOf s) (inputCountOf s)) :
    resultOf (.tblock slot false false) s =
      storeChecked s (inputCountOf s)
        (tblockCommit s slot (slotRun s slot m (getSlot s slot).dir (inputBytesOf s))) := by
  rw [resultOf_tblock_live hlive ho, if_neg (not_not_intro hwhole), (allAdmitted_iff ..).mp hr]
  rfl

end

/-! ### The bytes of a final chunk (R150 to R153) -/

/-- R150's check of the final length: whole blocks, for every decryptor and for an encryptor without padding. -/
theorem finalLengthBad_iff {pd : Padding} {sl : Slot} {L : Nat} :
    finalLengthBad pd sl L = true ↔ (sl.dir = .decrypt ∨ pd = .nopad) ∧ L % blockBytes sl ≠ 0 := by
  unfold finalLengthBad
  split
  · next hd => simp [hd]
  · next hd => simp [hd]

theorem finalLengthBad_of_whole {pd : Padding} {sl : Slot} {L : Nat} (h : L % blockBytes sl = 0) :
    finalLengthBad pd sl L = false :=
  Bool.eq_false_of_not_eq_true fun hbad => (finalLengthBad_iff.mp hbad).2 h

/-- Only ISO10126 reads the filler (R106). -/
theorem pad_filler_congr {pd : Padding} {f g : Bytes} (D : Bytes) (P : Nat) (h : pd = .iso10126 → f = g) :
    pad pd f D P = pad pd g D P := by
  cases pd with
  | iso10126 => rw [h rfl]
  | nopad | pkcs7 | zeros | ansix923 => rfl

/-- An encryptor with a padding takes every length. -/
theorem finalLengthBad_of_padding {pd : Padding} {sl : Slot} (L : Nat) (hd : sl.dir = .encrypt) (hpd : pd ≠ .nopad) :
    finalLengthBad pd sl L = false := by
  refine Bool.eq_false_of_not_eq_true fun hbad => ?_
  obtain ⟨hdec | hnone, -⟩ := finalLengthBad_iff.mp hbad
  · cases hd.symm.trans hdec
  · exact hpd hnone

/-- Data that Pad accepts pass the check of the final length on an encryptor (R102). -/
theorem finalLengthBad_of_pad {pd : Padding} {sl : Slot} {f D Dp : Bytes} (hd : sl.dir = .encrypt)
    (h : pad pd f D (blockBytes sl) = .ok Dp) : finalLengthBad pd sl D.length = false := by
  by_cases hpd : pd = .nopad
  · subst hpd
    refine finalLengthBad_of_whole ?_
    by_contra hpart
    cases (pad_nopad_of_not_whole f hpart).symm.trans h
  · exact finalLengthBad_of_padding _ hd hpd

theorem finalBytes_encrypt (ext : Externals) (m : Mode) (pd : Padding) {sl : Slot} (n : Nat) (D : Bytes)
    (hd : sl.dir = .encrypt) :
    finalBytes ext m pd sl n D =
      finalEncrypt ext m pd sl (ext.drawBytes n (fillerCount pd D.length (blockBytes sl))) D := by
  simp [finalBytes, finalDraws, hd]

theorem finalBytes_decrypt (ext : Externals) (m : Mode) (pd : Padding) {sl : Slot} (n : Nat) (D : Bytes)
    (hd : sl.dir = .decrypt) : finalBytes ext m pd sl n D = finalDecrypt ext m pd sl D := by
  simp [finalBytes, hd]

/-- Outside an encryptor under ISO10126 a final chunk draws nothing (R9). -/
theorem finalDraws_eq_zero {pd : Padding} {sl : Slot} (L : Nat) (h : sl.dir = .decrypt ∨ pd ≠ .iso10126) :
    finalDraws pd sl L = 0 := by
  refine (finalDraws_eq_zero_or pd sl L).resolve_right fun ⟨henc, hiso⟩ => ?_
  exact h.elim (fun hdec => by cases henc.symm.trans hdec) (fun hne => hne hiso)

/-- FinalEncrypt answers exactly where Pad does, with Run over the padded bytes (R151). -/
theorem finalEncrypt_ok_iff {ext : Externals} {m : Mode} {pd : Padding} {sl : Slot} {f D C : Bytes} :
    finalEncrypt ext m pd sl f D = .ok C ↔
      ∃ Dp, pad pd f D (blockBytes sl) = .ok Dp ∧ C = (runMode ext m .encrypt sl.key sl.u sl.chain Dp).1 := by
  unfold finalEncrypt
  cases pad pd f D (blockBytes sl) with
  | error e => simp
  | ok Dp => simp [eq_comm]

/-- Whole blocks are whole segments in a slot that holds a lawful snapshot (R151). -/
theorem snapshot_whole_segments {p : Params} {sl : Slot} {m : Mode} {pd : Padding} (hp : paramsLawful p = true)
    (h : SnapshotLawful p sl m pd) {L : Nat} (hL : L % blockBytes sl = 0) : L % sl.u = 0 :=
  Nat.mod_eq_zero_of_dvd ((snapshot_segment_dvd hp h).1.trans (Nat.dvd_of_mod_eq_zero hL))

theorem liveSlot_snapshot {s : State} {slot : Nat} {m : Mode} {pd : Padding} (hinv : s.Inv)
    (hlive : LiveSlot s slot m pd) : SnapshotLawful s.params (getSlot s slot) m pd :=
  (liveTransform_snapshot (getSlot_lawful hinv slot) (liveSlot_transform hlive)).2

/-- The data Pad answers are whole segments of a lawful snapshot (R109 (a), R151). -/
theorem snapshot_padded_segments {p : Params} {sl : Slot} {m : Mode} {pd : Padding} {f D Dp : Bytes}
    (hp : paramsLawful p = true) (h : SnapshotLawful p sl m pd) (hf : f.length = fillerCount pd D.length (blockBytes sl))
    (hpad : pad pd f D (blockBytes sl) = .ok Dp) : Dp.length % sl.u = 0 :=
  snapshot_whole_segments hp h (paddedLengthIsWhole pd f D Dp _ (snapshot_segment_dvd hp h).2 hf hpad)

/-! ### TFINAL on a live slot with accepted operands (R150) -/

/-- What TFINAL commits when the final bytes are `Z` (R150). -/
def tfinalCommit (s : State) (slot : Nat) (pd : Padding) (Z : Bytes) : Completed :=
  ⟨{ setSlot s slot (erasedSlot (getSlot s slot) .finalized) with
      mem := memWrite s.mem (outputAddressOf s) Z
      draws := s.draws + finalDraws pd (getSlot s slot) (inputCountOf s) }, BitVec.ofNat 32 Z.length, 0⟩

/-- `filler` is what TFINAL draws, where the padding reads a filler (R106). -/
def FillerDrawn (s : State) (slot : Nat) (pd : Padding) (filler : Bytes) : Prop :=
  pd = .iso10126 →
    filler = drawnBytes s.draws (blockBytes (getSlot s slot) - inputCountOf s % blockBytes (getSlot s slot) - 1)

section
variable {s : State} {slot : Nat} {m : Mode} {pd : Padding}

/-- Past the checks of the slot and of the operands, the input buffer being empty (R46): the final length, read admission, the
final bytes, then the store (R150). -/
theorem resultOf_tfinal_live (hinv : s.Inv) (hlive : LiveSlot s slot m pd) (ho : OperandsAccepted s) :
    resultOf (.tfinal slot false false) s =
      if finalLengthBad pd (getSlot s slot) (inputCountOf s) then .error .invalidDataLength
      else if !admitsRange s.params .read (inputAddressOf s) (inputCountOf s) then .error .busError
      else (finalBytes (externals s.params) m pd (getSlot s slot) s.draws (inputBytesOf s)).bind fun Z =>
        storeChecked s Z.length (tfinalCommit s slot pd Z) := by
  have hempty := (getSlot_lawful hinv slot).inputEmpty
  simp only [resultOf, tfinalResult, (slotExists_iff s slot).mpr hlive.slotExists, liveSlot_transform hlive,
    transformOperands_accepted ho, hempty, Bool.not_true, Bool.false_eq_true, if_false, List.length_nil, Nat.zero_add,
    List.nil_append, inputBytesOf]
  cases finalBytes (externals s.params) m pd (getSlot s slot) s.draws
    (memRead s.mem (inputAddressOf s) (inputCountOf s)) <;> rfl

theorem resultOf_tfinal_partial (hinv : s.Inv) (hlive : LiveSlot s slot m pd) (ho : OperandsAccepted s)
    (hbad : finalLengthBad pd (getSlot s slot) (inputCountOf s) = true) :
    resultOf (.tfinal slot false false) s = .error .invalidDataLength := by
  rw [resultOf_tfinal_live hinv hlive ho, if_pos hbad]

theorem resultOf_tfinal_unreadable (hinv : s.Inv) (hlive : LiveSlot s slot m pd) (ho : OperandsAccepted s)
    (hlen : finalLengthBad pd (getSlot s slot) (inputCountOf s) = false)
    (hr : ¬ allAdmitted s .read (inputAddressOf s) (inputCountOf s)) :
    resultOf (.tfinal slot false false) s = .error .busError := by
  rw [resultOf_tfinal_live hinv hlive ho, hlen, not_allAdmitted hr]
  rfl

theorem resultOf_tfinal_read (hinv : s.Inv) (hlive : LiveSlot s slot m pd) (ho : OperandsAccepted s)
    (hlen : finalLengthBad pd (getSlot s slot) (inputCountOf s) = false)
    (hr : allAdmitted s .read (inputAddressOf s) (inputCountOf s)) :
    resultOf (.tfinal slot false false) s =
      (finalBytes (externals s.params) m pd (getSlot s slot) s.draws (inputBytesOf s)).bind fun Z =>
        storeChecked s Z.length (tfinalCommit s slot pd Z) := by
  rw [resultOf_tfinal_live hinv hlive ho, hlen, (allAdmitted_iff ..).mp hr]
  rfl

@[simp] theorem inputBytesOf_length (s : State) : (inputBytesOf s).length = inputCountOf s := memRead_length ..

/-- Pad answers the same with the filler that TFINAL draws. -/
theorem FillerDrawn.pad_eq {filler : Bytes} (h : FillerDrawn s slot pd filler) :
    pad pd (drawnBytes s.draws (fillerCount pd (inputBytesOf s).length (blockBytes (getSlot s slot)))) (inputBytesOf s)
        (blockBytes (getSlot s slot)) =
      pad pd filler (inputBytesOf s) (blockBytes (getSlot s slot)) := by
  refine pad_filler_congr _ _ ?_
  rintro rfl
  rw [h rfl, inputBytesOf_length]
  rfl

/-- The encryption of the padded bytes is as long as they are (R151). -/
theorem slotRun_padded_length (hinv : s.Inv) (hlive : LiveSlot s slot m pd) {filler D : Bytes}
    (hfill : FillerDrawn s slot pd filler)
    (hpad : pad pd filler (inputBytesOf s) (blockBytes (getSlot s slot)) = .ok D) :
    (slotRun s slot m .encrypt D).1.length = D.length :=
  have hsegs : D.length % (getSlot s slot).u = 0 :=
    snapshot_padded_segments hinv.instanceLawful (liveSlot_snapshot hinv hlive) (drawnBytes_length ..)
      (hfill.pad_eq.trans hpad)
  (liveRun_lengths hinv (liveSlot_transform hlive) .encrypt hsegs).1

/-- An encryptor's TFINAL stores Run over the padded bytes (R151). -/
theorem resultOf_tfinal_encrypt (hinv : s.Inv) (hlive : LiveSlot s slot m pd) (ho : OperandsAccepted s)
    (hd : (getSlot s slot).dir = .encrypt) {filler D : Bytes} (hfill : FillerDrawn s slot pd filler)
    (hpad : pad pd filler (inputBytesOf s) (blockBytes (getSlot s slot)) = .ok D)
    (hr : allAdmitted s .read (inputAddressOf s) (inputCountOf s)) :
    resultOf (.tfinal slot false false) s =
      storeChecked s D.length (tfinalCommit s slot pd (slotRun s slot m .encrypt D).1) := by
  have hlen : finalLengthBad pd (getSlot s slot) (inputCountOf s) = false := by
    simpa using finalLengthBad_of_pad hd hpad
  have hbytes : finalBytes (externals s.params) m pd (getSlot s slot) s.draws (inputBytesOf s) =
      .ok (slotRun s slot m .encrypt D).1 :=
    (finalBytes_encrypt _ _ _ _ _ hd).trans (finalEncrypt_ok_iff.mpr ⟨D, hfill.pad_eq.trans hpad, rfl⟩)
  rw [resultOf_tfinal_read hinv hlive ho hlen hr, hbytes, Except.bind, slotRun_padded_length hinv hlive hfill hpad]

/-- A decryptor's TFINAL over whole blocks unpads Run over its input and stores what is left (R152, R153). -/
theorem resultOf_tfinal_decrypt (hinv : s.Inv) (hlive : LiveSlot s slot m pd) (ho : OperandsAccepted s)
    (hd : (getSlot s slot).dir = .decrypt) (hwhole : inputCountOf s % blockBytes (getSlot s slot) = 0)
    (hr : allAdmitted s .read (inputAddressOf s) (inputCountOf s)) :
    resultOf (.tfinal slot false false) s =
      (unpad pd (slotRun s slot m .decrypt (inputBytesOf s)).1 (blockBytes (getSlot s slot))).bind fun Z =>
        storeChecked s Z.length (tfinalCommit s slot pd Z) := by
  rw [resultOf_tfinal_read hinv hlive ho (finalLengthBad_of_whole hwhole) hr, finalBytes_decrypt _ _ _ _ _ hd]
  rfl

/-- The counter advances by the filler, where one is drawn (R9, R106). -/
theorem finalDraws_encrypt (hd : (getSlot s slot).dir = .encrypt) {filler : Bytes} (hfill : FillerDrawn s slot pd filler) :
    finalDraws pd (getSlot s slot) (inputCountOf s) = if pd = .iso10126 then filler.length else 0 := by
  simp only [finalDraws, hd]
  cases pd with
  | iso10126 =>
    rw [if_pos rfl, hfill rfl, drawnBytes_length]
    rfl
  | nopad | pkcs7 | zeros | ansix923 => rfl

end

/-! ### CLEAR and QUERY of an existing slot (R160, R162) -/

theorem resultOf_clear {s : State} {slot : Nat} (h : slot < s.params.numSlots) :
    resultOf (.clear slot) s = .ok ⟨setSlot s slot (erasedSlot (getSlot s slot) .cleared), 0, 0⟩ :=
  if_pos ((slotExists_iff s slot).mpr h)

theorem resultOf_query {s : State} {slot : Nat} (h : slot < s.params.numSlots) :
    resultOf (.query slot) s = .ok ⟨s, queryStateWord (getSlot s slot), querySizeWord (getSlot s slot).u⟩ :=
  if_pos ((slotExists_iff s slot).mpr h)

/-! ### What a command that commits leaves in its slot (R161) -/

section
variable {s : State} {n : Nat} {c : Completed}

theorem creation_leaves_active {d : Direction} {n0 n1 kx ix : Bool} (hn : n < s.slots.length)
    (h : creationResult (externals s.params) d n n0 n1 kx ix s = .ok c) : (getSlot (complete c) n).st = .active := by
  obtain ⟨-, _, _, -, -, -, -, -, -, rfl⟩ := creationResult_ok h
  exact congrArg Slot.st (getSlot_setSlot s _ hn)

theorem tblock_keeps_active {n0 n1 : Bool} (hn : n < s.slots.length)
    (h : tblockResult (externals s.params) n n0 n1 s = .ok c) :
    (getSlot s n).st = .active ∧ (getSlot (complete c) n).st = .active := by
  obtain ⟨-, _, _, _, hl, -, -, -, -, -, rfl⟩ := tblockResult_ok h
  have hactive := (liveTransform_iff.mp hl).1
  exact ⟨hactive, (congrArg Slot.st (getSlot_setSlot s _ hn)).trans hactive⟩

theorem tfinal_finalizes {n0 n1 : Bool} (hn : n < s.slots.length)
    (h : tfinalResult (externals s.params) n n0 n1 s = .ok c) :
    (getSlot s n).st = .active ∧ (getSlot (complete c) n).st = .finalized := by
  obtain ⟨-, _, _, _, _, hl, -, -, -, -, -, -, rfl⟩ := tfinalResult_ok h
  exact ⟨(liveTransform_iff.mp hl).1, congrArg Slot.st (getSlot_setSlot s _ hn)⟩

theorem clear_leaves_cleared (hn : n < s.slots.length) (h : clearResult n s = .ok c) :
    (getSlot (complete c) n).st = .cleared := by
  obtain ⟨-, rfl⟩ := clearResult_ok h
  exact congrArg Slot.st (getSlot_setSlot s _ hn)

end

/-- The commands that may change the state of slot `n`: a creation in it, its TFINAL, its CLEAR (R161). -/
def ChangesSlotState (i : Instr) (n : Nat) : Prop :=
  (∃ n0 n1 kx ix, i = .crenc n n0 n1 kx ix ∨ i = .crdec n n0 n1 kx ix) ∨ (∃ n0 n1, i = .tfinal n n0 n1) ∨ i = .clear n

/-- A command that names a slot to write and may not change its state is its TBLOCK. -/
theorem writtenSlot_cases {i : Instr} {n : Nat} (h : writtenSlot i = some n) :
    ChangesSlotState i n ∨ ∃ n0 n1, i = .tblock n n0 n1 := by
  cases i with
  | crenc slot n0 n1 kx ix => cases h; exact .inl (.inl ⟨n0, n1, kx, ix, .inl rfl⟩)
  | crdec slot n0 n1 kx ix => cases h; exact .inl (.inl ⟨n0, n1, kx, ix, .inr rfl⟩)
  | tblock slot n0 n1 => cases h; exact .inr ⟨n0, n1, rfl⟩
  | tfinal slot n0 n1 => cases h; exact .inl (.inr (.inl ⟨n0, n1, rfl⟩))
  | clear slot => cases h; exact .inl (.inr (.inr rfl))
  | setmode | setpadding | setkeysize | setblocksize | setfeedback | setkey | setiv | getkey | getiv | query => cases h

/-- No other command changes a slot's state, whether it completes or fails (R161). -/
theorem exec_changes_slot_state {i : Instr} {s t : State} {n : Nat} (hn : n < s.slots.length) (h : exec i s = .next t)
    (hne : (getSlot t n).st ≠ (getSlot s n).st) : ChangesSlotState i n := by
  have hwritten : writtenSlot i = some n := by
    by_contra hother
    exact hne (congrArg Slot.st (exec_getSlot_ne h hother))
  obtain hchanges | ⟨n0, n1, rfl⟩ := writtenSlot_cases hwritten
  · exact hchanges
  · obtain ⟨e, -, rfl⟩ | ⟨c, hc, rfl⟩ := exec_cases h
    · exact absurd rfl hne
    · obtain ⟨hbefore, hafter⟩ := tblock_keeps_active hn hc
      exact absurd (hafter.trans hbefore.symm) hne

/-! ### The counter of drawn bytes (R164) -/

/-- The same state with `k` bytes drawn so far. -/
def State.withDraws (s : State) (k : Nat) : State := { s with draws := k }

/-- The same commitment with `k` bytes drawn after it. -/
def Completed.withDraws (k : Nat) (c : Completed) : Completed := { c with state := c.state.withDraws k }

@[simp] theorem withDraws_params (s : State) (k : Nat) : (s.withDraws k).params = s.params := rfl
@[simp] theorem withDraws_mem (s : State) (k : Nat) : (s.withDraws k).mem = s.mem := rfl
@[simp] theorem withDraws_draws (s : State) (k : Nat) : (s.withDraws k).draws = k := rfl
@[simp] theorem getSlot_withDraws (s : State) (k n : Nat) : getSlot (s.withDraws k) n = getSlot s n := rfl
@[simp] theorem slotExists_withDraws (s : State) (k n : Nat) : slotExists (s.withDraws k) n = slotExists s n := rfl
@[simp] theorem transformOperands_withDraws (n0 n1 : Bool) (s : State) (k : Nat) :
    transformOperands n0 n1 (s.withDraws k) = transformOperands n0 n1 s := rfl

/-- A command whose outcome does not depend on the drawn bytes ends, from another count of them, in the same state but for that
count. -/
theorem exec_withDraws {i : Instr} {s t : State} {k : Nat}
    (hr : resultOf i (s.withDraws k) = (resultOf i s).map (Completed.withDraws k)) (h : exec i s = .next t) :
    exec i (s.withDraws k) = .next (t.withDraws k) := by
  rw [exec_eq_report, hr]
  obtain ⟨e, he, rfl⟩ | ⟨c, hc, rfl⟩ := exec_cases h
  · rw [he]; rfl
  · rw [hc]; rfl

/-- TBLOCK reads no drawn byte (R164). -/
theorem tblockResult_withDraws (ext : Externals) (slot : Nat) (n0 n1 : Bool) (s : State) (k : Nat) :
    tblockResult ext slot n0 n1 (s.withDraws k) =
      (tblockResult ext slot n0 n1 s).map (Completed.withDraws k) := by
  simp only [tblockResult, slotExists_withDraws, getSlot_withDraws, transformOperands_withDraws, withDraws_params,
    withDraws_mem, apply_ite (Except.map (Completed.withDraws k))]
  cases liveTransform (getSlot s slot) with
  | none => rfl
  | some mp =>
    cases transformOperands n0 n1 s with
    | error e => rfl
    | ok o =>
      simp only [apply_ite (Except.map (Completed.withDraws k))]
      rfl

/-- The final bytes read the drawn ones only in an encryptor under ISO10126 (R106). -/
theorem finalBytes_draws_congr (ext : Externals) (m : Mode) {pd : Padding} {sl : Slot} (D : Bytes) (j k : Nat)
    (h : sl.dir = .decrypt ∨ pd ≠ .iso10126) : finalBytes ext m pd sl j D = finalBytes ext m pd sl k D := by
  cases hd : sl.dir with
  | decrypt => rw [finalBytes_decrypt _ _ _ _ _ hd, finalBytes_decrypt _ _ _ _ _ hd]
  | encrypt =>
    have hpd : pd ≠ .iso10126 := h.resolve_left fun hdec => by cases hd.symm.trans hdec
    rw [finalBytes_encrypt _ _ _ _ _ hd, finalBytes_encrypt _ _ _ _ _ hd, finalEncrypt, finalEncrypt,
      pad_filler_congr D _ fun hiso => absurd hiso hpd]

/-- Outside an encryptor under ISO10126 TFINAL reads no drawn byte (R164). -/
theorem tfinalResult_withDraws (ext : Externals) {slot : Nat} (n0 n1 : Bool) {s : State} (k : Nat)
    (h : (getSlot s slot).dir = .decrypt ∨ (getSlot s slot).padding ≠ some .iso10126) :
    tfinalResult ext slot n0 n1 (s.withDraws k) = (tfinalResult ext slot n0 n1 s).map (Completed.withDraws k) := by
  simp only [tfinalResult, slotExists_withDraws, getSlot_withDraws, transformOperands_withDraws, withDraws_params,
    withDraws_mem, withDraws_draws, apply_ite (Except.map (Completed.withDraws k))]
  cases hl : liveTransform (getSlot s slot) with
  | none => rfl
  | some mp =>
    obtain ⟨m, pd⟩ := mp
    have hpd : (getSlot s slot).dir = .decrypt ∨ pd ≠ .iso10126 := by
      rwa [(liveTransform_iff.mp hl).2.2, ne_eq, Option.some_inj] at h
    cases transformOperands n0 n1 s with
    | error e => rfl
    | ok o =>
      simp only [finalDraws_eq_zero _ hpd, finalBytes_draws_congr ext m _ k s.draws hpd,
        apply_ite (Except.map (Completed.withDraws k))]
      cases finalBytes ext m pd (getSlot s slot) s.draws
        ((getSlot s slot).ibuf ++ memRead s.mem o.inAddr o.inCount) with
      | error e => rfl
      | ok Z =>
        simp only [apply_ite (Except.map (Completed.withDraws k))]
        rfl

/-! ### The bytes a storing command writes (R142, R150, R177, R178) -/

/-- From `s` to `t` no byte of host memory changes but RESULT0 bytes from `addr` on. -/
def StoredWithin (addr : Nat) (s t : State) : Prop :=
  ∀ a, a < addr ∨ addr + t.result0.toNat ≤ a → readByte t.mem a = readByte s.mem a

/-- A command that raises an error stores nothing, so it is enough to look at those that commit. -/
theorem exec_storedWithin {i : Instr} {addr : Nat} {s t : State} (h : exec i s = .next t)
    (hok : ∀ c, resultOf i s = .ok c → StoredWithin addr s (complete c)) : StoredWithin addr s t := by
  obtain ⟨e, -, rfl⟩ | ⟨c, hc, rfl⟩ := exec_cases h
  · exact fun _ _ => rfl
  · exact hok c hc

/-- Storing a string whose length is RESULT0. -/
theorem complete_storedWithin {addr : Nat} {data : Bytes} {s : State} {c : Completed}
    (hmem : c.state.mem = memWrite s.mem addr data) (hr0 : c.r0 = BitVec.ofNat 32 data.length)
    (hlen : data.length < 2 ^ 31) : StoredWithin addr s (complete c) := by
  intro a ha
  rw [complete_result0, hr0, toNat_ofNat_word (by omega)] at ha
  rw [complete_mem, hmem]
  exact readByte_memWrite_outside s.mem addr data ha

theorem s32_lt (w : Word) : s32 w < 2 ^ 31 := BitVec.toInt_lt

theorem bufferOperand_len_lt {n : Bool} {a l : Word} {b : Buffer} (h : bufferOperand n a l = .ok b) : b.len < 2 ^ 31 := by
  obtain ⟨-, -, -, rfl⟩ := bufferOperand_ok_iff.mp h
  have := s32_lt l
  simp only
  omega

/-- What fits the output buffer is shorter than the buffer's length, a signed word (R53). -/
theorem outputFits_lt {n0 n1 : Bool} {s : State} {o : TransformOperands} {k : Nat}
    (h : transformOperands n0 n1 s = .ok o) (hk : outputOverflows o k = false) : k < 2 ^ 31 := by
  obtain ⟨-, -, -, -, -, -, -, -, -, -, rfl⟩ := transformOperands_ok_iff.mp h
  have := s32_lt s.args.arg5
  simp only [outputOverflows, gt_iff_lt, decide_eq_false_iff_not, not_lt] at hk
  omega

section
variable {s : State} {c : Completed}

theorem copyOut_storedWithin {data : Bytes} {n0 : Bool} {b : Buffer} (hb : fbBuffer n0 s = .ok b)
    (h : copyOut data n0 s = .ok c) : StoredWithin b.addr s (complete c) := by
  obtain ⟨b', hb', hfits, -, rfl⟩ := copyOut_ok h
  cases hb.symm.trans hb'
  have hlen := bufferOperand_len_lt hb
  exact complete_storedWithin rfl rfl (by omega)

/-- From a lawful state TBLOCK stores as many bytes as it reads (R120). -/
theorem tblockResult_storedWithin (hinv : s.Inv) {slot : Nat} {n0 n1 : Bool} {o : TransformOperands}
    (ho : transformOperands n0 n1 s = .ok o) (h : tblockResult (externals s.params) slot n0 n1 s = .ok c) :
    StoredWithin (outputAddress o) s (complete c) := by
  obtain ⟨-, m, pd, o', hlive, ho', hwhole, -, hfits, -, rfl⟩ := tblockResult_ok h
  cases ho.symm.trans ho'
  have hout := (liveRun_lengths hinv hlive (getSlot s slot).dir (X := memRead s.mem o.inAddr o.inCount)
    (by rwa [memRead_length])).1
  rw [memRead_length] at hout
  exact complete_storedWithin rfl (by rw [hout]) (by rw [hout]; exact outputFits_lt ho hfits)

theorem tfinalResult_storedWithin {ext : Externals} {slot : Nat} {n0 n1 : Bool} {o : TransformOperands}
    (ho : transformOperands n0 n1 s = .ok o) (h : tfinalResult ext slot n0 n1 s = .ok c) :
    StoredWithin (outputAddress o) s (complete c) := by
  obtain ⟨-, _, _, o', Z, -, ho', -, -, -, hfits, -, rfl⟩ := tfinalResult_ok h
  cases ho.symm.trans ho'
  exact complete_storedWithin rfl rfl (outputFits_lt ho hfits)

end

/-- With operands that R140 refuses TBLOCK and TFINAL fail, if not by that check then by an earlier one. -/
theorem exec_refused_operands_mem {i : Nat → Bool → Bool → Instr} {slot : Nat} {n0 n1 : Bool} {s t : State} {e : ErrorKind}
    (hi : i = .tblock ∨ i = .tfinal) (ho : transformOperands n0 n1 s = .error e) (h : exec (i slot n0 n1) s = .next t) :
    t.mem = s.mem := by
  obtain ⟨e', -, rfl⟩ | ⟨c, hc, -⟩ := exec_cases h
  · rfl
  · obtain rfl | rfl := hi
    · obtain ⟨-, _, _, _, -, hok, -⟩ := tblockResult_ok hc
      cases ho.symm.trans hok
    · obtain ⟨-, _, _, _, _, -, hok, -⟩ := tfinalResult_ok hc
      cases ho.symm.trans hok

/-! ### QUERY's words (R162) -/

/-- Each bit of RESULT0 is a bit of the field whose byte it stands in (R162). -/
theorem queryStateWord_bit (sl : Slot) {i : Nat} (hi : i < 32) :
    (queryStateWord sl).getLsbD i =
      if i < 8 then (slotStateCode sl.st).getLsbD i
      else if i < 16 then (directionCode sl.dir).getLsbD (i - 8)
      else if i < 24 then (slotModeField sl.mode).getLsbD (i - 16)
      else (slotPaddingField sl.padding).getLsbD (i - 24) := by
  simp only [queryStateWord, BitVec.getLsbD_or, BitVec.getLsbD_shiftLeft, BitVec.truncate_eq_setWidth,
    BitVec.getLsbD_setWidth]
  interval_cases i <;> simp

/-- The four bytes of RESULT0 are the four fields. -/
theorem queryStateWord_bytes (sl : Slot) :
    (queryStateWord sl).extractLsb' 0 8 = (slotStateCode sl.st).zeroExtend 8 ∧
      (queryStateWord sl).extractLsb' 8 8 = (directionCode sl.dir).zeroExtend 8 ∧
      (queryStateWord sl).extractLsb' 16 8 = (slotModeField sl.mode).zeroExtend 8 ∧
      (queryStateWord sl).extractLsb' 24 8 = (slotPaddingField sl.padding).zeroExtend 8 := by
  refine ⟨?_, ?_, ?_, ?_⟩ <;>
    (apply BitVec.eq_of_getLsbD_eq
     intro i hi
     rw [BitVec.getLsbD_extractLsb', queryStateWord_bit sl (by omega)]
     simp (disch := omega) [-BitVec.getLsbD_eq_getElem, hi, if_neg, if_pos])

/-- RESULT1 holds a segment size that fits a half in both halves (R162). -/
theorem querySizeWord_eq {u : Nat} (h : u < 65536) : querySizeWord u = BitVec.ofNat 32 (u + 65536 * u) := by
  have hor : u ||| u <<< 16 = u + 65536 * u := by
    rw [Nat.or_comm, ← Nat.shiftLeft_add_eq_or_of_lt (show u < 2 ^ 16 from h), Nat.shiftLeft_eq]
    omega
  have hu : u % 2 ^ 32 = u := Nat.mod_eq_of_lt (by omega)
  apply BitVec.eq_of_toNat_eq
  rw [querySizeWord, BitVec.toNat_or, BitVec.toNat_shiftLeft, BitVec.toNat_ofNat, BitVec.toNat_ofNat, hu,
    ← hor, Nat.or_mod_two_pow, hu]

/-! ### The statements -/

/-- Settles O38: the check of the slot number is the first of all six commands. -/
theorem missingSlotRaisesArgumentRange : Obligations.MissingSlotRaisesArgumentRange := by
  intro slot n0 n1 kx ix s h
  have hmissing {i : Instr} (hi : writtenSlot i = some slot ∨ i = .query slot) : exec i s = .next (failedWith s 2) :=
    exec_of_error (resultOf_missing_slot hi h)
  exact ⟨hmissing (.inl rfl), hmissing (.inl rfl), hmissing (.inl rfl), hmissing (.inl rfl), hmissing (.inl rfl),
    hmissing (.inr rfl)⟩

/-- Settles O39: past its checks TBLOCK commits Run's output and register. -/
theorem tblockTransformsSegments : Obligations.TblockTransformsSegments := by
  intro slot s m pd Y c hlive ho hwhole hr hfit hw hrun
  have hok := (resultOf_tblock_stores hlive ho hwhole hr).trans (storeChecked_ok ho hfit hw)
  have hout : slotRun s slot m (getSlot s slot).dir (inputBytesOf s) = (Y, c) := hrun
  rw [exec_of_ok hok, hout]
  rfl

/-- Settles O40: on a live slot the operands' checks decide, in R140's order. -/
theorem transformOperandErrors : Obligations.TransformOperandErrors := by
  intro i slot n1 s m pd hi hlive
  refine ⟨?_, ?_, fun hneg => ?_, fun h1 h5 h2 h3 h6 hover => ?_⟩
  · exact exec_of_error (resultOf_operandError hi hlive (transformOperands_null_input n1 s))
  · exact exec_of_error (resultOf_operandError hi hlive (transformOperands_null_output s))
  · exact exec_of_error (resultOf_operandError hi hlive (transformOperands_negative hneg))
  · exact exec_of_error (resultOf_operandError hi hlive (transformOperands_overflow h1 h5 h2 h3 h6 hover))

/-- Settles O41: the equations of TBLOCK past its operands' checks, one for each later check. -/
theorem tblockErrors : Obligations.TblockErrors := by
  intro slot s m pd hlive ho
  refine ⟨fun hpart => ?_, fun hwhole hr => ?_, fun hwhole hr hfit => ?_, fun hwhole hr hfit hw => ?_⟩
  · exact exec_of_error (resultOf_tblock_partial hlive ho hpart)
  · exact exec_of_error (resultOf_tblock_unreadable hlive ho hwhole hr)
  · exact exec_of_error ((resultOf_tblock_stores hlive ho hwhole hr).trans (storeChecked_overflow ho hfit))
  · exact exec_of_error ((resultOf_tblock_stores hlive ho hwhole hr).trans (storeChecked_unadmitted ho hfit hw))

/-- Settles O46: CLEAR of an existing slot has no check that can fail. -/
theorem clearErasesSlot : Obligations.ClearErasesSlot := fun _ _ h => exec_of_ok (resultOf_clear h)

/-- Settles O42: TFINAL on an encryptor passes its checks and commits Run over the padded bytes. -/
theorem tfinalEncryptCompletes : Obligations.TfinalEncryptCompletes := by
  intro slot s m pd filler D hinv hlive hd ho hfill hpad hr hfit hw
  have hok := (resultOf_tfinal_encrypt hinv hlive ho hd hfill hpad hr).trans (storeChecked_ok ho hfit hw)
  rw [exec_of_ok hok, tfinalCommit, finalDraws_encrypt hd hfill, slotRun_padded_length hinv hlive hfill hpad]
  rfl

/-- Settles O43: TFINAL on a decryptor passes its checks and commits the unpadded bytes; it draws nothing. -/
theorem tfinalDecryptCompletes : Obligations.TfinalDecryptCompletes := by
  intro slot s m pd Z hinv hlive hd ho hwhole hr hunpad hfit hw
  have hok : resultOf (.tfinal slot false false) s = .ok (tfinalCommit s slot pd Z) := by
    rw [resultOf_tfinal_decrypt hinv hlive ho hd hwhole hr, slotRun, hunpad]
    exact storeChecked_ok ho hfit hw
  rw [exec_of_ok hok, tfinalCommit, finalDraws_eq_zero _ (.inl hd)]
  rfl

/-- Settles O44: the equations of TFINAL past its operands' checks, one for each later check. -/
theorem tfinalErrors : Obligations.TfinalErrors := by
  intro slot s m pd hinv hlive ho
  refine ⟨fun hneeds hpart => ?_, fun hneeds hr => ?_, fun hd hwhole hr Q hQ => ?_,
    fun hd hr filler D hfill hpad => ?_⟩
  · exact exec_of_error (resultOf_tfinal_partial hinv hlive ho (finalLengthBad_iff.mpr ⟨hneeds, hpart⟩))
  · have hlen : finalLengthBad pd (getSlot s slot) (inputCountOf s) = false :=
      hneeds.elim finalLengthBad_of_whole fun ⟨henc, hpd⟩ => finalLengthBad_of_padding _ henc hpd
    exact exec_of_error (resultOf_tfinal_unreadable hinv hlive ho hlen hr)
  · have hres := resultOf_tfinal_decrypt hinv hlive ho hd hwhole hr
    rw [slotRun, hQ] at hres
    refine ⟨fun hmalformed => ?_, fun Z hZ hfit => ?_, fun Z hZ hfit hw => ?_⟩
    · cases hu : unpad pd Q (blockBytes (getSlot s slot)) with
      | ok Z => exact absurd hu (hmalformed Z)
      | error e =>
        rw [hu, unpad_error hu] at hres
        exact exec_of_error hres
    · rw [hZ] at hres
      exact exec_of_error (hres.trans (storeChecked_overflow ho hfit))
    · rw [hZ] at hres
      exact exec_of_error (hres.trans (storeChecked_unadmitted ho hfit hw))
  · have hres := resultOf_tfinal_encrypt hinv hlive ho hd hfill hpad hr
    refine ⟨fun hfit => ?_, fun hfit hw => ?_⟩
    · exact exec_of_error (hres.trans (storeChecked_overflow ho hfit))
    · exact exec_of_error (hres.trans (storeChecked_unadmitted ho hfit hw))

/-- Settles O60: decrypting gives the padded bytes back, and unpadding those gives the data. -/
theorem finalDecryptUndoesFinalEncrypt : Obligations.FinalDecryptUndoesFinalEncrypt := by
  intro p m pd sl filler D C hp hsnap hkey hchain hfill henc hP
  obtain ⟨Dp, hpad, rfl⟩ := finalEncrypt_ok_iff.mp henc
  have hblock : legalBytes p.blockSizes (blockBytes sl) = true :=
    legalBytes_of_legal (paramsLawful_parts hp).2.1 hsnap.blockLegal
  have hrun := runMode_decrypt_encrypt (snapshot_segmentFits hsnap) ((inDomain_iff ..).mpr ⟨hkey, hblock⟩) hchain
    (snapshot_padded_segments hp hsnap hfill hpad)
  rw [finalDecrypt, hrun]
  exact unpadUndoesPad pd filler D Dp _ (snapshot_segment_dvd hp hsnap).2 hP hfill hpad

/-- Settles O45: both commands look at the slot's state first, and a TFINAL that succeeds leaves its slot Finalized. -/
theorem finalizedSlotIsDisposed : Obligations.FinalizedSlotIsDisposed := by
  intro slot n0 n1 s hslot
  have hdisposed (r : State) (hexists : slot < r.params.numSlots) (hst : (getSlot r slot).st ≠ .active) :
      exec (.tblock slot n0 n1) r = .next (failedWith r 12) ∧ exec (.tfinal slot n0 n1) r = .next (failedWith r 12) :=
    ⟨exec_of_error (resultOf_disposed n0 n1 (.inl rfl) hexists hst),
      exec_of_error (resultOf_disposed n0 n1 (.inr rfl) hexists hst)⟩
  refine ⟨hdisposed s hslot, fun hcount m0 m1 t ht herr => hdisposed t ?_ ?_⟩
  · rwa [(exec_frame ht).params]
  · obtain ⟨c, hc, rfl⟩ := exec_ok_of_err_zero ht herr
    rw [(tfinal_finalizes (hcount ▸ hslot) hc).2]
    decide

/-- Settles O48: an error leaves every slot, each command that commits leaves its slot in the state R161 gives it, and no other
command changes a slot's state. -/
theorem slotLifecycle : Obligations.SlotLifecycle := by
  intro i s t n hcount hslot h
  have hn : n < s.slots.length := hcount ▸ hslot
  refine ⟨fun herr => ?_, fun herr => ?_, exec_changes_slot_state hn h⟩
  · obtain ⟨e, -, rfl⟩ := exec_error_of_err_ne_zero h herr
    rfl
  · obtain ⟨c, hc, rfl⟩ := exec_ok_of_err_zero h herr
    refine ⟨?_, ?_, ?_, ?_⟩
    · rintro n0 n1 kx ix (rfl | rfl) <;> exact creation_leaves_active hn hc
    · rintro n0 n1 rfl
      exact tblock_keeps_active hn hc
    · rintro n0 n1 rfl
      exact tfinal_finalizes hn hc
    · rintro rfl
      exact clear_leaves_cleared hn hc

/-- Settles O49: neither outcome depends on the drawn bytes. -/
theorem transformsIgnoreDraws : Obligations.TransformsIgnoreDraws := fun slot n0 n1 s _ k =>
  ⟨exec_withDraws (tblockResult_withDraws (externals s.params) slot n0 n1 s k), fun hslot =>
    exec_withDraws (tfinalResult_withDraws (externals s.params) n0 n1 k hslot)⟩

/-- Settles O18: what each storing command stores is as long as the RESULT0 it answers. -/
theorem storingCommandsMemoryFrame : Obligations.StoringCommandsMemoryFrame := by
  intro s t hinv
  refine ⟨fun n0 b hb h => ?_, fun n0 e he h => ?_, fun slot n0 n1 o ho h => ?_, fun slot n0 n1 e he h a => ?_⟩
  · obtain h | h := h
    · exact exec_storedWithin h fun c hc => copyOut_storedWithin hb hc
    · exact exec_storedWithin h fun c hc => copyOut_storedWithin hb hc
  · have hraised : t = raise e s := by
      obtain h | h := h
      · exact Host.Outcome.next.inj (h.symm.trans (exec_of_fbBuffer_error (.inr (.inr (.inl rfl))) he))
      · exact Host.Outcome.next.inj (h.symm.trans (exec_of_fbBuffer_error (.inr (.inr (.inr rfl))) he))
    exact fun a => by rw [hraised, raise_mem]
  · obtain h | h := h
    · exact exec_storedWithin h fun c hc => tblockResult_storedWithin hinv ho hc
    · exact exec_storedWithin h fun c hc => tfinalResult_storedWithin ho hc
  · obtain h | h := h
    · rw [exec_refused_operands_mem (.inl rfl) he h]
    · rw [exec_refused_operands_mem (.inr rfl) he h]

/-- Settles O47: QUERY of an existing slot answers the two words of R162, whose parts are the slot's fields. -/
theorem queryReportsSlot : Obligations.QueryReportsSlot := by
  intro slot s h
  obtain ⟨hst, hdir, hmode, hpadding⟩ := queryStateWord_bytes (getSlot s slot)
  refine ⟨_, _, exec_of_ok (resultOf_query h), querySizeWord_eq, hst.trans ?_, hdir.trans ?_, hmode.trans ?_,
    hpadding.trans ?_⟩
  · cases (getSlot s slot).st <;> rfl
  · cases (getSlot s slot).dir <;> rfl
  · rcases (getSlot s slot).mode with _ | m
    · rfl
    · cases m <;> rfl
  · rcases (getSlot s slot).padding with _ | pd
    · rfl
    · cases pd <;> rfl

end Sys2Proof.Machine

/-! Proofs for the family 43_config.md: what the configuration commands write and when they raise (R170 to R179), and the
creation of transforms (R180 to R182): its checks in their order and the slot it makes. -/

namespace Sys2Proof.Machine

/-! ### What a command may write of the configuration (R179, R181) -/

/-- How the configuration `c'` after the command `i` may differ from `c` before it: in the fields that the rule of `i` names
(R179). A command that is no configuration command writes none; creation is one of these (R181). -/
def CfgFrame (i : Instr) (c c' : Cfg) : Prop :=
  match i with
  | .setmode => c' = { c with mode := c'.mode }
  | .setpadding => c' = { c with padding := c'.padding }
  | .setkeysize => c' = { c with key := c'.key, keyBits := c'.keyBits }
  | .setkey _ => c' = { c with key := c'.key, keyBits := c'.keyBits }
  | .setblocksize => c' = { c with blockBits := c'.blockBits, iv := c'.iv }
  | .setfeedback => c' = { c with feedbackBits := c'.feedbackBits }
  | .setiv _ => c' = { c with iv := c'.iv }
  | _ => c' = c

theorem CfgFrame.refl (i : Instr) (c : Cfg) : CfgFrame i c c := by
  cases i <;> exact rfl

/-- What a command commits keeps the configuration's frame. -/
theorem resultOf_ok_cfgFrame {i : Instr} {s : State} {c : Completed} (h : resultOf i s = .ok c) :
    CfgFrame i s.cfg c.state.cfg := by
  cases i with
  | setmode => obtain ⟨_, -, rfl⟩ := setmodeResult_ok h; exact rfl
  | setpadding => obtain ⟨_, -, rfl⟩ := setpaddingResult_ok h; exact rfl
  | setkeysize => obtain ⟨-, rfl⟩ := setkeysizeResult_ok h; exact rfl
  | setblocksize => obtain ⟨-, ⟨-, rfl⟩ | ⟨-, rfl⟩⟩ := setblocksizeResult_ok h <;> exact rfl
  | setfeedback => obtain ⟨-, -, rfl⟩ := setfeedbackResult_ok h; exact rfl
  | setkey n0 => obtain ⟨_, -, -, -, -, rfl⟩ := setkeyResult_ok h; exact rfl
  | setiv n0 => obtain ⟨_, -, -, -, rfl⟩ := setivResult_ok h; exact rfl
  | getkey n0 => obtain ⟨_, -, -, -, rfl⟩ := copyOut_ok h; exact rfl
  | getiv n0 => obtain ⟨_, -, -, -, rfl⟩ := copyOut_ok h; exact rfl
  | crenc slot n0 n1 kx ix => obtain ⟨-, _, _, -, -, -, -, -, -, rfl⟩ := creationResult_ok h; exact rfl
  | crdec slot n0 n1 kx ix => obtain ⟨-, _, _, -, -, -, -, -, -, rfl⟩ := creationResult_ok h; exact rfl
  | tblock slot n0 n1 => obtain ⟨-, _, _, _, -, -, -, -, -, -, rfl⟩ := tblockResult_ok h; exact rfl
  | tfinal slot n0 n1 => obtain ⟨-, _, _, _, _, -, -, -, -, -, -, -, rfl⟩ := tfinalResult_ok h; exact rfl
  | clear slot => obtain ⟨-, rfl⟩ := clearResult_ok h; exact rfl
  | query slot => obtain ⟨-, rfl⟩ := queryResult_ok h; exact rfl

/-- Every command keeps the configuration's frame, whether it raises or completes. -/
theorem exec_cfgFrame {i : Instr} {s t : State} (h : exec i s = .next t) : CfgFrame i s.cfg t.cfg := by
  obtain ⟨_, -, rfl⟩ | ⟨c, hc, rfl⟩ := exec_cases h
  · exact .refl i s.cfg
  · exact resultOf_ok_cfgFrame hc

/-! ### Values of the scalar operand (R75, R80, R81) -/

/-- A size kept in a 32-bit field is the argument word that named it (R21, R23, R24). -/
@[simp] theorem ofInt_scalarOperand (s : State) : BitVec.ofInt 32 (scalarOperand s) = s.args.arg0 := BitVec.ofInt_toInt

/-- No table admits a negative size, lawful or not (R10). -/
theorem legal_nonneg {t : List SizeEntry} {v : Int} (h : legal t v = true) : 0 ≤ v := by
  obtain ⟨e, -, hv⟩ := (legal_iff t v).mp h
  rcases (entryAdmits_iff e v).mp hv with ⟨-, hmin, -⟩ | ⟨-, hmin, -⟩ <;> omega

theorem modeOfValue_modeCode (m : Mode) : modeOfValue (modeCode m).toNat = some m := by
  cases m <;> rfl

theorem modeOfValue_reserved {v : Int} (h : v < 1 ∨ 4 < v) : modeOfValue v = none := by
  rw [modeOfValue, if_neg (by omega), if_neg (by omega), if_neg (by omega), if_neg (by omega)]

theorem paddingOfValue_paddingCode (p : Padding) : paddingOfValue (paddingCode p).toNat = some p := by
  cases p <;> rfl

theorem paddingOfValue_reserved {v : Int} (h : v < 1 ∨ 5 < v) : paddingOfValue v = none := by
  rw [paddingOfValue, if_neg (by omega), if_neg (by omega), if_neg (by omega), if_neg (by omega), if_neg (by omega)]

/-! ### The outcomes of the scalar commands (R170 to R174) -/

section
variable {s : State}

theorem resultOf_setmode_code {m : Mode} (h : s32 s.args.arg0 = (modeCode m).toNat) :
    resultOf .setmode s = .ok ⟨withCfg s { s.cfg with mode := m }, 0, 0⟩ := by
  simp only [resultOf, setmodeResult, scalarOperand, h, modeOfValue_modeCode]

theorem resultOf_setmode_reserved (h : s32 s.args.arg0 < 1 ∨ 4 < s32 s.args.arg0) :
    resultOf .setmode s = .error .argumentRange := by
  simp only [resultOf, setmodeResult, scalarOperand, modeOfValue_reserved h]

theorem resultOf_setpadding_code {p : Padding} (h : s32 s.args.arg0 = (paddingCode p).toNat) :
    resultOf .setpadding s = .ok ⟨withCfg s { s.cfg with padding := p }, 0, 0⟩ := by
  simp only [resultOf, setpaddingResult, scalarOperand, h, paddingOfValue_paddingCode]

theorem resultOf_setpadding_reserved (h : s32 s.args.arg0 < 1 ∨ 5 < s32 s.args.arg0) :
    resultOf .setpadding s = .error .argumentRange := by
  simp only [resultOf, setpaddingResult, scalarOperand, paddingOfValue_reserved h]

/-- A legal key size always draws a key (R172). -/
theorem resultOf_setkeysize_legal (h : legal s.params.keySizes (s32 s.args.arg0) = true) :
    resultOf .setkeysize s =
      .ok
        ⟨{ s with
            cfg := { s.cfg with
              key := drawnKey s.params.alg s.draws (s32 s.args.arg0 / 8).toNat
              keyBits := s.args.arg0 }
            draws := s.draws + (s32 s.args.arg0 / 8).toNat }, 0, 0⟩ := by
  rw [resultOf, setkeysizeResult, ofInt_scalarOperand]
  exact if_pos h

theorem resultOf_setkeysize_illegal (h : legal s.params.keySizes (s32 s.args.arg0) = false) :
    resultOf .setkeysize s = .error .invalidKeySize :=
  if_neg (Bool.eq_false_iff.mp h)

/-- The current block size is accepted and nothing is drawn (R173). -/
theorem resultOf_setblocksize_same (h : legal s.params.blockSizes (s32 s.args.arg0) = true)
    (hsame : s32 s.args.arg0 = (s.cfg.blockBits.toNat : Int)) : resultOf .setblocksize s = .ok ⟨s, 0, 0⟩ :=
  (if_pos h).trans (if_pos hsame)

/-- Another legal block size draws an IV of that size (R173). -/
theorem resultOf_setblocksize_other (h : legal s.params.blockSizes (s32 s.args.arg0) = true)
    (hother : s32 s.args.arg0 ≠ (s.cfg.blockBits.toNat : Int)) :
    resultOf .setblocksize s =
      .ok
        ⟨{ s with
            cfg := { s.cfg with
              blockBits := s.args.arg0
              iv := drawnBytes s.draws (s32 s.args.arg0 / 8).toNat }
            draws := s.draws + (s32 s.args.arg0 / 8).toNat }, 0, 0⟩ := by
  rw [resultOf, setblocksizeResult, ofInt_scalarOperand]
  exact (if_pos h).trans (if_neg hother)

theorem resultOf_setblocksize_illegal (h : legal s.params.blockSizes (s32 s.args.arg0) = false) :
    resultOf .setblocksize s = .error .invalidBlockSize :=
  if_neg (Bool.eq_false_iff.mp h)

theorem resultOf_setfeedback_inside (h1 : 1 ≤ s32 s.args.arg0) (h2 : s32 s.args.arg0 ≤ (s.cfg.blockBits.toNat : Int)) :
    resultOf .setfeedback s = .ok ⟨withCfg s { s.cfg with feedbackBits := s.args.arg0 }, 0, 0⟩ := by
  rw [resultOf, setfeedbackResult, ofInt_scalarOperand, scalarOperand]
  exact if_neg (by omega)

theorem resultOf_setfeedback_outside (h : s32 s.args.arg0 < 1 ∨ (s.cfg.blockBits.toNat : Int) < s32 s.args.arg0) :
    resultOf .setfeedback s = .error .invalidFeedbackSize :=
  if_pos h

end

/-! ### The outcomes of the buffer commands past the buffer's own checks (R175 to R178) -/

/-- The checks of a buffer operand pass on ARG0 and ARG1 (R52, R75). -/
structure BufferAccepted (s : State) : Prop where
  length : 0 ≤ s32 s.args.arg1
  fits : (u32 s.args.arg0 : Int) + s32 s.args.arg1 ≤ 2 ^ 32

/-- The buffer's length in bytes. -/
def bufferLengthOf (s : State) : Nat := (s32 s.args.arg1).toNat

/-- The bytes of the buffer. -/
def bufferBytesOf (s : State) : Bytes := memRead s.mem (u32 s.args.arg0) (bufferLengthOf s)

theorem fbBuffer_accepted {s : State} (hb : BufferAccepted s) :
    fbBuffer false s = .ok ⟨u32 s.args.arg0, bufferLengthOf s⟩ :=
  bufferOperand_ok_iff.mpr ⟨rfl, hb.length, hb.fits, rfl⟩

section
variable {s : State} (hb : BufferAccepted s)
include hb

theorem bufferLengthOf_cast : (bufferLengthOf s : Int) = s32 s.args.arg1 := Int.toNat_of_nonneg hb.length

/-- The checks of SETKEY on an accepted buffer: the size, admission, weakness (R175). -/
theorem resultOf_setkey_accepted :
    resultOf (.setkey false) s =
      if !legal s.params.keySizes (8 * s32 s.args.arg1) then .error .invalidKeySize
      else if !admitsRange s.params .read (u32 s.args.arg0) (bufferLengthOf s) then .error .busError
      else if isWeakKey s.params.alg (bufferBytesOf s) then .error .weakKey
      else
        .ok
          ⟨withCfg s
            { s.cfg with key := bufferBytesOf s, keyBits := BitVec.ofInt 32 (8 * s32 s.args.arg1) }, 0, 0⟩ := by
  have hbits : BitVec.ofNat 32 (8 * bufferLengthOf s) = BitVec.ofInt 32 (8 * s32 s.args.arg1) := by
    rw [← bufferLengthOf_cast hb, ← BitVec.ofInt_natCast, Nat.cast_mul, Nat.cast_ofNat]
  simp only [resultOf, setkeyResult, fbBuffer_accepted hb, hbits, legalBytes, bufferLengthOf_cast hb]
  rfl

/-- The checks of SETIV on an accepted buffer: one block, then admission (R176). -/
theorem resultOf_setiv_accepted :
    resultOf (.setiv false) s =
      if s32 s.args.arg1 ≠ ((s.cfg.blockBits.toNat / 8 : Nat) : Int) then .error .invalidIVSize
      else if !admitsRange s.params .read (u32 s.args.arg0) (bufferLengthOf s) then .error .busError
      else .ok ⟨withCfg s { s.cfg with iv := bufferBytesOf s }, 0, 0⟩ := by
  have hblock : bufferLengthOf s ≠ s.cfg.blockBits.toNat / 8 ↔
      s32 s.args.arg1 ≠ ((s.cfg.blockBits.toNat / 8 : Nat) : Int) := by
    have hlen := bufferLengthOf_cast hb
    omega
  simp only [resultOf, setivResult, fbBuffer_accepted hb, hblock]
  rfl

/-- The checks of GETKEY and GETIV on an accepted buffer: it is long enough, then admission (R177, R178). -/
theorem copyOut_accepted (data : Bytes) :
    copyOut data false s =
      if s32 s.args.arg1 < (data.length : Int) then .error .argumentOverflow
      else if !admitsRange s.params .write (u32 s.args.arg0) data.length then .error .busError
      else .ok ⟨{ s with mem := memWrite s.mem (u32 s.args.arg0) data }, BitVec.ofNat 32 data.length, 0⟩ := by
  have hshort : data.length > bufferLengthOf s ↔ s32 s.args.arg1 < (data.length : Int) := by
    have hlen := bufferLengthOf_cast hb
    omega
  simp only [copyOut, fbBuffer_accepted hb, hshort]

theorem resultOf_setkey_illegal (hlegal : legal s.params.keySizes (8 * s32 s.args.arg1) = false) :
    resultOf (.setkey false) s = .error .invalidKeySize := by
  rw [resultOf_setkey_accepted hb, hlegal]
  rfl

theorem resultOf_setkey_unreadable (hlegal : legal s.params.keySizes (8 * s32 s.args.arg1) = true)
    (hr : ¬ allAdmitted s .read (u32 s.args.arg0) (bufferLengthOf s)) :
    resultOf (.setkey false) s = .error .busError := by
  rw [resultOf_setkey_accepted hb, hlegal, not_allAdmitted hr]
  rfl

theorem resultOf_setkey_weak (hlegal : legal s.params.keySizes (8 * s32 s.args.arg1) = true)
    (hr : allAdmitted s .read (u32 s.args.arg0) (bufferLengthOf s))
    (hweak : isWeakKey s.params.alg (bufferBytesOf s) = true) :
    resultOf (.setkey false) s = .error .weakKey := by
  rw [resultOf_setkey_accepted hb, hlegal, (allAdmitted_iff ..).mp hr, hweak]
  rfl

theorem resultOf_setkey_strong (hlegal : legal s.params.keySizes (8 * s32 s.args.arg1) = true)
    (hr : allAdmitted s .read (u32 s.args.arg0) (bufferLengthOf s))
    (hstrong : isWeakKey s.params.alg (bufferBytesOf s) = false) :
    resultOf (.setkey false) s =
      .ok
        ⟨withCfg s
          { s.cfg with key := bufferBytesOf s, keyBits := BitVec.ofInt 32 (8 * s32 s.args.arg1) }, 0, 0⟩ := by
  rw [resultOf_setkey_accepted hb, hlegal, (allAdmitted_iff ..).mp hr, hstrong]
  rfl

theorem resultOf_setiv_wrongLength (hblock : s32 s.args.arg1 ≠ ((s.cfg.blockBits.toNat / 8 : Nat) : Int)) :
    resultOf (.setiv false) s = .error .invalidIVSize :=
  (resultOf_setiv_accepted hb).trans (if_pos hblock)

theorem resultOf_setiv_unreadable (hblock : s32 s.args.arg1 = ((s.cfg.blockBits.toNat / 8 : Nat) : Int))
    (hr : ¬ allAdmitted s .read (u32 s.args.arg0) (bufferLengthOf s)) :
    resultOf (.setiv false) s = .error .busError := by
  rw [resultOf_setiv_accepted hb, if_neg (not_not_intro hblock), not_allAdmitted hr]
  rfl

theorem resultOf_setiv_readable (hblock : s32 s.args.arg1 = ((s.cfg.blockBits.toNat / 8 : Nat) : Int))
    (hr : allAdmitted s .read (u32 s.args.arg0) (bufferLengthOf s)) :
    resultOf (.setiv false) s = .ok ⟨withCfg s { s.cfg with iv := bufferBytesOf s }, 0, 0⟩ := by
  rw [resultOf_setiv_accepted hb, if_neg (not_not_intro hblock), (allAdmitted_iff ..).mp hr]
  rfl

theorem copyOut_short {data : Bytes} (hshort : s32 s.args.arg1 < (data.length : Int)) :
    copyOut data false s = .error .argumentOverflow :=
  (copyOut_accepted hb data).trans (if_pos hshort)

theorem copyOut_unwritable {data : Bytes} (hfits : (data.length : Int) ≤ s32 s.args.arg1)
    (hw : ¬ allAdmitted s .write (u32 s.args.arg0) data.length) : copyOut data false s = .error .busError := by
  rw [copyOut_accepted hb, if_neg (not_lt.mpr hfits), not_allAdmitted hw]
  rfl

theorem copyOut_writable {data : Bytes} (hfits : (data.length : Int) ≤ s32 s.args.arg1)
    (hw : allAdmitted s .write (u32 s.args.arg0) data.length) :
    copyOut data false s =
      .ok ⟨{ s with mem := memWrite s.mem (u32 s.args.arg0) data }, BitVec.ofNat 32 data.length, 0⟩ := by
  rw [copyOut_accepted hb, if_neg (not_lt.mpr hfits), (allAdmitted_iff ..).mp hw]
  rfl

end

/-! ### The explicit operands of creation (R77, R180) -/

theorem explicitKey_null (s : State) : explicitKey true true s = .error .invalidKeySize := rfl

theorem explicitKey_rangeError {s : State} {e : ErrorKind} (h : bufferRange s.args.arg0 s.args.arg1 = .error e) :
    explicitKey true false s = .error e := by
  simp [explicitKey, h]

theorem explicitKey_illegal {s : State} (h0 : 0 ≤ s32 s.args.arg1)
    (hfit : (u32 s.args.arg0 : Int) + s32 s.args.arg1 ≤ 2 ^ 32)
    (hlegal : legal s.params.keySizes (8 * s32 s.args.arg1) = false) :
    explicitKey true false s = .error .invalidKeySize := by
  simp [explicitKey, bufferRange_ok_iff.mpr ⟨h0, hfit, rfl⟩, legalBytes_toNat _ h0, hlegal]

theorem explicitIV_null (s : State) : explicitIV true true s = .error .invalidIVSize := rfl

theorem explicitIV_rangeError {s : State} {e : ErrorKind} (h : bufferRange s.args.arg2 s.args.arg3 = .error e) :
    explicitIV true false s = .error e := by
  simp [explicitIV, h]

theorem explicitIV_wrongLength {s : State} (h0 : 0 ≤ s32 s.args.arg3)
    (hfit : (u32 s.args.arg2 : Int) + s32 s.args.arg3 ≤ 2 ^ 32)
    (hblock : s32 s.args.arg3 ≠ ((s.cfg.blockBits.toNat / 8 : Nat) : Int)) :
    explicitIV true false s = .error .invalidIVSize := by
  have hlen : (s32 s.args.arg3).toNat ≠ s.cfg.blockBits.toNat / 8 := by omega
  simp [explicitIV, bufferRange_ok_iff.mpr ⟨h0, hfit, rfl⟩, hlen]

/-- The range of an operand that is read only where its flag is 1 (R77). -/
def flaggedRange : Bool → Word → Word → Option Buffer
  | false, _, _ => none
  | true, a, l => some ⟨u32 a, (s32 l).toNat⟩

theorem explicitKey_flagged {s : State} {kx n0 : Bool} (h : kx = true → ExplicitKeyAccepted s n0) :
    explicitKey kx n0 s = .ok (flaggedRange kx s.args.arg0 s.args.arg1) := by
  cases kx with
  | false => rfl
  | true => exact explicitKey_accepted (h rfl)

theorem explicitIV_flagged {s : State} {ix n1 : Bool} (h : ix = true → ExplicitIVAccepted s n1) :
    explicitIV ix n1 s = .ok (flaggedRange ix s.args.arg2 s.args.arg3) := by
  cases ix with
  | false => rfl
  | true => exact explicitIV_accepted (h rfl)

theorem operandAdmitted_flagged {s : State} {f : Bool} {a l : Word} :
    operandAdmitted s (flaggedRange f a l) = true ↔ (f = true → allAdmitted s .read (u32 a) (s32 l).toNat) := by
  cases f with
  | false => simp [flaggedRange, operandAdmitted]
  | true => simp [flaggedRange, operandAdmitted, allAdmitted_iff]

/-- An operand is what memory holds in its range where its flag is 1, and the configuration's where it is 0. -/
theorem operandOr_flagged {s : State} {f : Bool} {a l : Word} {default v : Bytes}
    (h1 : f = true → v = memRead s.mem (u32 a) (s32 l).toNat) (h0 : f = false → v = default) :
    operandOr s default (flaggedRange f a l) = v := by
  cases f with
  | false => exact (h0 rfl).symm
  | true => exact (h1 rfl).symm

/-! ### Creation's checks of the configuration (R107, R180) -/

theorem creationCheck_feedbackTooLarge {s : State} (hm : s.cfg.mode = .cfb)
    (h : s.cfg.blockBits.toNat < s.cfg.feedbackBits.toNat) : creationCheck s = .error .invalidFeedbackSize :=
  if_pos ⟨hm, h⟩

theorem creationCheck_unsupported {s : State} (hm : s.cfg.mode = .cfb)
    (hfits : s.cfg.feedbackBits.toNat ≤ s.cfg.blockBits.toNat)
    (h : supportedCfb s.params s.cfg.blockBits.toNat s.cfg.feedbackBits.toNat = false) :
    creationCheck s = .error .feedbackSizeUnsupported := by
  rw [creationCheck, if_neg (by omega), if_pos ⟨hm, h⟩]

theorem creationCheck_blockTooLarge {s : State}
    (hfb : s.cfg.mode = .cfb → s.cfg.feedbackBits.toNat ≤ s.cfg.blockBits.toNat ∧
      supportedCfb s.params s.cfg.blockBits.toNat s.cfg.feedbackBits.toNat = true)
    (hp : s.cfg.padding = .pkcs7 ∨ s.cfg.padding = .ansix923 ∨ s.cfg.padding = .iso10126)
    (h : 255 < s.cfg.blockBits.toNat / 8) : creationCheck s = .error .invalidBlockSize := by
  have hfits : ¬ (s.cfg.mode = .cfb ∧ s.cfg.feedbackBits.toNat > s.cfg.blockBits.toNat) := fun ⟨hm, hlarge⟩ =>
    absurd (hfb hm).1 (not_le.mpr hlarge)
  have hsupported : ¬ (s.cfg.mode = .cfb ∧
      supportedCfb s.params s.cfg.blockBits.toNat s.cfg.feedbackBits.toNat = false) := fun ⟨hm, hno⟩ =>
    Bool.false_ne_true (hno.symm.trans (hfb hm).2)
  rw [creationCheck, if_neg hfits, if_neg hsupported, if_pos ⟨(countedPadding_iff _).mpr hp, h⟩]

/-! ### Creation in an existing slot (R180) -/

/-- The last checks of creation, on the bytes of the explicit operands: admission of the key, admission of the IV, weakness
of an explicit key; then the commit (R180). -/
def createChecked (s : State) (d : Direction) (slot : Nat) (kx : Bool) (kb ib : Option Buffer) : Result :=
  if !operandAdmitted s kb then .error .busError
  else if !operandAdmitted s ib then .error .busError
  else if kx && isWeakKey s.params.alg (operandOr s s.cfg.key kb) then .error .weakKey
  else .ok ⟨setSlot s slot (createdSlot s.cfg d (operandOr s s.cfg.key kb) (operandOr s s.cfg.iv ib)), 0, 0⟩

section
variable {s : State} {d : Direction} {slot : Nat} {n0 n1 kx ix : Bool}

/-- On an existing slot the checks of the key, of the IV and of the configuration come in this order, then those on bytes. -/
theorem creationResult_existing (hslot : slot < s.params.numSlots) :
    creationResult (externals s.params) d slot n0 n1 kx ix s =
      (explicitKey kx n0 s).bind fun kb => (explicitIV ix n1 s).bind fun ib =>
        (creationCheck s).bind fun _ => createChecked s d slot kx kb ib := by
  simp only [creationResult, (slotExists_iff s slot).mpr hslot, Bool.not_true, Bool.false_eq_true, if_false]
  cases explicitKey kx n0 s with
  | error e => rfl
  | ok kb =>
    cases explicitIV ix n1 s with
    | error e => rfl
    | ok ib => cases creationCheck s <;> rfl

theorem creationResult_keyError (hslot : slot < s.params.numSlots) {e : ErrorKind} (hk : explicitKey kx n0 s = .error e) :
    creationResult (externals s.params) d slot n0 n1 kx ix s = .error e := by
  rw [creationResult_existing hslot, hk]
  rfl

theorem creationResult_ivError (hslot : slot < s.params.numSlots) (hk : kx = true → ExplicitKeyAccepted s n0)
    {e : ErrorKind} (hi : explicitIV ix n1 s = .error e) :
    creationResult (externals s.params) d slot n0 n1 kx ix s = .error e := by
  rw [creationResult_existing hslot, explicitKey_flagged hk, hi]
  rfl

theorem creationResult_checkError (hslot : slot < s.params.numSlots) (hk : kx = true → ExplicitKeyAccepted s n0)
    (hi : ix = true → ExplicitIVAccepted s n1) {e : ErrorKind} (hc : creationCheck s = .error e) :
    creationResult (externals s.params) d slot n0 n1 kx ix s = .error e := by
  rw [creationResult_existing hslot, explicitKey_flagged hk, explicitIV_flagged hi, hc]
  rfl

/-- Past the checks that need no memory, those on the bytes of the explicit operands are left. -/
theorem creationResult_accepted (hslot : slot < s.params.numSlots) (hc : ConfigurationAccepted s)
    (hk : kx = true → ExplicitKeyAccepted s n0) (hi : ix = true → ExplicitIVAccepted s n1) :
    creationResult (externals s.params) d slot n0 n1 kx ix s =
      createChecked s d slot kx (flaggedRange kx s.args.arg0 s.args.arg1) (flaggedRange ix s.args.arg2 s.args.arg3) := by
  rw [creationResult_existing hslot, explicitKey_flagged hk, explicitIV_flagged hi, creationCheck_accepted hc]
  rfl

end

section
variable {s : State} {d : Direction} {slot : Nat} {kx : Bool} {kb ib : Option Buffer}

theorem createChecked_keyUnreadable (hkr : ¬ operandAdmitted s kb = true) :
    createChecked s d slot kx kb ib = .error .busError := by
  rw [createChecked, Bool.eq_false_of_not_eq_true hkr]
  rfl

theorem createChecked_ivUnreadable (hkr : operandAdmitted s kb = true) (hir : ¬ operandAdmitted s ib = true) :
    createChecked s d slot kx kb ib = .error .busError := by
  rw [createChecked, hkr, Bool.eq_false_of_not_eq_true hir]
  rfl

theorem createChecked_weak (hkr : operandAdmitted s kb = true) (hir : operandAdmitted s ib = true)
    (hweak : (kx && isWeakKey s.params.alg (operandOr s s.cfg.key kb)) = true) :
    createChecked s d slot kx kb ib = .error .weakKey := by
  rw [createChecked, hkr, hir, hweak]
  rfl

theorem createChecked_ok (hkr : operandAdmitted s kb = true) (hir : operandAdmitted s ib = true)
    (hstrong : (kx && isWeakKey s.params.alg (operandOr s s.cfg.key kb)) = false) :
    createChecked s d slot kx kb ib =
      .ok ⟨setSlot s slot (createdSlot s.cfg d (operandOr s s.cfg.key kb) (operandOr s s.cfg.iv ib)), 0, 0⟩ := by
  rw [createChecked, hkr, hir, hstrong]
  rfl

end

/-- CRENC and CRDEC differ in the direction alone, so they raise what creation raises in either direction (R180). -/
theorem exec_creation_error {i : Nat → Bool → Bool → Bool → Bool → Instr} {slot : Nat} {n0 n1 kx ix : Bool} {s : State}
    {e : ErrorKind} (hi : i = .crenc ∨ i = .crdec)
    (h : ∀ d, creationResult (externals s.params) d slot n0 n1 kx ix s = .error e) :
    exec (i slot n0 n1 kx ix) s = .next (failedWith s (errorCode e)) := by
  obtain rfl | rfl := hi
  · exact exec_of_error (i := .crenc slot n0 n1 kx ix) (h .encrypt)
  · exact exec_of_error (i := .crdec slot n0 n1 kx ix) (h .decrypt)

/-- The segment size of the slot a configuration makes (R122). -/
theorem segmentSize_eq {m : Mode} {b f u : Nat} (hcfb : m = .cfb → u = f / 8) (hother : m ≠ .cfb → u = b / 8) :
    segmentSize m b f = u := by
  cases m with
  | cfb => exact (hcfb rfl).symm
  | cbc | ecb | ofb => exact (hother (by decide)).symm

/-! ### The statements -/

/-- Settles O32, by the configuration's frame, which names the fields of each command; a command that raises an error is over
the state before it. -/
theorem configurationWritesOnlyItsFields : Obligations.ConfigurationWritesOnlyItsFields := by
  intro s t n0
  refine ⟨exec_cfgFrame, exec_cfgFrame, exec_cfgFrame, exec_cfgFrame, exec_cfgFrame, exec_cfgFrame, exec_cfgFrame,
    exec_cfgFrame, exec_cfgFrame, fun i h herr => ?_⟩
  obtain ⟨e, -, rfl⟩ := exec_error_of_err_ne_zero h herr
  rfl

/-- Settles O34: with every check passed creation commits the slot of its snapshot. -/
theorem creationMakesActiveSlot : Obligations.CreationMakesActiveSlot := by
  intro slot n0 n1 kx ix s K IV hslot hc hkey hkey0 hiv hiv0 u hcfb hother
  simp only [imp_and] at hkey hiv
  obtain ⟨hk, hkr, hkbytes, hkstrong⟩ := hkey
  obtain ⟨hv, hvr, hvbytes⟩ := hiv
  have hK := operandOr_flagged hkbytes hkey0
  have hIV := operandOr_flagged hvbytes hiv0
  have hstrong : (kx && isWeakKey s.params.alg K) = false := by simpa using hkstrong
  have hcreate (d : Direction) : creationResult (externals s.params) d slot n0 n1 kx ix s =
      .ok ⟨setSlot s slot (createdSlot s.cfg d K IV), 0, 0⟩ := by
    rw [creationResult_accepted hslot hc hk hv, createChecked_ok (operandAdmitted_flagged.mpr hkr)
      (operandAdmitted_flagged.mpr hvr) (hK ▸ hstrong), hK, hIV]
  rw [← segmentSize_eq hcfb hother]
  exact ⟨exec_of_ok (i := .crenc slot n0 n1 kx ix) (hcreate .encrypt),
    exec_of_ok (i := .crdec slot n0 n1 kx ix) (hcreate .decrypt)⟩

/-- Settles O35: the first check that fails, in R180's order, decides. -/
theorem creationErrors : Obligations.CreationErrors := by
  intro i slot n0 n1 kx ix s hi hslot
  refine ⟨?_, fun hneg => ?_, fun h0 hwrap => ?_, fun h0 hfit hlegal => ?_, fun hk => ⟨?_, fun hneg => ?_,
    fun h0 hwrap => ?_, fun h0 hfit hblock => ?_, fun hv => ⟨fun hm h => ?_, fun hm hfits h => ?_, fun hfb hp h => ?_⟩⟩⟩
  · exact exec_creation_error hi fun _ => creationResult_keyError hslot (explicitKey_null s)
  · exact exec_creation_error hi fun _ =>
      creationResult_keyError hslot (explicitKey_rangeError (bufferRange_negative _ hneg))
  · exact exec_creation_error hi fun _ =>
      creationResult_keyError hslot (explicitKey_rangeError (bufferRange_wraps h0 hwrap))
  · exact exec_creation_error hi fun _ => creationResult_keyError hslot (explicitKey_illegal h0 hfit hlegal)
  · exact exec_creation_error hi fun _ => creationResult_ivError hslot hk (explicitIV_null s)
  · exact exec_creation_error hi fun _ =>
      creationResult_ivError hslot hk (explicitIV_rangeError (bufferRange_negative _ hneg))
  · exact exec_creation_error hi fun _ =>
      creationResult_ivError hslot hk (explicitIV_rangeError (bufferRange_wraps h0 hwrap))
  · exact exec_creation_error hi fun _ => creationResult_ivError hslot hk (explicitIV_wrongLength h0 hfit hblock)
  · exact exec_creation_error hi fun _ => creationResult_checkError hslot hk hv (creationCheck_feedbackTooLarge hm h)
  · exact exec_creation_error hi fun _ => creationResult_checkError hslot hk hv (creationCheck_unsupported hm hfits h)
  · exact exec_creation_error hi fun _ => creationResult_checkError hslot hk hv (creationCheck_blockTooLarge hfb hp h)

/-- Settles O36: past the other checks those on the bytes of the explicit operands decide, in their order. -/
theorem creationMemoryErrors : Obligations.CreationMemoryErrors := by
  intro i slot n0 n1 kx ix s hi hslot hc hk hv
  have hraise {e : ErrorKind} (h : ∀ d, createChecked s d slot kx (flaggedRange kx s.args.arg0 s.args.arg1)
      (flaggedRange ix s.args.arg2 s.args.arg3) = .error e) :
      exec (i slot n0 n1 kx ix) s = .next (failedWith s (errorCode e)) :=
    exec_creation_error hi fun d => (creationResult_accepted hslot hc hk hv).trans (h d)
  refine ⟨fun hkx hkr => ?_, fun hkr hix hir => ?_, fun hkx hkr hir hweak => ?_⟩
  · exact hraise fun _ => createChecked_keyUnreadable fun hadmit => hkr (operandAdmitted_flagged.mp hadmit hkx)
  · exact hraise fun _ => createChecked_ivUnreadable (operandAdmitted_flagged.mpr hkr) fun hadmit =>
      hir (operandAdmitted_flagged.mp hadmit hix)
  · subst hkx
    exact hraise fun _ => createChecked_weak (operandAdmitted_flagged.mpr fun _ => hkr)
      (operandAdmitted_flagged.mpr hir) hweak

/-- Settles O37, by the frames of the configuration, of host memory and of the drawn bytes: creation is in none of them. -/
theorem creationKeepsConfiguration : Obligations.CreationKeepsConfiguration := by
  intro slot n0 n1 kx ix s t h
  have hkept {i : Instr} (hi : i = .crenc slot n0 n1 kx ix ∨ i = .crdec slot n0 n1 kx ix) (ht : exec i s = .next t) :
      t.mem = s.mem ∧ t.draws = s.draws := by
    constructor
    · refine (exec_memoryFrame ht).resolve_right fun ⟨hstores, _⟩ => ?_
      rcases hi with rfl | rfl <;> simp [StoresMemory] at hstores
    · refine (exec_frame ht).draws.resolve_right fun hdraws => ?_
      rcases hi with rfl | rfl <;> simp [MayDraw] at hdraws
  obtain ht | ht := h
  · exact ⟨exec_cfgFrame ht, hkept (.inl rfl) ht⟩
  · exact ⟨exec_cfgFrame ht, hkept (.inr rfl) ht⟩

/-- Settles O22: the four mode codes are the values SETMODE takes. -/
theorem setmodeWritesMode : Obligations.SetmodeWritesMode := by
  refine ⟨decode_eq_ok_iff_encode.mpr ⟨trivial, rfl⟩, fun s => ?_⟩
  have hset (m : Mode) (h : s32 s.args.arg0 = (modeCode m).toNat) :=
    exec_of_ok (resultOf_setmode_code h)
  exact ⟨hset .cbc, hset .ecb, hset .ofb, hset .cfb, fun h => exec_of_error (resultOf_setmode_reserved h)⟩

/-- Settles O23: the five padding codes are the values SETPADDING takes. -/
theorem setpaddingWritesPadding : Obligations.SetpaddingWritesPadding := by
  refine ⟨decode_eq_ok_iff_encode.mpr ⟨trivial, rfl⟩, fun s => ?_⟩
  have hset (p : Padding) (h : s32 s.args.arg0 = (paddingCode p).toNat) :=
    exec_of_ok (resultOf_setpadding_code h)
  exact ⟨hset .nopad, hset .pkcs7, hset .zeros, hset .ansix923, hset .iso10126,
    fun h => exec_of_error (resultOf_setpadding_reserved h)⟩

/-- Settles O24: the key drawn has the length of the size and is not weak. -/
theorem setkeysizeDrawsKey : Obligations.SetkeysizeDrawsKey := by
  refine ⟨decode_eq_ok_iff_encode.mpr ⟨trivial, rfl⟩, fun s => ⟨fun h => ?_, fun h => ?_⟩⟩
  · refine ⟨drawnKey s.params.alg s.draws (s32 s.args.arg0 / 8).toNat, ?_, ?_, drawnKey_strong ..⟩
    · rw [drawnKey_length]
      exact exec_of_ok (resultOf_setkeysize_legal h)
    · have := legal_nonneg h
      rw [drawnKey_length]
      omega
  · exact exec_of_error (resultOf_setkeysize_illegal h)

/-- Settles O25: an IV of the new size is drawn exactly where the legal size is another than the current one. -/
theorem setblocksizeRedrawsIV : Obligations.SetblocksizeRedrawsIV := by
  refine ⟨decode_eq_ok_iff_encode.mpr ⟨trivial, rfl⟩, fun s => ⟨fun h hsame => ?_, fun h hother => ?_, fun h => ?_⟩⟩
  · exact exec_of_ok (resultOf_setblocksize_same h hsame)
  · refine ⟨drawnBytes s.draws (s32 s.args.arg0 / 8).toNat, ?_, ?_⟩
    · rw [drawnBytes_length]
      exact exec_of_ok (resultOf_setblocksize_other h hother)
    · have := legal_nonneg h
      rw [drawnBytes_length]
      omega
  · exact exec_of_error (resultOf_setblocksize_illegal h)

/-- Settles O26: the range check is SETFEEDBACK's only one. -/
theorem setfeedbackWritesSize : Obligations.SetfeedbackWritesSize :=
  ⟨decode_eq_ok_iff_encode.mpr ⟨trivial, rfl⟩, fun _ =>
    ⟨fun h1 h2 => exec_of_ok (resultOf_setfeedback_inside h1 h2), fun h =>
      exec_of_error (resultOf_setfeedback_outside h)⟩⟩

/-- Settles O27: a buffer that passes every check is the new key. -/
theorem setkeyWritesKey : Obligations.SetkeyWritesKey := fun _ hlen hfit hlegal hr hstrong =>
  exec_of_ok (resultOf_setkey_strong ⟨hlen, hfit⟩ hlegal hr hstrong)

/-- Settles O28: a buffer that passes every check is the new IV, whatever the mode. -/
theorem setivWritesIV : Obligations.SetivWritesIV := fun _ hlen hfit hblock hr =>
  exec_of_ok (resultOf_setiv_readable ⟨hlen, hfit⟩ hblock hr)

/-- Settles O29: GETKEY and GETIV are the one copy of the key and of the IV. -/
theorem getCommandsCopyOut : Obligations.GetCommandsCopyOut := fun _ hlen hfit =>
  ⟨fun hroom hw => exec_of_ok (i := .getkey false) (copyOut_writable ⟨hlen, hfit⟩ hroom hw), fun hroom hw =>
    exec_of_ok (i := .getiv false) (copyOut_writable ⟨hlen, hfit⟩ hroom hw)⟩

/-- Settles O31: on an accepted buffer the first later check that fails decides. -/
theorem bufferCommandErrors : Obligations.BufferCommandErrors := by
  intro s hlen hfit
  have hb : BufferAccepted s := ⟨hlen, hfit⟩
  refine ⟨fun hlegal => ?_, fun hlegal hr => ?_, fun hlegal hr hweak => ?_, fun hblock => ?_, fun hblock hr => ?_,
    fun hshort => ?_, fun hroom hw => ?_, fun hshort => ?_, fun hroom hw => ?_⟩
  · exact exec_of_error (resultOf_setkey_illegal hb hlegal)
  · exact exec_of_error (resultOf_setkey_unreadable hb hlegal hr)
  · exact exec_of_error (resultOf_setkey_weak hb hlegal hr hweak)
  · exact exec_of_error (resultOf_setiv_wrongLength hb hblock)
  · exact exec_of_error (resultOf_setiv_unreadable hb hblock hr)
  · exact exec_of_error (i := .getkey false) (copyOut_short hb hshort)
  · exact exec_of_error (i := .getkey false) (copyOut_unwritable hb hroom hw)
  · exact exec_of_error (i := .getiv false) (copyOut_short hb hshort)
  · exact exec_of_error (i := .getiv false) (copyOut_unwritable hb hroom hw)

end Sys2Proof.Machine

/-! Proofs for the family 60_exceptions.md: what an error leaves (R201, R203), the codes that are ever written (R200, R206), and
that nothing stops the engine (R204, R212). -/

namespace Sys2Proof.Machine

/-! ### InvalidOperation, the kind with no site (R206): the shared operations -/

/-- The operation `r` does not fail with InvalidOperation; it answers or fails with another kind. -/
abbrev NotInvalidOperation {α : Type} (r : Except ErrorKind α) : Prop := r ≠ .error .invalidOperation

/-- What an operation fails with is passed on unchanged by the one that calls it, whatever that one would answer. -/
theorem NotInvalidOperation.propagate {α β : Type} {r : Except ErrorKind α} {e : ErrorKind} (h : NotInvalidOperation r)
    (he : r = .error e) : NotInvalidOperation (.error e : Except ErrorKind β) := by
  rintro ⟨⟩
  exact h he

theorem bufferRange_notInvalidOperation (a l : Word) : NotInvalidOperation (bufferRange a l) := by
  unfold bufferRange
  split_ifs <;> nofun

theorem fbBuffer_notInvalidOperation (n0 : Bool) (s : State) : NotInvalidOperation (fbBuffer n0 s) := by
  cases n0 with
  | true => nofun
  | false => exact bufferRange_notInvalidOperation _ _

theorem transformOperands_notInvalidOperation (n0 n1 : Bool) (s : State) :
    NotInvalidOperation (transformOperands n0 n1 s) := by
  unfold transformOperands
  split_ifs <;> nofun

theorem explicitKey_notInvalidOperation (kx n0 : Bool) (s : State) : NotInvalidOperation (explicitKey kx n0 s) := by
  unfold explicitKey
  split_ifs
  · nofun
  · split
    · next he => exact (bufferRange_notInvalidOperation _ _).propagate he
    · split_ifs <;> nofun
  · nofun

theorem explicitIV_notInvalidOperation (ix n1 : Bool) (s : State) : NotInvalidOperation (explicitIV ix n1 s) := by
  unfold explicitIV
  split_ifs
  · nofun
  · split
    · next he => exact (bufferRange_notInvalidOperation _ _).propagate he
    · split_ifs <;> nofun
  · nofun

theorem creationCheck_notInvalidOperation (s : State) : NotInvalidOperation (creationCheck s) := by
  unfold creationCheck
  split_ifs <;> nofun

theorem pad_notInvalidOperation (p : Padding) (filler D : Bytes) (P : Nat) : NotInvalidOperation (pad p filler D P) := by
  cases p with
  | nopad => unfold pad; split_ifs <;> nofun
  | pkcs7 | zeros | ansix923 | iso10126 => nofun

theorem unpad_notInvalidOperation (p : Padding) (D : Bytes) (P : Nat) : NotInvalidOperation (unpad p D P) :=
  fun h => nomatch unpad_error h

theorem finalBytes_notInvalidOperation (ext : Externals) (m : Mode) (p : Padding) (sl : Slot) (drawn : Nat) (D : Bytes) :
    NotInvalidOperation (finalBytes ext m p sl drawn D) := by
  cases hd : sl.dir with
  | encrypt =>
    rw [finalBytes_encrypt _ _ _ _ _ hd, finalEncrypt]
    split
    · next he => exact (pad_notInvalidOperation _ _ _ _).propagate he
    · nofun
  | decrypt =>
    rw [finalBytes_decrypt _ _ _ _ _ hd]
    exact unpad_notInvalidOperation _ _ _

/-! ### InvalidOperation: the commands with checks of their own -/

theorem setkeyResult_notInvalidOperation (ext : Externals) (n0 : Bool) (s : State) :
    NotInvalidOperation (setkeyResult ext n0 s) := by
  unfold setkeyResult
  split
  · next he => exact (fbBuffer_notInvalidOperation n0 s).propagate he
  · split_ifs <;> nofun

theorem setivResult_notInvalidOperation (n0 : Bool) (s : State) : NotInvalidOperation (setivResult n0 s) := by
  unfold setivResult
  split
  · next he => exact (fbBuffer_notInvalidOperation n0 s).propagate he
  · split_ifs <;> nofun

theorem copyOut_notInvalidOperation (data : Bytes) (n0 : Bool) (s : State) : NotInvalidOperation (copyOut data n0 s) := by
  unfold copyOut
  split
  · next he => exact (fbBuffer_notInvalidOperation n0 s).propagate he
  · split_ifs <;> nofun

theorem creationResult_notInvalidOperation (ext : Externals) (d : Direction) (slot : Nat) (n0 n1 kx ix : Bool) (s : State) :
    NotInvalidOperation (creationResult ext d slot n0 n1 kx ix s) := by
  unfold creationResult
  split
  · nofun
  · split
    · next he => exact (explicitKey_notInvalidOperation kx n0 s).propagate he
    · split
      · next he => exact (explicitIV_notInvalidOperation ix n1 s).propagate he
      · split
        · next he => exact (creationCheck_notInvalidOperation s).propagate he
        · split_ifs <;> nofun

theorem tblockResult_notInvalidOperation (ext : Externals) (slot : Nat) (n0 n1 : Bool) (s : State) :
    NotInvalidOperation (tblockResult ext slot n0 n1 s) := by
  unfold tblockResult
  split
  · nofun
  · split
    · nofun
    · split
      · next he => exact (transformOperands_notInvalidOperation n0 n1 s).propagate he
      · split_ifs <;> nofun

theorem tfinalResult_notInvalidOperation (ext : Externals) (slot : Nat) (n0 n1 : Bool) (s : State) :
    NotInvalidOperation (tfinalResult ext slot n0 n1 s) := by
  unfold tfinalResult
  split
  · nofun
  · split
    · nofun
    · split
      · next he => exact (transformOperands_notInvalidOperation n0 n1 s).propagate he
      · split_ifs
        · nofun
        · nofun
        · split
          · next he => exact (finalBytes_notInvalidOperation _ _ _ _ _ _).propagate he
          · split_ifs <;> nofun

/-- No command raises InvalidOperation (R206). -/
theorem resultOf_notInvalidOperation (i : Instr) (s : State) : NotInvalidOperation (resultOf i s) := by
  cases i with
  | setmode => rw [resultOf, setmodeResult]; split <;> nofun
  | setpadding => rw [resultOf, setpaddingResult]; split <;> nofun
  | setkeysize => rw [resultOf, setkeysizeResult]; split <;> nofun
  | setblocksize => rw [resultOf, setblocksizeResult]; split_ifs <;> nofun
  | setfeedback => rw [resultOf, setfeedbackResult]; split <;> nofun
  | setkey n0 => exact setkeyResult_notInvalidOperation _ n0 s
  | setiv n0 => exact setivResult_notInvalidOperation n0 s
  | getkey n0 => exact copyOut_notInvalidOperation _ n0 s
  | getiv n0 => exact copyOut_notInvalidOperation _ n0 s
  | crenc slot n0 n1 kx ix => exact creationResult_notInvalidOperation _ _ slot n0 n1 kx ix s
  | crdec slot n0 n1 kx ix => exact creationResult_notInvalidOperation _ _ slot n0 n1 kx ix s
  | tblock slot n0 n1 => exact tblockResult_notInvalidOperation _ slot n0 n1 s
  | tfinal slot n0 n1 => exact tfinalResult_notInvalidOperation _ slot n0 n1 s
  | clear slot => rw [resultOf, clearResult]; split <;> nofun
  | query slot => rw [resultOf, queryResult]; split <;> nofun

/-! ### The codes of STATUS.ERR (R200) -/

theorem errorCode_le (e : ErrorKind) : (errorCode e).toNat ≤ 16 := by
  cases e <;> decide

theorem errorCode_eq_thirteen_iff {e : ErrorKind} : errorCode e = 13 ↔ e = .invalidOperation := by
  cases e <;> decide

/-! ### Every host event leads to a next state (R204) -/

theorem windowWrite_next (s : State) (offset : BitVec 12) (width : Nat) (v : Word) :
    ∃ t, windowWrite s offset width v = .next t := by
  unfold windowWrite
  split_ifs
  · exact runCommand_next s v
  · exact ⟨_, rfl⟩
  · exact ⟨_, rfl⟩

theorem takeEvent_next (s : State) (e : HostEvent) : ∃ t, takeEvent s e = .next t := by
  cases e with
  | windowWrite offset width value => exact windowWrite_next s offset width value
  | windowRead | memStore | memLoad | reset => exact ⟨_, rfl⟩
  | resetDuring command commits =>
    obtain ⟨t, ht, -⟩ := resetDuringCommand_cases s command commits
    exact ⟨_, ht⟩

/-! ### The statements -/

/-- Settles O12: a command that raises leaves its kind's code, and no command raises the kind of code 13; a command that
completes leaves 0. -/
theorem writtenErrorCodes : Obligations.WrittenErrorCodes := by
  intro i s t h
  obtain ⟨e, he, rfl⟩ | ⟨c, -, rfl⟩ := exec_cases h
  · exact ⟨errorCode_le e, fun h13 => resultOf_notInvalidOperation i s (errorCode_eq_thirteen_iff.mp h13 ▸ he)⟩
  · rw [complete_err]
    decide

/-- Settles O11: a command that leaves a nonzero code has raised an error over the state before it. -/
theorem failedCommandChangesOnlyStatus : Obligations.FailedCommandChangesOnlyStatus := by
  intro i s t h herr
  obtain ⟨e, -, rfl⟩ := exec_error_of_err_ne_zero h herr
  rfl

/-- Settles O13: a step is idle or takes one event, and every event leads to a next state. -/
theorem everyStepAnswersNext : Obligations.EveryStepAnswersNext := by
  intro s
  obtain ⟨-, hidle⟩ | ⟨e, rest, -, htake⟩ := step_cases s
  · exact ⟨s, hidle⟩
  · obtain ⟨t, ht⟩ := takeEvent_next { s with pending := rest } e
    exact ⟨t, htake.trans ht⟩

end Sys2Proof.Machine

/-! Proofs for the family 70_reset_and_hazards.md: what a reset leaves, alone or during a command (R220, R221), and that the
machine it leaves is lawful (R222). -/

namespace Sys2Proof.Machine

/-! ### The state a reset leaves -/

/-- A reset of a lawful instance leaves a lawful machine, whatever stands in host memory (R222). -/
theorem resetOf_inv {p : Params} {mem : Memory} (hp : paramsLawful p = true) (hmem : mem.wf = true) (drawn : Nat)
    (pending : List HostEvent) (lastRead : Word) : (State.resetOf p mem drawn pending lastRead).Inv where
  instanceLawful := hp
  cfgLawful := resetCfg_lawful hp drawn
  slotCount := List.length_replicate
  slotsLawful := fun _ hsl => List.eq_of_mem_replicate hsl ▸ freshSlot_lawful p
  memoryCanonical := hmem

/-- A slot after reset is one never created, its storage zeros and its input buffer empty (R40 to R46). -/
theorem mem_platformReset_slots {s : State} {sl : Slot} (h : sl ∈ (platformReset s).slots) :
    NeverCreated sl ∧ sl.key = zeros sl.key.length ∧ sl.chain = zeros sl.chain.length ∧ sl.ibuf = [] := by
  obtain rfl := List.eq_of_mem_replicate h
  exact ⟨⟨rfl, rfl, rfl, rfl, rfl, rfl, rfl⟩, by simp [freshSlot], by simp [freshSlot], rfl⟩

/-! ### The steps that take a reset -/

theorem step_reset {s : State} {rest : List HostEvent} (h : s.pending = .reset :: rest) :
    step s = .next (platformReset { s with pending := rest }) :=
  step_of_pending h

/-- A reset put before the events to come is the next step (R5, R220). -/
theorem step_reset_cons (s : State) (rest : List HostEvent) :
    step { s with pending := .reset :: rest } = .next (platformReset { s with pending := rest }) :=
  step_reset (s := { s with pending := .reset :: rest }) rfl

/-- A write to CMD put before the events to come is the next step (R5, R33). -/
theorem step_cmdWrite_cons (s : State) (w : Word) (rest : List HostEvent) :
    step { s with pending := .windowWrite 0x00C#12 32 w :: rest } = runCommand { s with pending := rest } w :=
  step_cmdWrite (s := { s with pending := .windowWrite 0x00C#12 32 w :: rest }) rfl

/-- A word written to CMD, a command or not, leaves the host events to come (R5, R72). -/
theorem runCommand_pending {s t : State} {w : Word} (h : runCommand s w = .next t) : t.pending = s.pending := by
  cases hdec : decode w with
  | ok i => exact (exec_frame (runCommand_of_ok hdec s ▸ h)).pending
  | error e => cases (runCommand_of_error hdec s).symm.trans h; rfl

/-- A reset that discards the command in progress is a step that resets alone (R220). -/
theorem step_resetDuring_discards {s : State} {w : Word} {rest : List HostEvent}
    (h : s.pending = .resetDuring w false :: rest) : step s = step { s with pending := .reset :: rest } :=
  calc step s = .next (platformReset { s with pending := rest }) := step_of_pending h
    _ = step { s with pending := .reset :: rest } := (step_reset_cons s rest).symm

/-- A reset that follows the command's commit is the write to CMD and then a reset (R220): the command leaves the host events
to come, so the reset finds the rest of them. -/
theorem step_resetDuring_commits {s t : State} {w : Word} {rest : List HostEvent}
    (h : s.pending = .resetDuring w true :: rest)
    (hcmd : step { s with pending := .windowWrite 0x00C#12 32 w :: rest } = .next t) :
    step s = step { t with pending := .reset :: rest } := by
  have hrun : runCommand { s with pending := rest } w = .next t := (step_cmdWrite_cons s w rest).symm.trans hcmd
  obtain rfl : t.pending = rest := runCommand_pending hrun
  calc step s = .next (platformReset t) := (step_of_pending h).trans (resetDuringCommand_commits hrun)
    _ = step { t with pending := .reset :: t.pending } := (step_reset_cons t t.pending).symm

/-! ### The statements -/

/-- Settles O19: a reset step answers `platformReset`, whose fields are the reset values, and a reset during a command is such
a step from the state the command leaves or from the one before it. -/
theorem resetEventValues : Obligations.ResetEventValues := by
  refine ⟨fun s rest h => ?values, fun s w rest => ⟨step_resetDuring_discards, fun h _ => step_resetDuring_commits h⟩⟩
  case values =>
    refine ⟨_, step_reset h, rfl, rfl, rfl, rfl, drawnKey_length .., drawnKey_strong .., rfl, drawnBytes_length .., rfl, rfl,
      rfl, rfl, List.length_replicate, fun sl hsl => ?_, rfl, rfl, rfl, rfl⟩
    obtain ⟨hnever, hkey, hchain, hibuf⟩ := mem_platformReset_slots hsl
    exact ⟨hnever.cleared, hnever.dirZero, hnever.modeZero, hnever.paddingZero, hnever.blockZero, hnever.feedbackZero,
      hnever.segmentZero, hkey, hchain, hibuf⟩

/-- Settles O20: the instance at reset is a lawful one, and empty host memory is canonical. -/
theorem resetMeetsInvariant : Obligations.ResetMeetsInvariant :=
  resetOf_inv boundInstance.lawful rfl 0 [] 0

end Sys2Proof.Machine
